-- ==== Sys2Proof/Word.lean ====
section
/-! DEFINITION. The words the block's interface is made of (00_scope.md R16): a 32-bit bus word and a byte of a message buffer. -/

namespace Sys2Proof

/-- A 32-bit bus word (20_memory.md R86). -/
abbrev Word := BitVec 32

/-- A byte of a message buffer (10_state.md R47). -/
abbrev Byte := BitVec 8

end Sys2Proof
end

