-- ==== Sys2Proof/Config.lean ====
section
/-! DEFINITION. What one build of the block fixes (its parameters) and the free values the spec leaves UNSPECIFIED. -/

namespace Sys2Proof

/-- The implementation parameters of one block (00_scope.md R12, R13, R14). A model takes them as an
argument, so they are a field of State that no step changes (log 2). -/
structure Params where
  /-- BASE: bus address of offset 0 -/
  base : Nat
  /-- OPW: width in bits of every wide register -/
  opw : Nat
  /-- BUF_BYTES: capacity of each message buffer -/
  bufBytes : Nat
  deriving DecidableEq, Repr

/-- The parameters State.reset uses: the spec's defaults OPW = 2048 (R12) and BUF_BYTES = 4096 (R13).
DESIGN CHOICE (log 2): BASE is OPEN in the spec (R14); this build stands at address 0. -/
def Config.defaultParams : Params := { base := 0, opw := 2048, bufBytes := 4096 }

/-- UNSPECIFIED read data (93 U2, U5, U6): any 32-bit word, drawn afresh, as a function of State's
counter `free`. It has no body: no proof can see a value of it (log 7). -/
opaque Config.freeWord : Nat → Word

/-- The value of a buffer byte that holds no defined value (93 U3, U4, U7, U8): any byte, drawn afresh,
as a function of State's counter `free` (logs 5, 6). -/
opaque Config.freeByte : Nat → Byte

end Sys2Proof
end

