-- ==== Sys2Proof/Syntax.lean ====
section
/-! DEFINITION. The twelve commands of the block, one constructor per row of spec/opcode_table.json (30_encoding.md R121). -/

namespace Sys2Proof

/-- A command. All operands are implicit (30_encoding.md R122), so no constructor carries an argument. -/
inductive Instr where
  /-- NOP, OPCODE 0x00 (R150) -/
  | nop
  /-- MODMUL, OPCODE 0x10 (R160) -/
  | modmul
  /-- MODEXP, OPCODE 0x11 (R163) -/
  | modexp
  /-- GCD, OPCODE 0x20 (R180) -/
  | gcd
  /-- MODINV, OPCODE 0x21 (R183) -/
  | modinv
  /-- MRTEST, OPCODE 0x30 (R201) -/
  | mrtest
  /-- GENPRIME, OPCODE 0x31 (R210) -/
  | genprime
  /-- KEYGEN, OPCODE 0x40 (R230) -/
  | keygen
  /-- ENC_ECB, OPCODE 0x50 (R270) -/
  | encEcb
  /-- DEC_ECB, OPCODE 0x51 (R272) -/
  | decEcb
  /-- ENC_CBC, OPCODE 0x52 (R274) -/
  | encCbc
  /-- DEC_CBC, OPCODE 0x53 (R276) -/
  | decCbc
  deriving DecidableEq, Repr

end Sys2Proof
end

