-- ==== Sys2Proof/WellFormed.lean ====
section
/-! DEFINITION. What a legal command word is (30_encoding.md R123, R124) and what legal parameters are (00_scope.md R12 to R14). -/

namespace Sys2Proof

/-- R123's first condition: v[31:8] = 0. -/
def reservedClear (v : Word) : Bool := v.toNat / 256 == 0

/-- R124's list of unassigned OPCODE values, as ranges: every other value is one of R121's twelve. -/
def opcodeUnassigned (op : Nat) : Bool :=
  (0x01 ≤ op && op ≤ 0x0F) || (0x12 ≤ op && op ≤ 0x1F) || (0x22 ≤ op && op ≤ 0x2F) ||
    (0x32 ≤ op && op ≤ 0x3F) || (0x41 ≤ op && op ≤ 0x4F) || 0x54 ≤ op

/-- A command word is legal iff RSVD = 0 and OPCODE is assigned (30_encoding.md R123). -/
def wordLegal (v : Word) : Bool := reservedClear v && !opcodeUnassigned (v.toNat % 256)

/-- Every command is well formed: it carries no register number and no immediate (30_encoding.md R120, R122). -/
def Instr.wf : Instr → Bool
  | .nop | .modmul | .modexp | .gcd | .modinv | .mrtest => true
  | .genprime | .keygen | .encEcb | .decEcb | .encCbc | .decCbc => true

/-- OPW is a multiple of 32 with 64 ≤ OPW ≤ 4096 (00_scope.md R12). -/
def Params.opwLegal (p : Params) : Bool := p.opw % 32 == 0 && 64 ≤ p.opw && p.opw ≤ 4096

/-- BUF_BYTES is a multiple of 4 with 64 ≤ BUF_BYTES ≤ 16384 (00_scope.md R13). -/
def Params.bufLegal (p : Params) : Bool := p.bufBytes % 4 == 0 && 64 ≤ p.bufBytes && p.bufBytes ≤ 16384

/-- BASE is 64 KiB aligned (92_eei_decisions.md, open parameters). -/
def Params.baseLegal (p : Params) : Bool := p.base % 65536 == 0

/-- The parameters of a block that exists (R12, R13, R14). -/
def Params.legal (p : Params) : Bool := p.opwLegal && p.bufLegal && p.baseLegal

end Sys2Proof
end

