-- ==== Sys2Proof/Decode.lean ====
section
/-! DEFINITION. Decoder and encoder of the 32-bit command word (30_encoding.md R120 to R125). -/

namespace Sys2Proof

/-- Why a command word is illegal (30_encoding.md R124). -/
inductive DecodeError where
  /-- v[31:8] ≠ 0 -/
  | reservedBitsSet
  /-- v[7:0] is none of the twelve assigned values -/
  | unassignedOpcode
  deriving DecidableEq, Repr

/-- OPCODE field, bits [7:0] of a command word (30_encoding.md R120). -/
def wordOpcode (v : Word) : BitVec 8 := v.extractLsb' 0 8

/-- RSVD field, bits [31:8] of a command word (30_encoding.md R120). -/
def wordRsvd (v : Word) : BitVec 24 := v.extractLsb' 8 24

/-- The opcode map (30_encoding.md R121). -/
def Instr.opcode : Instr → BitVec 8
  | .nop => 0x00
  | .modmul => 0x10
  | .modexp => 0x11
  | .gcd => 0x20
  | .modinv => 0x21
  | .mrtest => 0x30
  | .genprime => 0x31
  | .keygen => 0x40
  | .encEcb => 0x50
  | .decEcb => 0x51
  | .encCbc => 0x52
  | .decCbc => 0x53

/-- The opcode map read the other way (30_encoding.md R121); `none` for an unassigned value (R124). -/
def decodeOpcode (op : BitVec 8) : Option Instr :=
  match op.toNat with
  | 0x00 => some .nop
  | 0x10 => some .modmul
  | 0x11 => some .modexp
  | 0x20 => some .gcd
  | 0x21 => some .modinv
  | 0x30 => some .mrtest
  | 0x31 => some .genprime
  | 0x40 => some .keygen
  | 0x50 => some .encEcb
  | 0x51 => some .decEcb
  | 0x52 => some .encCbc
  | 0x53 => some .decCbc
  | _ => none

/-- Decode a command word (30_encoding.md R123): RSVD must be 0 and OPCODE assigned. -/
def decode (v : Word) : Except DecodeError Instr :=
  if wordRsvd v ≠ 0 then .error .reservedBitsSet
  else match decodeOpcode (wordOpcode v) with
    | some i => .ok i
    | none => .error .unassignedOpcode

/-- The command word of a command: RSVD = 0, OPCODE of R121 (30_encoding.md R120, R127 `CMD`). -/
def encode (i : Instr) : Word := (i.opcode).setWidth 32

/-- The command read from an instruction whose bits are w, numbered as spec/opcode_table.json numbers
them. A command is one 32-bit word (R125), so a longer number is no command. -/
def decodeTableWord (nbits w : Nat) : Option Instr :=
  let v := w % 2 ^ nbits
  if v < 2 ^ 32 then
    match decode (BitVec.ofNat 32 v) with
    | .ok i => some i
    | .error _ => none
  else none

end Sys2Proof
end

