-- ==== Sys2Proof/Machine/State.lean ====
section
/-! DEFINITION. The whole state of the block as plain data (10_state.md), the reasons a step can stop, and the state after reset (R61). -/

namespace Sys2Proof.Machine

/-- Why a step stops. No command and no bus transaction stops the machine: command errors are reported
in STATUS (60_exceptions.md R300, R302) and bus errors in the response (R303). -/
inductive Fault where
  /-- Raised by `step` alone, in a state whose BASE, OPW or BUF_BYTES has no legal value: the spec has no
  such block (00_scope.md R12, R13, R14). Safe: the machine stops where the spec gives no machine (log 19). -/
  | illegalParameters
  deriving DecidableEq, Repr

/-- Why an instruction has no meaning. -/
inductive Refusal where
  /-- Raised by an arm of `exec` whose instruction is not modelled yet. Safe: nothing follows from a refusal. -/
  | notModelled (mnemonic : String)
  deriving DecidableEq, Repr

/-- The error names and their order of codes (60_exceptions.md R300). -/
inductive Err where
  | noInverse | degenerateKey | invalidPadding | decoding | blockOverflow
  | iterationLimit | badOperand | bufferOverflow | illegalCommand
  deriving DecidableEq, Repr

/-- The eleven wide registers by name (10_state.md R40). -/
inductive WideName where
  | a | b | m | x | r | p | q | n | phi | e | d
  deriving DecidableEq, Repr

/-- The thirteen control and status registers by name (10_state.md R30). -/
inductive CtrlReg where
  | id | cmd | status | ctrl | mrRounds | primeBits | iterLimit | retryLimit
  | msgLen | outLen | blockSize | paramOpw | paramBuf
  deriving DecidableEq, Repr

/-- The two message buffers (10_state.md R47). -/
inductive BufName where
  | input | output
  deriving DecidableEq, Repr

/-- One wide register (10_state.md R40): an unsigned integer below 2^OPW, and which of its 32-bit words the
host or a command has written since reset (R46), bit i for word i (at most 128 words, 20_memory.md R84). -/
structure WideReg where
  val : Nat
  written : BitVec 128
  deriving DecidableEq, Repr

/-- The wide register file (10_state.md R40). -/
structure WideFile where
  a : WideReg
  b : WideReg
  m : WideReg
  x : WideReg
  r : WideReg
  p : WideReg
  q : WideReg
  n : WideReg
  phi : WideReg
  e : WideReg
  d : WideReg
  deriving DecidableEq, Repr

/-- The fields of STATUS (10_state.md R34) but BUSY, which is the command state machine itself (R55) and has
its home in `State.run`. -/
structure Status where
  done : Bool
  err : Bool
  result : Bool
  ovr : Bool
  errcode : BitVec 4
  lastop : BitVec 8
  deriving DecidableEq, Repr

/-- The fields of CTRL (10_state.md R35). -/
structure Ctrl where
  irqEn : Bool
  txtCheck : Bool
  deriving DecidableEq, Repr

/-- A request to the entropy port (00_scope.md R21). -/
inductive DrawReq where
  /-- DrawBits(k): a natural in [0, 2^k) -/
  | bits (k : Nat)
  /-- DrawRange(lo, hi): a natural in [lo, hi] -/
  | range (lo hi : Nat)
  /-- DrawBytes(k): k bytes, as the big-endian integer of DrawBits(8k) -/
  | bytes (k : Nat)
  deriving DecidableEq, Repr

/-- BUSY(op) (10_state.md R55): the command word accepted, CTRL.TXT_CHECK as it stood at the CMD write
(20_memory.md R97), and the entropy answers the command has drawn so far, which stand for its hidden
internal state (R56, log 10). -/
structure Running where
  word : Word
  txtCheck : Bool
  answers : List Nat
  deriving DecidableEq, Repr

/-- One bus transaction of the host (20_memory.md R90, R91): bus address, transfer size in bits, data. -/
inductive Txn where
  | read (addr size : Nat)
  | write (addr size : Nat) (data : Word)
  deriving DecidableEq, Repr

/-- What the environment does next (00_scope.md R11; log 1). -/
inductive Event where
  /-- the host issues a bus transaction -/
  | bus (t : Txn)
  /-- the reset pin is driven to a level (70 R340) -/
  | rst (asserted : Bool)
  /-- the core gets to run: the moment a running command may complete (70 R352) -/
  | core
  /-- the entropy port gives one more answer (60 R318) -/
  | entropy (answer : Nat)
  deriving DecidableEq, Repr

/-- The block's response to a bus transaction (00_scope.md R11, 20_memory.md R90, R91). -/
inductive Response where
  | readOk (data : Word)
  | readError (data : Word)
  | writeOk
  | writeError
  deriving DecidableEq, Repr

/-- The two message buffers as (window offset, byte) pairs, offsets strictly rising; an unlisted offset holds
no defined value (10_state.md R49, log 5). -/
abbrev Memory := List Host.Cell

/-- Everything the spec gives the machine, and three fields of the model's own: `inputs`, `entropy`, `free`. -/
structure State where
  /-- OPW, BUF_BYTES and BASE (R12 to R14) -/
  params : Params
  /-- STATUS but BUSY (R34) -/
  status : Status
  /-- CTRL (R35) -/
  ctrl : Ctrl
  /-- MR_ROUNDS.ROUNDS (R36) -/
  mrRounds : BitVec 16
  /-- PRIME_BITS.BITS (R37) -/
  primeBits : BitVec 16
  /-- ITER_LIMIT (R38) -/
  iterLimit : Word
  /-- RETRY_LIMIT (R39) -/
  retryLimit : Word
  /-- MSG_LEN (R50) -/
  msgLen : Word
  /-- OUT_LEN (R51) -/
  outLen : Word
  /-- BLOCK_SIZE (R52) -/
  blockSize : Word
  /-- the wide registers (R40) -/
  wide : WideFile
  /-- IN_BUF and OUT_BUF (R47) -/
  mem : Memory
  /-- the command state machine: none is IDLE, some is BUSY(op) (R55) -/
  run : Option Running
  /-- the draw the core waits for (R57) -/
  drawPending : Option DrawReq
  /-- level of the `rst` pin (R11, R340) -/
  rst : Bool
  /-- response to the host's last transaction (R11) -/
  response : Option Response
  /-- MODEL's own: what the environment does next, oldest first (log 1) -/
  inputs : List Event
  /-- MODEL's own: answers of the entropy port not yet consumed (ENTROPY_ORACLE, R318, log 9) -/
  entropy : List Nat
  /-- MODEL's own: the counter the free values are applied to (log 8) -/
  free : Nat
  deriving DecidableEq, Repr

/-- A wide register after reset. UNSPECIFIED in the spec (R46); DESIGN CHOICE (log 3): value 0, no word written. -/
def WideReg.reset : WideReg := { val := 0, written := 0 }

/-- The reset table of 10_state.md R61 for a block with parameters p. -/
def State.resetWith (p : Params) : State where
  params := p
  status := { done := false, err := false, result := false, ovr := false, errcode := 0, lastop := 0x00 }
  ctrl := { irqEn := false, txtCheck := true }
  mrRounds := 0x0080
  primeBits := 0x0200
  iterLimit := 0x00010000
  retryLimit := 0x00000400
  msgLen := 0
  outLen := 0
  blockSize := 0
  wide :=
    { a := .reset, b := .reset, m := .reset, x := .reset, r := .reset, p := .reset,
      q := .reset, n := .reset, phi := .reset, e := .reset, d := .reset }
  mem := []
  run := none
  drawPending := none
  rst := false
  response := none
  inputs := []
  entropy := []
  free := 0

/-- The machine right after reset (10_state.md R61, 70 R340), with the default parameters (log 2). -/
def State.reset : State := State.resetWith Config.defaultParams

end Sys2Proof.Machine
end

