-- ==== Sys2Proof/Machine/Entropy.lean ====
section
/-! DEFINITION. The entropy port as the core sees it (00_scope.md R21, 60_exceptions.md R318): a sequence of answers, each admitted into the requested range. -/

namespace Sys2Proof.Machine

/-- How a computation that draws entropy ends, given the answers available: a value or an error with the
answers left over, or a wait for the port on a request (00_scope.md R21, R22; 10_state.md R57). -/
inductive Drawn (α : Type) where
  | ok (value : α) (rest : List Nat)
  | err (e : Err) (rest : List Nat)
  | waits (req : DrawReq)
  deriving DecidableEq, Repr

/-- Sequencing: an error or a wait ends the whole computation (00_scope.md R22). -/
def Drawn.andThen {α β : Type} (d : Drawn α) (k : α → List Nat → Drawn β) : Drawn β :=
  match d with
  | .ok a rest => k a rest
  | .err e rest => .err e rest
  | .waits req => .waits req

/-- The value a request yields for one answer of the port: the answer itself when it is in range. The spec
admits in-range answers only (R318); log 9: an answer outside is folded into the range (U12). -/
def DrawReq.intoRange (req : DrawReq) (answer : Nat) : Nat :=
  match req with
  | .bits k => answer % 2 ^ k
  | .range lo hi => if lo ≤ answer ∧ answer ≤ hi then answer else lo + answer % (hi - lo + 1)
  | .bytes k => answer % 2 ^ (8 * k)

/-- One draw (00_scope.md R21): it takes the port's next answer, or waits when there is none. -/
def draw (req : DrawReq) (answers : List Nat) : Drawn Nat :=
  match answers with
  | [] => .waits req
  | v :: rest => .ok (req.intoRange v) rest

end Sys2Proof.Machine
end

