-- ==== Sys2Proof/Machine/Flags.lean ====
section
/-! DEFINITION. The STATUS word and every rule that computes a flag (10_state.md R34, R54; 40_control.md R140 to R147; 60_exceptions.md R300, R312). -/

namespace Sys2Proof.Machine

/-- The code of an error (60_exceptions.md R300). -/
def Err.code : Err → BitVec 4
  | .noInverse => 1
  | .degenerateKey => 2
  | .invalidPadding => 3
  | .decoding => 4
  | .blockOverflow => 5
  | .iterationLimit => 6
  | .badOperand => 7
  | .bufferOverflow => 8
  | .illegalCommand => 9

/-- STATUS.BUSY: 1 while a command executes (10_state.md R34, R55). -/
def State.busy (s : State) : Bool := s.run.isSome

/-- The `irq` output: CTRL.IRQ_EN AND STATUS.DONE (60_exceptions.md R312). -/
def State.irq (s : State) : Bool := s.ctrl.irqEn && s.status.done

/-- The ID constant (10_state.md R32). -/
def idWord : Word := 0x45430001

/-- STATUS as the host reads it (10_state.md R34): LASTOP [23:16], ERRCODE [11:8], OVR 4, RESULT 3, ERR 2,
DONE 1, BUSY 0; reserved bits read 0. -/
def Status.word (st : Status) (busy : Bool) : Word :=
  0#8 ++ st.lastop ++ 0#4 ++ st.errcode ++ 0#3 ++ BitVec.ofBool st.ovr ++ BitVec.ofBool st.result ++
    BitVec.ofBool st.err ++ BitVec.ofBool st.done ++ BitVec.ofBool busy

/-- CTRL as the host reads it (10_state.md R35). -/
def Ctrl.word (c : Ctrl) : Word := 0#30 ++ BitVec.ofBool c.txtCheck ++ BitVec.ofBool c.irqEn

/-- CTRL after a host write of v (10_state.md R31, R35): reserved bits are ignored. -/
def Ctrl.ofWord (v : Word) : Ctrl := { irqEn := v.getLsbD 0, txtCheck := v.getLsbD 1 }

/-- Flags at a command's start: LASTOP <- op; DONE, ERR, ERRCODE, RESULT <- 0 (40_control.md R140). -/
def Status.started (st : Status) (op : BitVec 8) : Status :=
  { st with lastop := op, done := false, err := false, errcode := 0, result := false }

/-- Flags of the success epilogue: ERRCODE, ERR <- 0; DONE <- 1 (40_control.md R145). -/
def Status.finished (st : Status) : Status :=
  { st with errcode := 0, err := false, done := true }

/-- Flags of the error epilogue: RESULT <- 0; ERRCODE <- code; ERR, DONE <- 1 (40_control.md R146, R141). -/
def Status.failed (st : Status) (e : Err) : Status :=
  { st with result := false, errcode := e.code, err := true, done := true }

/-- A host write dropped because BUSY = 1: OVR <- 1 (20_memory.md R95). -/
def Status.overrun (st : Status) : Status := { st with ovr := true }

/-- A host write of v to STATUS clears DONE if v[1] = 1 and OVR if v[4] = 1 (20_memory.md R91). -/
def Status.acknowledged (st : Status) (v : Word) : Status :=
  { st with done := st.done && !v.getLsbD 1, ovr := st.ovr && !v.getLsbD 4 }

end Sys2Proof.Machine
end

