-- ==== Sys2Proof/Machine/Ops.lean ====
section
/-! DEFINITION. The named operations over memory and registers, the start of a command, its success epilogue and its error epilogue (10_state.md, 40_control.md R140 to R147). -/

namespace Sys2Proof

/-- Number of 32-bit words of a wide register (20_memory.md R87). -/
def Params.wideWords (p : Params) : Nat := p.opw / 32

/-- The cipher commands, whose errors also clear the output (40_control.md R146). -/
def Instr.isCipher : Instr → Bool
  | .encEcb | .decEcb | .encCbc | .decCbc => true
  | .nop | .modmul | .modexp | .gcd | .modinv | .mrtest | .genprime | .keygen => false

end Sys2Proof

namespace Sys2Proof.Machine

/-! ### Memory: the message buffers (10_state.md R47 to R49) -/

/-- Canonical form: offsets strictly rising. An unlisted offset holds no defined value, so no entry equals it. -/
abbrev Memory.wf (m : Memory) : Prop := m.Pairwise (fun c d => c.1 < d.1)

/-- The byte at an offset; none where the byte holds no defined value. -/
def Memory.read (m : Memory) (a : Nat) : Option Byte :=
  match m with
  | [] => none
  | (k, b) :: rest => if k = a then some b else Memory.read rest a

/-- Write one byte, keeping the offsets rising. -/
def Memory.write (m : Memory) (a : Nat) (v : Byte) : Memory :=
  match m with
  | [] => [(a, v)]
  | (k, b) :: rest =>
    if a < k then (a, v) :: (k, b) :: rest
    else if a = k then (a, v) :: rest
    else (k, b) :: Memory.write rest a v

/-- Write a byte string at consecutive offsets. -/
def Memory.writeBytes (m : Memory) (a : Nat) (bs : List Byte) : Memory :=
  match bs with
  | [] => m
  | b :: rest => Memory.writeBytes (Memory.write m a b) (a + 1) rest

/-- The bytes at offsets [lo, hi) become UNSPECIFIED. -/
def Memory.erase (m : Memory) (lo hi : Nat) : Memory :=
  m.filter (fun c => decide (c.1 < lo) || decide (hi ≤ c.1))

/-- Window offset of IN_BUF (10_state.md R47). -/
def inBase : Nat := 0x4000

/-- Window offset of OUT_BUF (10_state.md R47). -/
def outBase : Nat := 0x8000

/-- Size of a buffer's window (20_memory.md R84). -/
def bufWindow : Nat := 0x4000

/-- Window offset of a buffer (10_state.md R47). -/
def BufName.base : BufName → Nat
  | .input => inBase
  | .output => outBase

/-! ### Wide registers (10_state.md R40) -/

/-- The register of a name. -/
def WideFile.get (f : WideFile) : WideName → WideReg
  | .a => f.a
  | .b => f.b
  | .m => f.m
  | .x => f.x
  | .r => f.r
  | .p => f.p
  | .q => f.q
  | .n => f.n
  | .phi => f.phi
  | .e => f.e
  | .d => f.d

/-- The file with one register replaced. -/
def WideFile.set (f : WideFile) (k : WideName) (v : WideReg) : WideFile :=
  match k with
  | .a => { f with a := v }
  | .b => { f with b := v }
  | .m => { f with m := v }
  | .x => { f with x := v }
  | .r => { f with r := v }
  | .p => { f with p := v }
  | .q => { f with q := v }
  | .n => { f with n := v }
  | .phi => { f with phi := v }
  | .e => { f with e := v }
  | .d => { f with d := v }

/-- W[name] as a natural (00_scope.md R18, 10_state.md R41). A register never written since reset reads its
reset value (logs 3, 4). -/
def State.W (s : State) (k : WideName) : Nat := (s.wide.get k).val

/-- W[name] <- v by a command: the whole register is written. The store truncates to OPW bits (00_scope.md
R17: the only truncation is the explicit store); every result fits (log 18). -/
def State.setW (s : State) (k : WideName) (v : Nat) : State :=
  { s with wide := s.wide.set k { val := v % 2 ^ s.params.opw, written := BitVec.allOnes 128 } }

/-- The value v with its 32-bit word i replaced by w (20_memory.md R87). -/
def replaceWord (v i : Nat) (w : Word) : Nat :=
  v / 2 ^ (32 * (i + 1)) * 2 ^ (32 * (i + 1)) + w.toNat * 2 ^ (32 * i) + v % 2 ^ (32 * i)

/-- A host write of word i of a wide register (20_memory.md R87). -/
def State.setWideWord (s : State) (k : WideName) (i : Nat) (w : Word) : State :=
  { s with
    wide := s.wide.set k
      { val := replaceWord (s.wide.get k).val i w
        written := (s.wide.get k).written ||| (1#128 <<< i) } }

/-! ### The command protocol (40_control.md R140 to R147) -/

/-- CTRL.TXT_CHECK as the running command sees it: the value at the CMD write (20_memory.md R97). -/
def State.txtSnapshot (s : State) : Bool :=
  match s.run with
  | some r => r.txtCheck
  | none => s.ctrl.txtCheck

/-- The answers available to the running command: those it has drawn already, then those the port has
given since (60_exceptions.md R318: one stream, used in command order; log 10). -/
def State.stream (s : State) : List Nat :=
  match s.run with
  | some r => r.answers ++ s.entropy
  | none => s.entropy

/-- The flags of a command's start (40_control.md R140). -/
def State.accept (s : State) (i : Instr) : State :=
  { s with status := s.status.started i.opcode }

/-- IDLE -> BUSY(op): the accepted word is held and TXT_CHECK is snapshot (40_control.md R140, 20_memory.md R97). -/
def State.launch (s : State) (i : Instr) (v : Word) : State :=
  { s with
    status := s.status.started i.opcode
    run := some { word := v, txtCheck := s.ctrl.txtCheck, answers := [] }
    drawPending := none }

/-- The success epilogue, after the commit of the destination writes (40_control.md R145). -/
def State.finish (s : State) : State :=
  { s with run := none, drawPending := none, status := s.status.finished }

/-- A cipher command's output after an error: OUT_LEN 0 and every OutBuf byte UNSPECIFIED (45_cipher.md R257). -/
def State.dropOutput (s : State) : State :=
  { s with outLen := 0, mem := Memory.erase s.mem outBase (outBase + bufWindow) }

/-- TAKING AN ERROR (40_control.md R146, 00_scope.md R22): staged writes are discarded, a cipher command's output is
dropped, the error is recorded in STATUS and the state machine returns to IDLE. -/
def State.raise (s : State) (i : Instr) (e : Err) : State :=
  let t := if i.isCipher then s.dropOutput else s
  { t with run := none, drawPending := none, status := t.status.failed e }

/-- An illegal command word (40_control.md R140, R141): LASTOP holds v[7:0]; nothing but STATUS changes. -/
def State.illegal (s : State) (v : Word) : State :=
  { s with status := (s.status.started (wordOpcode v)).failed .illegalCommand }

/-- The host's acknowledgement, the only return from a completion (60_exceptions.md R315): W1C on STATUS. -/
def State.acknowledge (s : State) (v : Word) : State := { s with status := s.status.acknowledged v }

/-- The core waits for the entropy port (10_state.md R57): BUSY stays 1, the request is pending, and the answers
drawn so far stay with the command (log 10). -/
def State.waitFor (s : State) (i : Instr) (req : DrawReq) : State :=
  { s with
    run := some { word := encode i, txtCheck := s.txtSnapshot, answers := s.stream }
    entropy := []
    drawPending := some req }

/-- The answers left after a command's draws (60_exceptions.md R318). -/
def State.withEntropy (s : State) (rest : List Nat) : State := { s with entropy := rest }

/-- End a command that draws nothing: raise its error, or commit its result and finish. -/
def State.settle {α : Type} (s : State) (i : Instr) (res : Except Err α) (commit : α → State → State) :
    Host.Outcome State Fault Refusal :=
  match res with
  | .error e => .next (s.raise i e)
  | .ok a => .next (commit a s).finish

/-- End a command that draws entropy, or leave it waiting for the port. -/
def State.settleDrawn {α : Type} (s : State) (i : Instr) (res : Drawn α) (commit : α → State → State) :
    Host.Outcome State Fault Refusal :=
  match res with
  | .err e rest => .next ((s.withEntropy rest).raise i e)
  | .ok a rest => .next (commit a (s.withEntropy rest)).finish
  | .waits req => .next (s.waitFor i req)

/-! ### Reset (70_reset_and_hazards.md R340, R341) -/

/-- Asserting `rst`: the reset table, with the environment's own plans (`inputs`, `entropy`, `free`) kept; a
running command is aborted and its pending draw withdrawn. -/
def State.assertReset (s : State) : State :=
  { State.resetWith s.params with
    rst := true
    inputs := s.inputs
    entropy := s.entropy
    free := s.free }

/-- Releasing `rst`. -/
def State.releaseReset (s : State) : State := { s with rst := false }

end Sys2Proof.Machine
end

