-- ==== Sys2Proof/Machine/Operands.lean ====
section
/-! DEFINITION. Every operand form the spec gives a command: naturals, byte strings as big-endian integers, the message in IN_BUF, the output in OUT_BUF (00_scope.md R17, R20; 30_encoding.md R122; 10_state.md R47 to R52). -/

namespace Sys2Proof.Machine

/-- bitlen(v): the least L with v < 2^L (00_scope.md R17). -/
def bitlen (v : Nat) : Nat := if v = 0 then 0 else Nat.log2 v + 1

/-- be_int(s): big-endian value of a byte string (00_scope.md R20). -/
def beInt (s : List Byte) : Nat := s.foldl (fun acc b => acc * 256 + b.toNat) 0

/-- be_bytes(v, k): the k-byte big-endian string of v (00_scope.md R20), most significant byte first. -/
def beBytes (v : Nat) : Nat → List Byte
  | 0 => []
  | k + 1 => BitVec.ofNat 8 (v / 256 ^ k) :: beBytes v k

/-- last(s, k): the last k bytes of s (00_scope.md R20). -/
def lastBytes (s : List Byte) (k : Nat) : List Byte := s.drop (s.length - k)

/-- MSG_LEN.LEN as an unsigned integer (30_encoding.md R122). -/
def State.inputLen (s : State) : Nat := s.msgLen.toNat

/-- The k bytes at consecutive offsets from a; a byte with no defined value reads as a free value (log 6). -/
def Memory.bytes (m : Memory) (free a : Nat) : Nat → List Byte
  | 0 => []
  | k + 1 => (Memory.read m a).getD (Config.freeByte free) :: Memory.bytes m (free + 1) (a + 1) k

/-- InBuf[0..MSG_LEN) (10_state.md R47). Commands read it below BUF_BYTES only (20_memory.md R105): every cipher
command checks MSG_LEN against BUF_BYTES first (45_cipher.md R258). -/
def State.input (s : State) : List Byte :=
  Memory.bytes s.mem s.free inBase (min s.inputLen s.params.bufBytes)

/-- The free values the read of InBuf may have used are not used again (log 8). -/
def State.useInput (s : State) : State :=
  { s with free := s.free + min s.inputLen s.params.bufBytes }

/-- OutBuf[0..len(out)) <- out; OUT_LEN <- len(out); the bytes beyond are UNSPECIFIED (45_cipher.md R271). -/
def State.setOutput (s : State) (out : List Byte) : State :=
  { s with
    outLen := BitVec.ofNat 32 out.length
    mem := Memory.writeBytes (Memory.erase s.mem outBase (outBase + bufWindow)) outBase out }

/-- BLOCK_SIZE <- bs (10_state.md R52). -/
def State.setBlockSize (s : State) (bs : Nat) : State := { s with blockSize := BitVec.ofNat 32 bs }

end Sys2Proof.Machine
end

