-- ==== Sys2Proof/Machine/ModArith.lean ====
section
/-! DEFINITION. The modular multiplier and the modular exponentiation engine: MODMUL, MODEXP (41_modarith.md). -/

namespace Sys2Proof.Machine

/-- mulmod(a, b, m): the product at full width, then reduced (41_modarith.md R161). -/
def mulmod (a b m : Nat) : Nat := a * b % m

/-- The loop of R164, one exponent bit a turn, least significant first. The first argument bounds the turns. -/
def modexpLoop (m : Nat) : Nat → Nat → Nat → Nat → Nat
  | 0, result, _, _ => result
  | fuel + 1, result, base, e =>
    if e = 0 then result
    else
      modexpLoop m fuel (if e % 2 = 1 then mulmod result base m else result) (mulmod base base m) (e / 2)

/-- modexp(b, x, m) by binary square-and-multiply (41_modarith.md R164, R165). An exponent x needs at most x turns. -/
def modexp (b x m : Nat) : Nat := modexpLoop m x (1 % m) (b % m) x

/-- MODMUL's result or error (41_modarith.md R160). -/
def modmulResult (s : State) : Except Err Nat :=
  if s.W .m = 0 then .error .badOperand else .ok (mulmod (s.W .a) (s.W .b) (s.W .m))

/-- MODMUL (R160): R <- (A·B) mod M. -/
def execModmul (s : State) : Host.Outcome State Fault Refusal :=
  (s.accept .modmul).settle .modmul (modmulResult s) (fun v t => t.setW .r v)

/-- MODEXP's result or error (41_modarith.md R163). -/
def modexpResult (s : State) : Except Err Nat :=
  if s.W .m = 0 then .error .badOperand else .ok (modexp (s.W .a) (s.W .x) (s.W .m))

/-- MODEXP (R163): R <- A^X mod M. -/
def execModexp (s : State) : Host.Outcome State Fault Refusal :=
  (s.accept .modexp).settle .modexp (modexpResult s) (fun v t => t.setW .r v)

end Sys2Proof.Machine
end

