-- ==== Sys2Proof/Machine/Cipher.lean ====
section
/-! DEFINITION. The RSA block cipher engine: ENC_ECB, DEC_ECB, ENC_CBC, DEC_CBC (45_cipher.md). -/

namespace Sys2Proof.Machine

/-! ### Block size, padding, text (45_cipher.md R250, R254 to R256) -/

/-- bs = (bitlen(N) − 1) div 8; 0 when bitlen(N) < 9 (45_cipher.md R250, 10_state.md R52). -/
def blockSizeOf (n : Nat) : Nat := if bitlen n < 9 then 0 else (bitlen n - 1) / 8

/-- pad_size (45_cipher.md R254): from 1 to bs. -/
def padSize (len bs : Nat) : Nat := bs - len % bs

/-- pad(msg, bs) (45_cipher.md R254). -/
def pad (msg : List Byte) (bs : Nat) : List Byte :=
  msg ++ List.replicate (padSize msg.length bs) (BitVec.ofNat 8 (padSize msg.length bs))

/-- unpad(s): only the source's two checks and the empty case (45_cipher.md R255). -/
def unpad (s : List Byte) : Except Err (List Byte) :=
  match s.getLast? with
  | none => .error .invalidPadding
  | some b =>
    if b.toNat = 0 ∨ s.length < b.toNat then .error .invalidPadding
    else .ok (s.take (s.length - b.toNat))

/-- R256's table: for a first byte, the ranges of the bytes that must follow; none where no sequence starts so. -/
def utf8Lead (b : Byte) : Option (List (Nat × Nat)) :=
  let n := b.toNat
  if n ≤ 0x7F then some []
  else if n < 0xC2 then none
  else if n ≤ 0xDF then some [(0x80, 0xBF)]
  else if n = 0xE0 then some [(0xA0, 0xBF), (0x80, 0xBF)]
  else if n ≤ 0xEC then some [(0x80, 0xBF), (0x80, 0xBF)]
  else if n = 0xED then some [(0x80, 0x9F), (0x80, 0xBF)]
  else if n ≤ 0xEF then some [(0x80, 0xBF), (0x80, 0xBF)]
  else if n = 0xF0 then some [(0x90, 0xBF), (0x80, 0xBF), (0x80, 0xBF)]
  else if n ≤ 0xF3 then some [(0x80, 0xBF), (0x80, 0xBF), (0x80, 0xBF)]
  else if n = 0xF4 then some [(0x80, 0x8F), (0x80, 0xBF), (0x80, 0xBF)]
  else none

/-- Scan a byte string with the ranges still owed to the current sequence. -/
def utf8Scan (owed : List (Nat × Nat)) (s : List Byte) : Bool :=
  match s with
  | [] => owed.isEmpty
  | b :: rest =>
    match owed with
    | [] =>
      match utf8Lead b with
      | some ranges => utf8Scan ranges rest
      | none => false
    | (lo, hi) :: more => decide (lo ≤ b.toNat) && decide (b.toNat ≤ hi) && utf8Scan more rest

/-- Well-formed UTF-8 (45_cipher.md R256); the empty string is. -/
def utf8WellFormed (s : List Byte) : Bool := utf8Scan [] s

/-- The text check of the decrypt commands (45_cipher.md R256). -/
def checkText (txt : Bool) (msg : List Byte) : Except Err (List Byte) :=
  if txt && !utf8WellFormed msg then .error .decoding else .ok msg

/-- unpad, then the text check: how both decrypt commands end (45_cipher.md R272, R276). -/
def finishText (txt : Bool) (padded : List Byte) : Except Err (List Byte) :=
  match unpad padded with
  | .error e => .error e
  | .ok msg => checkText txt msg

/-! ### Blocks (45_cipher.md R251, R252, R259, R263) -/

/-- Encrypt one value into its serialized block of bs+1 bytes (45_cipher.md R252, R263). -/
def encryptBlock (n e bs x : Nat) : Except Err (List Byte) :=
  if n ≤ x then .error .blockOverflow else .ok (beBytes (modexp x e n) (bs + 1))

/-- Decrypt one serialized block to a value below 2^(8·bs) (45_cipher.md R273, R277 check 4). -/
def decryptBlock (n d bs : Nat) (cb : List Byte) : Except Err Nat :=
  if n ≤ beInt cb then .error .blockOverflow
  else if 2 ^ (8 * bs) ≤ modexp (beInt cb) d n then .error .decoding
  else .ok (modexp (beInt cb) d n)

/-- mask(prev): the low-order bs bytes of the previous step's bytes (45_cipher.md R259). -/
def mask (bs : Nat) (prev : List Byte) : Nat := beInt (lastBytes prev bs)

/-- Put a block's bytes before the rest of the output, or end with the rest's error. -/
def prepend (out : List Byte) (rest : Except Err (List Byte)) : Except Err (List Byte) :=
  match rest with
  | .error e => .error e
  | .ok more => .ok (out ++ more)

/-- ENC_ECB's loop over nb blocks (45_cipher.md R270). -/
def encEcbBlocks (n e bs : Nat) : Nat → List Byte → Except Err (List Byte)
  | 0, _ => .ok []
  | nb + 1, pm =>
    match encryptBlock n e bs (beInt (pm.take bs)) with
    | .error err => .error err
    | .ok cb => prepend cb (encEcbBlocks n e bs nb (pm.drop bs))

/-- ENC_CBC's loop over nb blocks; prev is iv or the previous serialized block (45_cipher.md R274, R260). -/
def encCbcBlocks (n e bs : Nat) : Nat → List Byte → List Byte → Except Err (List Byte)
  | 0, _, _ => .ok []
  | nb + 1, prev, pm =>
    match encryptBlock n e bs (beInt (pm.take bs) ^^^ mask bs prev) with
    | .error err => .error err
    | .ok cb => prepend cb (encCbcBlocks n e bs nb cb (pm.drop bs))

/-- DEC_ECB's loop over nb blocks of bs+1 bytes (45_cipher.md R272). -/
def decEcbBlocks (n d bs : Nat) : Nat → List Byte → Except Err (List Byte)
  | 0, _ => .ok []
  | nb + 1, s =>
    match decryptBlock n d bs (s.take (bs + 1)) with
    | .error err => .error err
    | .ok y => prepend (beBytes y bs) (decEcbBlocks n d bs nb (s.drop (bs + 1)))

/-- DEC_CBC's loop over nb blocks of bs+1 bytes (45_cipher.md R276). -/
def decCbcBlocks (n d bs : Nat) : Nat → List Byte → List Byte → Except Err (List Byte)
  | 0, _, _ => .ok []
  | nb + 1, prev, s =>
    match decryptBlock n d bs (s.take (bs + 1)) with
    | .error err => .error err
    | .ok y =>
      prepend (beBytes (y ^^^ mask bs prev) bs)
        (decCbcBlocks n d bs nb (s.take (bs + 1)) (s.drop (bs + 1)))

/-! ### Length checks (45_cipher.md R258) -/

/-- Number of blocks of a padded message of len bytes (45_cipher.md R271, R275). -/
def blockCount (len bs : Nat) : Nat := len / bs + 1

/-- ENC_ECB's output length (45_cipher.md R271). -/
def ecbOutLen (len bs : Nat) : Nat := blockCount len bs * (bs + 1)

/-- ENC_CBC's output length (45_cipher.md R275). -/
def cbcOutLen (len bs : Nat) : Nat := bs + blockCount len bs * (bs + 1)

/-- The encrypt commands' checks before any block, in order: block size (R250), message length, pad byte, output
length (R258). none when all pass. -/
def encryptError (buf n len outLen : Nat) : Option Err :=
  if bitlen n < 9 then some .badOperand
  else if buf < len then some .bufferOverflow
  else if 255 < padSize len (blockSizeOf n) then some .badOperand
  else if buf < outLen then some .bufferOverflow
  else none

/-- DEC_ECB's checks 1 to 3 of R273. -/
def decEcbError (buf n len : Nat) : Option Err :=
  if bitlen n < 9 then some .badOperand
  else if buf < len then some .bufferOverflow
  else if len % (blockSizeOf n + 1) ≠ 0 then some .decoding
  else none

/-- DEC_CBC's checks 1 to 3 of R277. -/
def decCbcError (buf n len : Nat) : Option Err :=
  if bitlen n < 9 then some .badOperand
  else if buf < len then some .bufferOverflow
  else if len < blockSizeOf n ∨ (len - blockSizeOf n) % (blockSizeOf n + 1) ≠ 0 then some .decoding
  else none

/-! ### The four commands -/

/-- What every cipher command does first: the start flags and BLOCK_SIZE, written even if the command fails later
(45_cipher.md R250). -/
def State.startCipher (s : State) (i : Instr) : State :=
  ((s.accept i).setBlockSize (blockSizeOf (s.W .n))).useInput

/-- ENC_ECB's output or error (45_cipher.md R270). -/
def encEcbResult (s : State) : Except Err (List Byte) :=
  let bs := blockSizeOf (s.W .n)
  match encryptError s.params.bufBytes (s.W .n) s.inputLen (ecbOutLen s.inputLen bs) with
  | some e => .error e
  | none => encEcbBlocks (s.W .n) (s.W .e) bs (blockCount s.inputLen bs) (pad s.input bs)

/-- ENC_ECB (R270). -/
def execEncEcb (s : State) : Host.Outcome State Fault Refusal :=
  (s.startCipher .encEcb).settle .encEcb (encEcbResult s) (fun out t => t.setOutput out)

/-- DEC_ECB's output or error, in the check order of R273 (45_cipher.md R272). -/
def decEcbResult (s : State) : Except Err (List Byte) :=
  let bs := blockSizeOf (s.W .n)
  match decEcbError s.params.bufBytes (s.W .n) s.inputLen with
  | some e => .error e
  | none =>
    match decEcbBlocks (s.W .n) (s.W .d) bs (s.inputLen / (bs + 1)) s.input with
    | .error e => .error e
    | .ok out => finishText s.txtSnapshot out

/-- DEC_ECB (R272). -/
def execDecEcb (s : State) : Host.Outcome State Fault Refusal :=
  (s.startCipher .decEcb).settle .decEcb (decEcbResult s) (fun out t => t.setOutput out)

/-- ENC_CBC's output for an iv (45_cipher.md R274): iv, then the serialized blocks. -/
def encCbcOutput (n e bs len : Nat) (input iv : List Byte) : Except Err (List Byte) :=
  prepend iv (encCbcBlocks n e bs (blockCount len bs) iv (pad input bs))

/-- An error or a value with the answers left over. -/
def Drawn.ofExcept {α : Type} (r : Except Err α) (rest : List Nat) : Drawn α :=
  match r with
  | .error e => .err e rest
  | .ok a => .ok a rest

/-- ENC_CBC's output or error; iv is drawn after the checks and before the first block (45_cipher.md R261, R274). -/
def encCbcResult (s : State) : Drawn (List Byte) :=
  let bs := blockSizeOf (s.W .n)
  match encryptError s.params.bufBytes (s.W .n) s.inputLen (cbcOutLen s.inputLen bs) with
  | some e => .err e s.stream
  | none =>
    (draw (.bytes bs) s.stream).andThen fun iv rest =>
      Drawn.ofExcept (encCbcOutput (s.W .n) (s.W .e) bs s.inputLen s.input (beBytes iv bs)) rest

/-- ENC_CBC (R274). -/
def execEncCbc (s : State) : Host.Outcome State Fault Refusal :=
  (s.startCipher .encCbc).settleDrawn .encCbc (encCbcResult s) (fun out t => t.setOutput out)

/-- DEC_CBC's output or error, in the check order of R277 (45_cipher.md R276). -/
def decCbcResult (s : State) : Except Err (List Byte) :=
  let bs := blockSizeOf (s.W .n)
  match decCbcError s.params.bufBytes (s.W .n) s.inputLen with
  | some e => .error e
  | none =>
    match decCbcBlocks (s.W .n) (s.W .d) bs ((s.inputLen - bs) / (bs + 1)) (s.input.take bs)
        (s.input.drop bs) with
    | .error e => .error e
    | .ok out => finishText s.txtSnapshot out

/-- DEC_CBC (R276). -/
def execDecCbc (s : State) : Host.Outcome State Fault Refusal :=
  (s.startCipher .decCbc).settle .decCbc (decCbcResult s) (fun out t => t.setOutput out)

end Sys2Proof.Machine
end

