-- ==== Sys2Proof/Machine/Control.lean ====
section
/-! DEFINITION. NOP (40_control.md R150). -/

namespace Sys2Proof.Machine

/-- NOP (R150): completes at once; DONE <- 1, ERR, ERRCODE, RESULT <- 0, LASTOP <- 0x00; nothing else changes. -/
def execNop (s : State) : Host.Outcome State Fault Refusal :=
  .next (s.accept .nop).finish

end Sys2Proof.Machine
end

