-- ==== Sys2Proof/Machine/Euclid.lean ====
section
/-! DEFINITION. The extended Euclidean unit: GCD, MODINV (42_euclid.md). -/

namespace Sys2Proof.Machine

/-- The loop of R181 with its signed coefficients. The first argument bounds the turns; the loop ends when r1 = 0. -/
def egcdLoop : Nat → Nat → Nat → Int → Int → Nat × Int
  | 0, r0, _, t0, _ => (r0, t0)
  | fuel + 1, r0, r1, t0, t1 =>
    if r1 = 0 then (r0, t0)
    else
      let q := r0 / r1
      egcdLoop fuel r1 (r0 - q * r1) t1 (t0 - (q : Int) * t1)

/-- egcd(a, m): g = gcd(a, m) and a coefficient t with a·t ≡ g (mod m) for m ≥ 1 (42_euclid.md R181). The second
remainder falls at every turn, so it bounds the turns. -/
def egcd (a m : Nat) : Nat × Int :=
  if m = 0 then egcdLoop 0 a 0 0 1 else egcdLoop (a % m) m (a % m) 0 1

/-- t mod m in [0, m) for a signed t (42_euclid.md R183, R184). -/
def normalizeMod (t : Int) (m : Nat) : Nat := (t % (m : Int)).toNat

/-- modinv(a, m) for m ≥ 1 and gcd(a, m) = 1 (00_scope.md R23, 42_euclid.md R184). -/
def modinv (a m : Nat) : Nat := normalizeMod (egcd a m).2 m

/-- GCD's result (42_euclid.md R180); there is no error. -/
def gcdResult (s : State) : Except Err Nat := .ok (egcd (s.W .a) (s.W .b)).1

/-- GCD (R180): R <- gcd(A, B). -/
def execGcd (s : State) : Host.Outcome State Fault Refusal :=
  (s.accept .gcd).settle .gcd (gcdResult s) (fun v t => t.setW .r v)

/-- MODINV's result or error, in the check order of R183 and R185. -/
def modinvResult (s : State) : Except Err Nat :=
  if s.W .m = 0 then .error .badOperand
  else if (egcd (s.W .a) (s.W .m)).1 ≠ 1 then .error .noInverse
  else .ok (modinv (s.W .a) (s.W .m))

/-- MODINV (R183): R <- A^-1 mod M, in [0, M). -/
def execModinv (s : State) : Host.Outcome State Fault Refusal :=
  (s.accept .modinv).settle .modinv (modinvResult s) (fun v t => t.setW .r v)

end Sys2Proof.Machine
end

