-- ==== Sys2Proof/Machine/Prime.lean ====
section
/-! DEFINITION. The Miller-Rabin test core and the candidate sampler: MRTEST, GENPRIME (43_prime.md). -/

namespace Sys2Proof.Machine

/-- R202's loop "while s mod 2 = 0": returns (r, s). The first argument bounds the turns. -/
def splitTwos : Nat → Nat → Nat → Nat × Nat
  | 0, r, s => (r, s)
  | fuel + 1, r, s => if s % 2 = 0 then splitTwos fuel (r + 1) (s / 2) else (r, s)

/-- n − 1 = 2^r · s with s odd (43_prime.md R202). -/
def decompose (n : Nat) : Nat × Nat := splitTwos (n - 1) 0 (n - 1)

/-- Square x up to j times mod n; true as soon as n − 1 is reached ("succeed early", 43_prime.md R202). -/
def squaresReach (n : Nat) : Nat → Nat → Bool
  | 0, _ => false
  | j + 1, x => if mulmod x x n = n - 1 then true else squaresReach n j (mulmod x x n)

/-- One round for base a: true if a does not prove n composite (43_prime.md R202). -/
def roundPasses (n r s a : Nat) : Bool :=
  let x := modexp a s n
  if x = 1 ∨ x = n - 1 then true else squaresReach n (r - 1) x

/-- k rounds, each with a fresh base from [2, n − 2]; the first that proves n composite ends the test (43_prime.md R202,
R205). true is PRIME, false COMPOSITE. -/
def mrRounds (n r s : Nat) : Nat → List Nat → Drawn Bool
  | 0, ans => .ok true ans
  | k + 1, ans =>
    (draw (.range 2 (n - 2)) ans).andThen fun a rest =>
      if roundPasses n r s a then mrRounds n r s k rest else .ok false rest

/-- mr(n, k) (43_prime.md R202, R204): n < 2 COMPOSITE, 2 and 3 PRIME, even n ≥ 4 COMPOSITE without a draw. -/
def mr (n k : Nat) (ans : List Nat) : Drawn Bool :=
  if n < 2 then .ok false ans
  else if n = 2 ∨ n = 3 then .ok true ans
  else if n % 2 = 0 then .ok false ans
  else mrRounds n (decompose n).1 (decompose n).2 k ans

/-- MRTEST's verdict or error (43_prime.md R200, R201). -/
def mrtestResult (s : State) : Drawn Bool :=
  if s.mrRounds = 0 then .err .badOperand s.stream else mr (s.W .a) s.mrRounds.toNat s.stream

/-- The verdict in W[R] and in STATUS.RESULT (43_prime.md R203). -/
def commitVerdict (v : Bool) (s : State) : State :=
  let t := s.setW .r (if v then 1 else 0)
  { t with status := { t.status with result := v } }

/-- MRTEST (R201): R, RESULT <- verdict of Miller-Rabin on A with k = MR_ROUNDS rounds. -/
def execMrtest (s : State) : Host.Outcome State Fault Refusal :=
  (s.accept .mrtest).settleDrawn .mrtest (mrtestResult s) commitVerdict

/-- The candidate of a draw: bits bits−1 and 0 forced to 1 (43_prime.md R211, R212). -/
def candidate (bits v : Nat) : Nat := v ||| 2 ^ (bits - 1) ||| 1

/-- genprime(bits, k, limit) (43_prime.md R211): at most limit candidates, resampled on a composite (R213). -/
def genprime (bits k : Nat) : Nat → List Nat → Drawn Nat
  | 0, ans => .err .iterationLimit ans
  | limit + 1, ans =>
    (draw (.bits bits) ans).andThen fun v rest =>
      (mr (candidate bits v) k rest).andThen fun prime rest' =>
        if prime then .ok (candidate bits v) rest' else genprime bits k limit rest'

/-- GENPRIME's result or error, in the check order of R210. -/
def genprimeResult (s : State) : Drawn Nat :=
  let bits := s.primeBits.toNat
  if bits < 2 ∨ s.params.opw < bits then .err .badOperand s.stream
  else if s.mrRounds = 0 then .err .badOperand s.stream
  else genprime bits s.mrRounds.toNat s.iterLimit.toNat s.stream

/-- GENPRIME (R210): R <- a probable prime of exactly PRIME_BITS bits. -/
def execGenprime (s : State) : Host.Outcome State Fault Refusal :=
  (s.accept .genprime).settleDrawn .genprime (genprimeResult s) (fun v t => t.setW .r v)

end Sys2Proof.Machine
end

