-- ==== Sys2Proof/Machine/KeyGen.lean ====
section
/-! DEFINITION. The RSA key generator: KEYGEN (44_keygen.md). -/

namespace Sys2Proof.Machine

/-- The key a successful KEYGEN writes (44_keygen.md R230). -/
structure Key where
  p : Nat
  q : Nat
  n : Nat
  phi : Nat
  e : Nat
  d : Nat
  deriving DecidableEq, Repr

/-- R232's loop: while q = p, re-draw q, at most the given number of times. -/
def redrawQ (bits k limit p : Nat) : Nat → Nat → List Nat → Drawn Nat
  | 0, q, ans => if q = p then .err .degenerateKey ans else .ok q ans
  | retry + 1, q, ans =>
    if q = p then
      (genprime bits k limit ans).andThen fun q' rest => redrawQ bits k limit p retry q' rest
    else .ok q ans

/-- R233's loop: draw e from [2, phi − 1] until gcd(e, phi) = 1, at most the given number of times. -/
def chooseE (phi : Nat) : Nat → List Nat → Drawn Nat
  | 0, ans => .err .degenerateKey ans
  | tries + 1, ans =>
    (draw (.range 2 (phi - 1)) ans).andThen fun e rest =>
      if (egcd e phi).1 = 1 then .ok e rest else chooseE phi tries rest

/-- The key of p, q and e (44_keygen.md R230). -/
def Key.of (p q e : Nat) : Key :=
  { p := p, q := q, n := p * q, phi := (p - 1) * (q - 1), e := e, d := modinv e ((p - 1) * (q - 1)) }

/-- The draws of KEYGEN after its checks (44_keygen.md R230). -/
def keygen (bits k limit retry : Nat) (ans : List Nat) : Drawn Key :=
  (genprime bits k limit ans).andThen fun p rest =>
    (genprime bits k limit rest).andThen fun q0 rest =>
      (redrawQ bits k limit p retry q0 rest).andThen fun q rest =>
        (chooseE ((p - 1) * (q - 1)) retry rest).andThen fun e rest => .ok (Key.of p q e) rest

/-- KEYGEN's key or error, in the check order of R230. -/
def keygenResult (s : State) : Drawn Key :=
  let bits := s.primeBits.toNat
  if bits < 2 ∨ s.params.opw / 2 < bits then .err .badOperand s.stream
  else if s.mrRounds = 0 then .err .badOperand s.stream
  else keygen bits s.mrRounds.toNat s.iterLimit.toNat s.retryLimit.toNat s.stream

/-- The six key registers, all together (44_keygen.md R230). -/
def commitKey (k : Key) (s : State) : State :=
  (((((s.setW .p k.p).setW .q k.q).setW .n k.n).setW .phi k.phi).setW .e k.e).setW .d k.d

/-- KEYGEN (R230): P, Q, N, PHI, E, D <- an RSA key pair. -/
def execKeygen (s : State) : Host.Outcome State Fault Refusal :=
  (s.accept .keygen).settleDrawn .keygen (keygenResult s) commitKey

end Sys2Proof.Machine
end

