-- ==== Sys2Proof/Machine/Bus.lean ====
section
/-! DEFINITION. The bus target port: the address map, MemRead, MemWrite and the CMD write that starts a command (20_memory.md, 10_state.md R30, R31, 40_control.md R140, R141). -/

namespace Sys2Proof.Machine

/-- A location of the window that is implemented (20_memory.md R84). -/
inductive Loc where
  | ctrl (r : CtrlReg)
  | wide (k : WideName) (word : Nat)
  | buf (k : BufName) (byte : Nat)
  deriving DecidableEq, Repr

/-- The control register at an offset (10_state.md R30). -/
def ctrlRegAt (off : Nat) : Option CtrlReg :=
  match off with
  | 0x000 => some .id
  | 0x004 => some .cmd
  | 0x008 => some .status
  | 0x00C => some .ctrl
  | 0x010 => some .mrRounds
  | 0x014 => some .primeBits
  | 0x018 => some .iterLimit
  | 0x01C => some .retryLimit
  | 0x020 => some .msgLen
  | 0x024 => some .outLen
  | 0x028 => some .blockSize
  | 0x02C => some .paramOpw
  | 0x030 => some .paramBuf
  | _ => none

/-- The wide register whose window is the i-th of 0x200 bytes from 0x0400 (10_state.md R40, 20_memory.md R84). -/
def wideAt (i : Nat) : Option WideName :=
  match i with
  | 0 => some .a
  | 1 => some .b
  | 2 => some .m
  | 3 => some .x
  | 4 => some .r
  | 5 => some .p
  | 6 => some .q
  | 7 => some .n
  | 8 => some .phi
  | 9 => some .e
  | 10 => some .d
  | _ => none

/-- First offset of the wide register windows (20_memory.md R84). -/
def wideBase : Nat := 0x0400

/-- Bytes of one wide register window (20_memory.md R84). -/
def wideWindow : Nat := 0x0200

/-- The implemented location of an aligned offset; none where it is unimplemented (20_memory.md R84, R85). -/
def locate (p : Params) (off : Nat) : Option Loc :=
  if off < wideBase then (ctrlRegAt off).map .ctrl
  else if off < inBase then
    match wideAt ((off - wideBase) / wideWindow) with
    | some k =>
      let word := (off - wideBase) % wideWindow / 4
      if word < p.wideWords then some (.wide k word) else none
    | none => none
  else if off < outBase then
    if off - inBase < p.bufBytes then some (.buf .input (off - inBase)) else none
  else if off < outBase + bufWindow then
    if off - outBase < p.bufBytes then some (.buf .output (off - outBase)) else none
  else none

/-- Offset of a bus address; none outside [BASE, BASE + 0x10000) (20_memory.md R80, R81). -/
def offsetOf (p : Params) (addr : Nat) : Option Nat :=
  if p.base ≤ addr ∧ addr < p.base + 0x10000 then some (addr - p.base) else none

/-- A transfer the port accepts: 32 bits at a multiple of 4 (20_memory.md R86). -/
def transferOk (size off : Nat) : Bool := size == 32 && off % 4 == 0

/-- The RO registers (20_memory.md R91). -/
def CtrlReg.readOnly : CtrlReg → Bool
  | .id | .outLen | .blockSize | .paramOpw | .paramBuf => true
  | .cmd | .status | .ctrl | .mrRounds | .primeBits | .iterLimit | .retryLimit | .msgLen => false

/-! ### Reads (20_memory.md R90, R96) -/

/-- The 32-bit view of a control register (10_state.md R31 to R39, R50 to R53). -/
def State.ctrlWord (s : State) : CtrlReg → Word
  | .id => idWord
  | .cmd => 0
  | .status => s.status.word s.busy
  | .ctrl => s.ctrl.word
  | .mrRounds => s.mrRounds.setWidth 32
  | .primeBits => s.primeBits.setWidth 32
  | .iterLimit => s.iterLimit
  | .retryLimit => s.retryLimit
  | .msgLen => s.msgLen
  | .outLen => s.outLen
  | .blockSize => s.blockSize
  | .paramOpw => BitVec.ofNat 32 s.params.opw
  | .paramBuf => BitVec.ofNat 32 s.params.bufBytes

/-- Word i of a wide register, where one has been written since reset (20_memory.md R87). -/
def WideReg.word (v : WideReg) (i : Nat) : Option Word :=
  if v.written.getLsbD i then some (BitVec.ofNat 32 (v.val / 2 ^ (32 * i))) else none

/-- The bus word of four buffer bytes, lowest address in the lowest bits (20_memory.md R88). -/
def packWord (b0 b1 b2 b3 : Byte) : Word := b3 ++ b2 ++ b1 ++ b0

/-- Byte k of a bus word (20_memory.md R88). -/
def wordByte (v : Word) (k : Nat) : Byte := v.extractLsb' (8 * k) 8

/-- A buffer byte as the host reads it; a free value where it holds no defined value (93 U4, U7, U8; log 5). -/
def State.bufByte (s : State) (k : BufName) (j skip : Nat) : Byte :=
  (Memory.read s.mem (k.base + j)).getD (Config.freeByte (s.free + skip))

/-- The data of an OK read (20_memory.md R90, R96): while BUSY a wide or buffer word, OUT_LEN and BLOCK_SIZE are
UNSPECIFIED (93 U6); a wide word never written is UNSPECIFIED (93 U2). -/
def State.readData (s : State) (l : Loc) : Word :=
  match l with
  | .ctrl r =>
    if s.busy && (r == .outLen || r == .blockSize) then Config.freeWord s.free else s.ctrlWord r
  | .wide k i =>
    if s.busy then Config.freeWord s.free else ((s.wide.get k).word i).getD (Config.freeWord s.free)
  | .buf k j =>
    if s.busy then Config.freeWord s.free
    else packWord (s.bufByte k j 0) (s.bufByte k (j + 1) 1) (s.bufByte k (j + 2) 2) (s.bufByte k (j + 3) 3)

/-- The free values one read may have used: four bytes or one word (log 8). -/
def readCost : Nat := 4

/-- Answer a read: the response, and nothing else but the model's counter (20_memory.md R93). -/
def State.respondRead (s : State) (r : Response) : State :=
  { s with response := some r, free := s.free + readCost }

/-- Answer a write. -/
def State.respond (s : State) (r : Response) : State := { s with response := some r }

/-- MemRead(off) of a given size (20_memory.md R90). -/
def State.memRead (s : State) (off size : Nat) : State :=
  if transferOk size off then
    match locate s.params off with
    | some l => s.respondRead (.readOk (s.readData l))
    | none => s.respondRead (.readError (Config.freeWord s.free))
  else s.respondRead (.readError (Config.freeWord s.free))

/-! ### Writes (20_memory.md R91, R95) -/

/-- A CMD write of v while IDLE (40_control.md R140, R141, R150): an illegal word and NOP complete at once; any
other command makes the block BUSY. -/
def State.startCommand (s : State) (v : Word) : Host.Outcome State Fault Refusal :=
  match decode v with
  | .error _ => .next (s.illegal v)
  | .ok .nop => exec .nop s
  | .ok i => .next (s.launch i v)

/-- A host store into a RW control register (10_state.md R31): the implemented fields take the written bits. -/
def State.storeCtrl (s : State) (r : CtrlReg) (v : Word) : State :=
  match r with
  | .ctrl => { s with ctrl := Ctrl.ofWord v }
  | .mrRounds => { s with mrRounds := v.setWidth 16 }
  | .primeBits => { s with primeBits := v.setWidth 16 }
  | .iterLimit => { s with iterLimit := v }
  | .retryLimit => { s with retryLimit := v }
  | .msgLen => { s with msgLen := v }
  | .id | .cmd | .status | .outLen | .blockSize | .paramOpw | .paramBuf => s

/-- A host store of a word into a buffer: four bytes (20_memory.md R88). -/
def State.storeBuf (s : State) (k : BufName) (j : Nat) (v : Word) : State :=
  { s with
    mem := Memory.writeBytes s.mem (k.base + j) [wordByte v 0, wordByte v 1, wordByte v 2, wordByte v 3] }

/-- While BUSY the host may write STATUS and CTRL, and its writes to RO registers are ignored; every other write is
dropped (20_memory.md R95). -/
def Loc.droppedWhenBusy : Loc → Bool
  | .ctrl r => !(r == .status || r == .ctrl || r.readOnly)
  | .wide _ _ => true
  | .buf _ _ => true

/-- An accepted write of v (20_memory.md R91), after the response. -/
def State.storeLoc (s : State) (l : Loc) (v : Word) : Host.Outcome State Fault Refusal :=
  match l with
  | .ctrl .cmd => s.startCommand v
  | .ctrl .status => .next (s.acknowledge v)
  | .ctrl r => .next (s.storeCtrl r v)
  | .wide k i => .next (s.setWideWord k i v)
  | .buf k j => .next (s.storeBuf k j v)

/-- MemWrite(off, v) of a given size (20_memory.md R91), the checks in its order. -/
def State.memWrite (s : State) (off size : Nat) (v : Word) : Host.Outcome State Fault Refusal :=
  if transferOk size off then
    match locate s.params off with
    | some l =>
      if s.busy && l.droppedWhenBusy then
        .next { s.respond .writeOk with status := s.status.overrun }
      else (s.respond .writeOk).storeLoc l v
    | none => .next (s.respond .writeError)
  else .next (s.respond .writeError)

/-- One bus transaction. An address outside the window is not the block's (20_memory.md R81, log 14). While `rst` is
asserted every transaction gets ERROR and changes nothing (70_reset_and_hazards.md R340). -/
def State.transact (s : State) (t : Txn) : Host.Outcome State Fault Refusal :=
  match t with
  | .read addr size =>
    match offsetOf s.params addr with
    | none => .next { s with response := none }
    | some off =>
      if s.rst then .next (s.respondRead (.readError (Config.freeWord s.free)))
      else .next (s.memRead off size)
  | .write addr size v =>
    match offsetOf s.params addr with
    | none => .next { s with response := none }
    | some off => if s.rst then .next (s.respond .writeError) else s.memWrite off size v

end Sys2Proof.Machine
end

