-- ==== Sys2Proof/Machine/Events.lean ====
section
/-! DEFINITION. What one step does: the core's move and the environment's events (00_scope.md R11, 40_control.md R140 to R143, 70_reset_and_hazards.md R340, R341, R352; log 1). -/

namespace Sys2Proof.Machine

/-- The core's move: the running command executes to its end, or until it must wait for the entropy port (40_control.md
R140, R143; log 11). An IDLE core, and one held in reset, does nothing (60_exceptions.md R325). -/
def State.coreMove (s : State) : Host.Outcome State Fault Refusal :=
  if s.rst then .next s
  else
    match s.run with
    | none => .next s
    | some r =>
      match decode r.word with
      | .ok i => exec i s
      | .error _ => .next { s.illegal r.word with run := none, drawPending := none }

/-- One event of the environment. -/
def State.handle (s : State) (e : Event) : Host.Outcome State Fault Refusal :=
  match e with
  | .bus t => s.transact t
  | .rst true => .next s.assertReset
  | .rst false => .next s.releaseReset
  | .core => s.coreMove
  | .entropy v => .next { s with entropy := s.entropy ++ [v] }

/-- One step: the oldest event of `inputs`, or the core's move where the environment has nothing to do (log 1). -/
def State.advance (s : State) : Host.Outcome State Fault Refusal :=
  if s.params.legal then
    match s.inputs with
    | [] => s.coreMove
    | e :: rest => { s with inputs := rest }.handle e
  else .fault .illegalParameters

/-- s with a command word held as the running command's, so that the core's next move runs it (log 12). -/
def State.holdCommand (s : State) (v : Word) : State :=
  { s with
    inputs := []
    rst := false
    run := some { word := v, txtCheck := s.ctrl.txtCheck, answers := [] }
    drawPending := none }

end Sys2Proof.Machine
end

