-- ==== Sys2Proof/Machine/Step.lean ====
section
/-! DEFINITION. The step of the block, and how one command word is placed where the core takes it. -/

namespace Sys2Proof.Machine

/-- One step of the block (Machine/Events.lean). -/
def step (s : State) : Host.Outcome State Fault Refusal := s.advance

/-- s with the command word of nbits bits w (numbered as spec/opcode_table.json numbers them) accepted by the CMD
register, so that the very next step runs it (log 12). -/
def State.withFetchWord (s : State) (nbits w : Nat) : State :=
  s.holdCommand (BitVec.ofNat 32 (w % 2 ^ nbits))

end Sys2Proof.Machine
end

