-- ==== Sys2Proof/Machine/Script.lean ====
section
/-! DEFINITION. The host script notation of the spec, its expansion into bus transactions, and a host that runs a script against the block: the WAIT loop, what a statement yields, and where a run ends (30_encoding.md R126 to R128, 60_exceptions.md R326). -/

namespace Sys2Proof.Machine

/-- Offset of a control register (10_state.md R30). -/
def CtrlReg.offset : CtrlReg → Nat
  | .id => 0x000
  | .cmd => 0x004
  | .status => 0x008
  | .ctrl => 0x00C
  | .mrRounds => 0x010
  | .primeBits => 0x014
  | .iterLimit => 0x018
  | .retryLimit => 0x01C
  | .msgLen => 0x020
  | .outLen => 0x024
  | .blockSize => 0x028
  | .paramOpw => 0x02C
  | .paramBuf => 0x030

/-- Window offset of a wide register (10_state.md R40). -/
def WideName.offset : WideName → Nat
  | .a => 0x0400
  | .b => 0x0600
  | .m => 0x0800
  | .x => 0x0A00
  | .r => 0x0C00
  | .p => 0x0E00
  | .q => 0x1000
  | .n => 0x1200
  | .phi => 0x1400
  | .e => 0x1600
  | .d => 0x1800

/-! ### Statements (30_encoding.md R126, R127) -/

/-- A statement of a host script: the two base statements and the seven pseudo-instructions. -/
inductive Stmt where
  | wr (off : Nat) (v : Word)
  | rd (off : Nat)
  | cmd (i : Instr)
  | wait
  | ldw (k : WideName) (v : Nat)
  | rdw (k : WideName)
  | ldb (k : BufName) (bytes : List Byte)
  | rdb (k : BufName) (len : Nat)
  | clr
  deriving DecidableEq, Repr

/-- The statement stays in the notation's bounds: an offset of the window (20_memory.md R81), v < 2^OPW (R127 `LDW`), a
string no longer than its buffer's window. -/
def Stmt.legal (p : Params) : Stmt → Bool
  | .wr off _ | .rd off => decide (off < 0x10000)
  | .ldw _ v => decide (v < 2 ^ p.opw)
  | .ldb _ bytes => decide (bytes.length ≤ bufWindow)
  | .rdb _ len => decide (len ≤ bufWindow)
  | .cmd _ | .wait | .rdw _ | .clr => true

/-- A 32-bit host write of v at an offset. -/
def writeAt (p : Params) (off : Nat) (v : Word) : Txn := .write (p.base + off) 32 v

/-- A 32-bit host read at an offset. -/
def readAt (p : Params) (off : Nat) : Txn := .read (p.base + off) 32

/-- Byte j of a string, 0 past its end (30_encoding.md R127 `LDB`). -/
def byteOrZero (bytes : List Byte) (j : Nat) : Byte := bytes.getD j 0

/-- Bits [32i+31 : 32i] of v (20_memory.md R87). -/
def wordOf (v i : Nat) : Word := BitVec.ofNat 32 (v / 2 ^ (32 * i))

/-- Word w of a byte string (20_memory.md R88, 30_encoding.md R127 `LDB`). -/
def wordOfBytes (bytes : List Byte) (w : Nat) : Word :=
  packWord (byteOrZero bytes (4 * w)) (byteOrZero bytes (4 * w + 1))
    (byteOrZero bytes (4 * w + 2)) (byteOrZero bytes (4 * w + 3))

/-- ⌈len/4⌉, the words of len bytes (30_encoding.md R127). -/
def wordCount (len : Nat) : Nat := (len + 3) / 4

/-- The transactions a statement expands to, in order (30_encoding.md R126, R127); WAIT's is the one it repeats. -/
def Stmt.txns (p : Params) : Stmt → List Txn
  | .wr off v => [writeAt p off v]
  | .rd off => [readAt p off]
  | .cmd i => [writeAt p CtrlReg.cmd.offset (encode i)]
  | .wait => [readAt p CtrlReg.status.offset]
  | .ldw k v => (List.range p.wideWords).map fun i => writeAt p (k.offset + 4 * i) (wordOf v i)
  | .rdw k => (List.range p.wideWords).map fun i => readAt p (k.offset + 4 * i)
  | .ldb k bytes =>
    (List.range (wordCount bytes.length)).map fun w => writeAt p (k.base + 4 * w) (wordOfBytes bytes w)
  | .rdb k len => (List.range (wordCount len)).map fun w => readAt p (k.base + 4 * w)
  | .clr => [writeAt p CtrlReg.status.offset 0x12]

/-! ### What a statement yields (30_encoding.md R127, 20_memory.md R87, R88) -/

/-- The data of a read's response; an ERROR's are UNSPECIFIED, but there (20_memory.md R90). -/
def Response.data : Response → Option Word
  | .readOk d | .readError d => some d
  | .writeOk | .writeError => none

/-- The data of a transaction's response, if it had one. -/
def dataOf (r : Option Response) : Option Word := r.bind Response.data

/-- The value of a wide register from its words, word 0 least significant: `RDW` (20_memory.md R87). -/
def assembleWords : List Word → Nat
  | [] => 0
  | w :: rest => w.toNat + 2 ^ 32 * assembleWords rest

/-- The bytes of buffer words, lowest bits first: `RDB` (20_memory.md R88). -/
def unpackWords : List Word → List Byte
  | [] => []
  | w :: rest => wordByte w 0 :: wordByte w 1 :: wordByte w 2 :: wordByte w 3 :: unpackWords rest

/-- The value a statement yields to the host. -/
inductive StmtValue where
  /-- a statement that only writes -/
  | none
  /-- `RD`: the data; `WAIT`: the last STATUS word -/
  | word (w : Word)
  /-- `RDW`: the register's value -/
  | number (v : Nat)
  /-- `RDB`: len bytes -/
  | bytes (bs : List Byte)
  deriving DecidableEq, Repr

/-- The value of a read of one word. -/
def StmtValue.ofWords : List Word → StmtValue
  | w :: _ => .word w
  | [] => .none

/-- What a statement yields, from the data its reads returned, in order. -/
def Stmt.value (st : Stmt) (ws : List Word) : StmtValue :=
  match st with
  | .rd _ | .wait => .ofWords ws
  | .rdw _ => .number (assembleWords ws)
  | .rdb _ len => .bytes ((unpackWords ws).take len)
  | .wr _ _ | .cmd _ | .ldw _ _ | .ldb _ _ | .clr => .none

/-- A statement that is done: the response to each of its transactions (the last one's for WAIT), and its value. -/
structure StmtResult where
  responses : List (Option Response)
  value : StmtValue
  deriving DecidableEq, Repr

/-! ### A host running a script (30_encoding.md R127, R128; 60_exceptions.md R326; log 23) -/

/-- A host program in the middle of its run: the block, the statements not yet done with the current one first, the
responses the current one has had, and the results of those done, oldest first. -/
structure HostRun where
  machine : State
  todo : List Stmt
  responses : List (Option Response)
  results : List StmtResult
  deriving DecidableEq, Repr

/-- A script at its start, on a block with no event outstanding. -/
def HostRun.start (s : State) (script : List Stmt) : HostRun :=
  { machine := { s with inputs := [] }, todo := script, responses := [], results := [] }

/-- WAIT's test after a read of STATUS: go on reading unless bit 0 (BUSY) read 0 (30_encoding.md R127). Every other
statement goes on to its next transaction. -/
def Stmt.pollsAgain (st : Stmt) (r : Option Response) : Bool :=
  match st with
  | .wait =>
    match dataOf r with
    | some d => d.getLsbD 0
    | none => true
  | .wr _ _ | .rd _ | .cmd _ | .ldw _ _ | .rdw _ | .ldb _ _ | .rdb _ _ | .clr => false

/-- An event is a bus transaction. -/
def Event.isBus : Event → Bool
  | .bus _ => true
  | .rst _ | .core | .entropy _ => false

/-- A run of transactions given as events has ended: each has its response and the machine is IDLE (60_exceptions.md
R326). What else the environment may do is no statement of the program. -/
def State.runEnded (s : State) : Bool := !s.inputs.any Event.isBus && !s.busy

/-- A script's run has ended: its last statement is done and the machine is IDLE (60_exceptions.md R326). -/
def HostRun.ended (h : HostRun) : Bool := h.todo.isEmpty && h.machine.runEnded

/-- The end state of a script (30_encoding.md R127, 60_exceptions.md R326). -/
def HostRun.endState (h : HostRun) : Option State := if h.ended then some h.machine else none

/-- The current statement has had the responses rs: it is done, with its result. -/
def HostRun.close (h : HostRun) (st : Stmt) (rest : List Stmt) (rs : List (Option Response)) : HostRun :=
  { h with
    todo := rest
    responses := []
    results := h.results ++ [{ responses := rs, value := st.value (rs.filterMap dataOf) }] }

/-- The current statement's transaction has had the response r. -/
def HostRun.answered (h : HostRun) (st : Stmt) (rest : List Stmt) (r : Option Response) : HostRun :=
  if st.pollsAgain r then h
  else if h.responses.length + 1 < (st.txns h.machine.params).length then
    { h with responses := h.responses ++ [r] }
  else h.close st rest (h.responses ++ [r])

/-- One event of the environment happens to the block; k says what it means to the host. -/
def HostRun.after (h : HostRun) (e : Event) (k : HostRun → HostRun) : Host.Outcome HostRun Fault Refusal :=
  match step { h.machine with inputs := [e] } with
  | .next t => .next (k { h with machine := t })
  | .fault f => .fault f
  | .refused r => .refused r

/-- The host's turn: the next transaction of the current statement. A statement without one (an empty string) is done. -/
def HostRun.hostTurn (h : HostRun) : Host.Outcome HostRun Fault Refusal :=
  match h.todo with
  | [] => .next h
  | st :: rest =>
    match (st.txns h.machine.params)[h.responses.length]? with
    | none => .next (h.close st rest h.responses)
    | some t => h.after (.bus t) fun g => g.answered st rest g.machine.response

/-- Whose turn it is: the order of R94 and R352, with any number of turns between two polls (93 U17). -/
inductive Turn where
  /-- the host issues its next transaction -/
  | host
  /-- anything else happens to the block: the core gets to run, the entropy port answers, `rst` changes, another master -/
  | world (e : Event)
  deriving DecidableEq, Repr

/-- One turn of a run. A run that has ended stays as it is, so that its state is the end state. -/
def HostRun.turn (h : HostRun) (t : Turn) : Host.Outcome HostRun Fault Refusal :=
  if h.ended then .next h
  else
    match t with
    | .host => h.hostTurn
    | .world e => h.after e id

/-- A run under a given order of turns. -/
def HostRun.play : List Turn → HostRun → Host.Outcome HostRun Fault Refusal
  | [], h => .next h
  | t :: ts, h =>
    match h.turn t with
    | .next g => HostRun.play ts g
    | .fault f => .fault f
    | .refused r => .refused r

end Sys2Proof.Machine
end

