-- ==== Sys2Proof/Safety.lean ====
section
/-! DEFINITION. What counts as a safe run, in the terms claims use: the inputs a command needs written (70_reset_and_hazards.md R343), the invariants of the state (10_state.md R34, R40, R47), which error a command may report (60_exceptions.md R301), and the words claims use. -/

namespace Sys2Proof

/-- The wide registers a command reads (30_encoding.md R121, 70 R343). -/
def Instr.reads : Instr → List Machine.WideName
  | .nop => []
  | .modmul => [.a, .b, .m]
  | .modexp => [.a, .x, .m]
  | .gcd => [.a, .b]
  | .modinv => [.a, .m]
  | .mrtest => [.a]
  | .genprime => []
  | .keygen => []
  | .encEcb => [.n, .e]
  | .decEcb => [.n, .d]
  | .encCbc => [.n, .e]
  | .decCbc => [.n, .d]

/-- The wide registers a command writes at success (30_encoding.md R121). -/
def Instr.writes : Instr → List Machine.WideName
  | .nop => []
  | .modmul => [.r]
  | .modexp => [.r]
  | .gcd => [.r]
  | .modinv => [.r]
  | .mrtest => [.r]
  | .genprime => [.r]
  | .keygen => [.p, .q, .n, .phi, .e, .d]
  | .encEcb => []
  | .decEcb => []
  | .encCbc => []
  | .decCbc => []

/-- The commands that draw entropy (40_control.md R144, 10_state.md R57). -/
def Instr.draws : Instr → Bool
  | .mrtest | .genprime | .keygen | .encCbc => true
  | .nop | .modmul | .modexp | .gcd | .modinv | .encEcb | .decEcb | .decCbc => false

/-- Which command can report which error: the Y entries of 60_exceptions.md R301. -/
def Instr.canReport (i : Instr) (e : Machine.Err) : Bool :=
  match i, e with
  | .nop, _ => false
  | .modmul, .badOperand => true
  | .modmul, _ => false
  | .modexp, .badOperand => true
  | .modexp, _ => false
  | .gcd, _ => false
  | .modinv, .noInverse => true
  | .modinv, .badOperand => true
  | .modinv, _ => false
  | .mrtest, .badOperand => true
  | .mrtest, _ => false
  | .genprime, .iterationLimit => true
  | .genprime, .badOperand => true
  | .genprime, _ => false
  | .keygen, .degenerateKey => true
  | .keygen, .iterationLimit => true
  | .keygen, .badOperand => true
  | .keygen, _ => false
  | .encEcb, .badOperand => true
  | .encEcb, .bufferOverflow => true
  | .encEcb, _ => false
  | .encCbc, .badOperand => true
  | .encCbc, .bufferOverflow => true
  | .encCbc, _ => false
  | .decEcb, .invalidPadding => true
  | .decEcb, .decoding => true
  | .decEcb, .blockOverflow => true
  | .decEcb, .badOperand => true
  | .decEcb, .bufferOverflow => true
  | .decEcb, _ => false
  | .decCbc, .invalidPadding => true
  | .decCbc, .decoding => true
  | .decCbc, .blockOverflow => true
  | .decCbc, .badOperand => true
  | .decCbc, .bufferOverflow => true
  | .decCbc, _ => false

end Sys2Proof

namespace Sys2Proof.Machine

/-- Every 32-bit word of a wide register has been written since reset (10_state.md R46). -/
def State.wideWritten (s : State) (k : WideName) : Bool :=
  (List.range s.params.wideWords).all fun i => (s.wide.get k).written.getLsbD i

/-- InBuf bytes 0 .. MSG_LEN − 1, as far as the buffer goes, all hold a defined value. -/
def State.inputWritten (s : State) : Bool :=
  (List.range (min s.inputLen s.params.bufBytes)).all fun j => (Memory.read s.mem (inBase + j)).isSome

/-- R343's duty of the host: everything the command reads has been written. The spec has a model refuse a run that
breaks it (93 U1, U3); this model runs it instead (logs 4, 6), and a claim that needs the duty takes it as a premise. -/
def State.inputsWritten (s : State) (i : Instr) : Bool :=
  i.reads.all (s.wideWritten ·) && (!i.isCipher || s.inputWritten)

/-- Every wide register is below 2^OPW (10_state.md R40). -/
def State.wideFits (s : State) : Prop := ∀ k : WideName, s.W k < 2 ^ s.params.opw

/-- Every listed byte lies in one of the two buffers (10_state.md R47, 20_memory.md R85). -/
def State.memInBuffers (s : State) : Prop :=
  ∀ c ∈ s.mem, (inBase ≤ c.1 ∧ c.1 < inBase + s.params.bufBytes) ∨
    (outBase ≤ c.1 ∧ c.1 < outBase + s.params.bufBytes)

/-- R34's invariant: BUSY = 1 ⇒ DONE = 0, ERR = 0, ERRCODE = 0, RESULT = 0; and ERR = 1 ⇔ ERRCODE ≠ 0. -/
def State.flagsConsistent (s : State) : Prop :=
  (s.busy = true → s.status.done = false ∧ s.status.err = false ∧ s.status.errcode = 0 ∧
    s.status.result = false) ∧
  (s.status.err = true ↔ s.status.errcode ≠ 0)

/-- ERRCODE is 0 or one of the nine codes; 10 to 15 are never reported (60_exceptions.md R300). -/
def State.errcodeAssigned (s : State) : Prop := s.status.errcode.toNat ≤ 9

/-- A pending draw belongs to a running command (10_state.md R57), and BUSY(op) is never NOP or an illegal word
(40_control.md R141, R150) and has its opcode in LASTOP (70 R350). -/
def State.runConsistent (s : State) : Prop :=
  (s.drawPending ≠ none → s.busy = true) ∧
  ∀ r, s.run = some r →
    ∃ i, decode r.word = .ok i ∧ i ≠ .nop ∧ s.status.lastop = i.opcode

/-- The block held in reset is IDLE (70_reset_and_hazards.md R340). -/
def State.resetIdle (s : State) : Prop := s.rst = true → s.run = none

/-- The buffers' invariant: canonical, and nothing listed outside them. -/
structure State.MemInv (s : State) : Prop where
  wf : Memory.wf s.mem
  within : s.memInBuffers

/-- The status register's invariant, with the command state machine that belongs to it. -/
structure State.StatusInv (s : State) : Prop where
  flags : s.flagsConsistent
  errcode : s.errcodeAssigned
  run : s.runConsistent
  resetIdle : s.resetIdle

/-! ### How a command ends, in the words of 40_control.md -/

/-- t is IDLE with the STATUS of a success of i that leaves RESULT 0 (R140, R145); OVR is not the command's. -/
def State.Completed (t : State) (i : Instr) (s : State) : Prop :=
  t.run = none ∧ t.drawPending = none ∧
    t.status = { done := true, err := false, result := false, ovr := s.status.ovr, errcode := 0, lastop := i.opcode }

/-- t is IDLE with the STATUS of i's error e (R140, R146). -/
def State.FailedWith (t : State) (i : Instr) (e : Err) (s : State) : Prop :=
  t.run = none ∧ t.drawPending = none ∧
    t.status = { done := true, err := true, result := false, ovr := s.status.ovr, errcode := e.code, lastop := i.opcode }

/-- What no command writes: parameters, CTRL, the configuration registers, MSG_LEN, the reset pin, the bus response and
the environment's events. -/
def State.SameConfig (t s : State) : Prop :=
  t.params = s.params ∧ t.ctrl = s.ctrl ∧ t.mrRounds = s.mrRounds ∧ t.primeBits = s.primeBits ∧
    t.iterLimit = s.iterLimit ∧ t.retryLimit = s.retryLimit ∧ t.msgLen = s.msgLen ∧ t.rst = s.rst ∧
    t.response = s.response ∧ t.inputs = s.inputs

/-- What a command reads (R97, R144): its registers, the configuration, the message and, if it draws, the answers. -/
def State.SameInputs (s1 s2 : State) (i : Instr) : Prop :=
  s1.params = s2.params ∧ (∀ k ∈ i.reads, s1.W k = s2.W k) ∧ s1.mrRounds = s2.mrRounds ∧
    s1.primeBits = s2.primeBits ∧ s1.iterLimit = s2.iterLimit ∧ s1.retryLimit = s2.retryLimit ∧
    s1.msgLen = s2.msgLen ∧ s1.txtSnapshot = s2.txtSnapshot ∧ s1.free = s2.free ∧
    (∀ j < s1.params.bufBytes, Memory.read s1.mem (inBase + j) = Memory.read s2.mem (inBase + j)) ∧
    (i.draws = true → s1.stream = s2.stream)

/-- OutBuf[j] of a state; none where it is UNSPECIFIED. -/
def State.outByte (s : State) (j : Nat) : Option Byte := Memory.read s.mem (outBase + j)

/-- OutBuf[0..len(out)) is out, everything beyond is UNSPECIFIED, and OUT_LEN is len(out) (45_cipher.md R271). -/
def State.HoldsOutput (s : State) (out : List Byte) : Prop :=
  s.outLen.toNat = out.length ∧ ∀ j < bufWindow, s.outByte j = out[j]?

/-! ### Words the cipher claims use, apart from the model's loops (45_cipher.md) -/

/-- The integer of the i-th block of the given size (R270, R272). -/
def blockInt (s : List Byte) (size i : Nat) : Nat := beInt ((s.drop (i * size)).take size)

/-- nb ciphertext integers, each in bs+1 bytes (R252). -/
def serialized (bs nb : Nat) (c : Nat → Nat) : List Byte :=
  (List.range nb).flatMap fun i => beBytes (c i) (bs + 1)

/-- nb block values, each in bs bytes. -/
def joined (bs nb : Nat) (m : Nat → Nat) : List Byte := (List.range nb).flatMap fun i => beBytes (m i) bs

/-- R270: c_i = m_i ^ e mod n. -/
def ecbCipher (n e bs : Nat) (pm : List Byte) (i : Nat) : Nat := blockInt pm bs i ^ e % n

/-- R274 with R259: c_0 = (m_0 XOR iv) ^ e mod n and c_(i+1) = (m_(i+1) XOR (c_i mod 2^(8·bs))) ^ e mod n. -/
def cbcCipher (n e bs iv : Nat) (pm : List Byte) : Nat → Nat
  | 0 => (blockInt pm bs 0 ^^^ iv) ^ e % n
  | i + 1 => (blockInt pm bs (i + 1) ^^^ (cbcCipher n e bs iv pm i % 2 ^ (8 * bs))) ^ e % n

/-- R272, R276: y_i = c_i ^ d mod n. -/
def decryptedInt (n d bs : Nat) (ct : List Byte) (i : Nat) : Nat := blockInt ct (bs + 1) i ^ d % n

/-- R276 with R259: m_0 = y_0 XOR iv and m_(i+1) = y_(i+1) XOR (c_i mod 2^(8·bs)). -/
def unmaskedInt (n d bs iv : Nat) (ct : List Byte) : Nat → Nat
  | 0 => decryptedInt n d bs ct 0 ^^^ iv
  | i + 1 => decryptedInt n d bs ct (i + 1) ^^^ (blockInt ct (bs + 1) i % 2 ^ (8 * bs))

/-- Block i passes R273's and R277's check 4. -/
abbrev blockGood (n d bs : Nat) (ct : List Byte) (i : Nat) : Prop :=
  blockInt ct (bs + 1) i < n ∧ decryptedInt n d bs ct i < 2 ^ (8 * bs)

/-- The table of R256: range of the first byte, ranges of the bytes after it. -/
def utf8Rows : List ((Nat × Nat) × List (Nat × Nat)) :=
  [((0x00, 0x7F), []),
   ((0xC2, 0xDF), [(0x80, 0xBF)]),
   ((0xE0, 0xE0), [(0xA0, 0xBF), (0x80, 0xBF)]),
   ((0xE1, 0xEC), [(0x80, 0xBF), (0x80, 0xBF)]),
   ((0xED, 0xED), [(0x80, 0x9F), (0x80, 0xBF)]),
   ((0xEE, 0xEF), [(0x80, 0xBF), (0x80, 0xBF)]),
   ((0xF0, 0xF0), [(0x90, 0xBF), (0x80, 0xBF), (0x80, 0xBF)]),
   ((0xF1, 0xF3), [(0x80, 0xBF), (0x80, 0xBF), (0x80, 0xBF)]),
   ((0xF4, 0xF4), [(0x80, 0x8F), (0x80, 0xBF), (0x80, 0xBF)])]

/-- A byte in a range. -/
abbrev byteIn (b : Byte) (r : Nat × Nat) : Prop := r.1 ≤ b.toNat ∧ b.toNat ≤ r.2

/-- One sequence of R256's table. -/
def utf8Sequence (q : List Byte) : Prop :=
  ∃ row ∈ utf8Rows, ∃ b rest, q = b :: rest ∧ byteIn b row.1 ∧ List.Forall₂ byteIn rest row.2

/-! ### Words the prime and key claims use: which draws decide what (43_prime.md R211, 44_keygen.md R232, R233) -/

/-- R211's candidate of a drawn number: bits bits−1 and 0 forced to 1. (An answer of 2^bits or more is folded into the range, log 9.) -/
def forcedCandidate (bits v : Nat) : Nat := v % 2 ^ bits ||| 2 ^ (bits - 1) ||| 1

/-- n candidates in a row, drawn from ans, are found COMPOSITE; rest is left of the answers. -/
def candidatesFail (bits k : Nat) : Nat → List Nat → List Nat → Prop
  | 0, ans, rest => rest = ans
  | n + 1, ans, rest =>
    ∃ v tail mid, ans = v :: tail ∧ mr (forcedCandidate bits v) k tail = .ok false mid ∧
      candidatesFail bits k n mid rest

/-- Of at most limit candidates drawn from ans, p is the first that the test finds PRIME; rest is left of the answers. -/
def primeFound (bits k limit : Nat) (ans : List Nat) (p : Nat) (rest : List Nat) : Prop :=
  ∃ n < limit, ∃ v tail, candidatesFail bits k n ans (v :: tail) ∧ p = forcedCandidate bits v ∧
    mr p k tail = .ok true rest

/-- n draws of a prime in a row give p; rest is left of the answers. -/
def primeRepeats (bits k limit p : Nat) : Nat → List Nat → List Nat → Prop
  | 0, ans, rest => rest = ans
  | n + 1, ans, rest => ∃ mid, primeFound bits k limit ans p mid ∧ primeRepeats bits k limit p n mid rest

/-- KEYGEN's two primes: p, then q after at most retry re-draws that all gave p (44_keygen.md R232). -/
def primesFound (bits k limit retry : Nat) (ans : List Nat) (p q : Nat) (rest : List Nat) : Prop :=
  ∃ r1 mid, ∃ n ≤ retry, primeFound bits k limit ans p r1 ∧ primeRepeats bits k limit p n r1 mid ∧
    primeFound bits k limit mid q rest ∧ q ≠ p

/-- n draws of e from [2, phi − 1] all have a factor in common with phi (44_keygen.md R233). -/
def exponentsFail (phi : Nat) : Nat → List Nat → List Nat → Prop
  | 0, ans, rest => rest = ans
  | n + 1, ans, rest =>
    ∃ v tail, ans = v :: tail ∧ Nat.gcd ((DrawReq.range 2 (phi - 1)).intoRange v) phi ≠ 1 ∧
      exponentsFail phi n tail rest

/-- Of at most retry draws from [2, phi − 1], e is the first that is coprime to phi. -/
def exponentFound (phi retry : Nat) (ans : List Nat) (e : Nat) (rest : List Nat) : Prop :=
  ∃ n < retry, ∃ v, exponentsFail phi n ans (v :: rest) ∧ e = (DrawReq.range 2 (phi - 1)).intoRange v ∧
    Nat.gcd e phi = 1

end Sys2Proof.Machine
end

