-- ==== Sys2Proof/Certificates/Slice0/Obligations.lean ====
section
/-! DEFINITION. The statements for the provers, from the numbered rules of spec/. -/

open Sys2Proof Sys2Proof.Machine

/-! ### Encoding -/

/-- Some words written out from the opcode map (30_encoding.md R121) and some illegal ones (R124). -/
def Obligations.DecodeListedWords : Prop :=
  decode 0x00000000 = .ok .nop ∧ decode 0x00000010 = .ok .modmul ∧ decode 0x00000011 = .ok .modexp ∧
    decode 0x00000021 = .ok .modinv ∧ decode 0x00000030 = .ok .mrtest ∧ decode 0x00000040 = .ok .keygen ∧
    decode 0x00000053 = .ok .decCbc ∧ decode 0x00000110 = .error .reservedBitsSet ∧
    decode 0x00000012 = .error .unassignedOpcode

/-- A word decodes iff v[31:8] = 0 and v[7:0] is one of the twelve values (30_encoding.md R123). -/
def Obligations.DecodeExactlyLegalWords : Prop :=
  ∀ v : Word, (∃ i, decode v = .ok i) ↔
    (v.toNat / 256 = 0 ∧
      v.toNat % 256 ∈ [0x00, 0x10, 0x11, 0x20, 0x21, 0x30, 0x31, 0x40, 0x50, 0x51, 0x52, 0x53])

/-- A word decodes to a command iff it is that command's word: decoding and encoding agree both ways (30_encoding.md R121, R123, R125). -/
def Obligations.DecodeIffEncoded : Prop := ∀ (v : Word) (i : Instr), decode v = .ok i ↔ v = encode i

/-! ### Starting a command, illegal words, the step -/

/-- A CMD write of an illegal word while IDLE completes at once with E_ILLEGAL_COMMAND; only STATUS changes (40_control.md
R141). The bus response and the consumed event are the transaction's own. -/
def Obligations.IllegalCommandWord : Prop :=
  ∀ (s : State) (v : Word) (rest : List Event),
    s.params.legal = true → s.rst = false → s.run = none →
    s.inputs = .bus (.write (s.params.base + 0x004) 32 v) :: rest →
    (v.toNat / 256 ≠ 0 ∨ opcodeUnassigned (v.toNat % 256) = true) →
    step s = .next
      { s with
        inputs := rest
        response := some .writeOk
        status :=
          { done := true, err := true, result := false, ovr := s.status.ovr, errcode := 9
            lastop := v.extractLsb' 0 8 } }

/-- NOP sets DONE, clears ERR, ERRCODE and RESULT, sets LASTOP to 0x00 and completes at once, so that BUSY never reads 1;
no register and no buffer changes (40_control.md R150). -/
def Obligations.NopCompletes : Prop :=
  (∀ s : State, exec .nop s = .next
    { s with
      run := none
      drawPending := none
      status :=
        { done := true, err := false, result := false, ovr := s.status.ovr, errcode := 0, lastop := 0x00 } }) ∧
  ∀ (s : State) (rest : List Event),
    s.params.legal = true → s.rst = false → s.run = none →
    s.inputs = .bus (.write (s.params.base + 0x004) 32 0x00000000) :: rest →
    step s = .next
      { s with
        inputs := rest
        response := some .writeOk
        drawPending := none
        status :=
          { done := true, err := false, result := false, ovr := s.status.ovr, errcode := 0, lastop := 0x00 } }

/-- A CMD write of any other command's word while IDLE makes the block BUSY with that word: LASTOP is the opcode, DONE, ERR,
ERRCODE and RESULT are 0, TXT_CHECK is snapshot, and nothing else changes (40_control.md R140, 20_memory.md R97). -/
def Obligations.CommandStart : Prop :=
  ∀ (s : State) (i : Instr) (rest : List Event),
    s.params.legal = true → s.rst = false → s.run = none → i ≠ .nop →
    s.inputs = .bus (.write (s.params.base + 0x004) 32 (encode i)) :: rest →
    step s = .next
      { s with
        inputs := rest
        response := some .writeOk
        drawPending := none
        run := some { word := encode i, txtCheck := s.ctrl.txtCheck, answers := [] }
        status :=
          { done := false, err := false, result := false, ovr := s.status.ovr, errcode := 0
            lastop := i.opcode } }

/-- What a step is, in a block with legal parameters and rst released. A BUSY block runs its held command where the environment has nothing to
do or gives the core its move, and around exec the step does nothing but take that event (40_control.md R140; log 11); an IDLE block then
changes nothing. A bus event of the window is MemRead or MemWrite at its address minus BASE; one outside the window is not the block's and gets no
response (20_memory.md R80, R81, R90, R91; log 14). An answer of the entropy port is queued behind those before it (60_exceptions.md R318; log 9). -/
def Obligations.StepTakesEvent : Prop :=
  ∀ s : State, s.params.legal = true → s.rst = false →
    (∀ (r : Running) (i : Instr), s.run = some r → decode r.word = .ok i →
      (s.inputs = [] → step s = exec i s) ∧
      ∀ rest, s.inputs = .core :: rest → step s = exec i { s with inputs := rest }) ∧
    (s.run = none →
      (s.inputs = [] → step s = .next s) ∧
      ∀ rest, s.inputs = .core :: rest → step s = .next { s with inputs := rest }) ∧
    (∀ (addr size : Nat) (v : Word) (rest : List Event),
      (s.params.base ≤ addr → addr < s.params.base + 0x10000 →
        (s.inputs = .bus (.read addr size) :: rest →
          step s = .next ({ s with inputs := rest }.memRead (addr - s.params.base) size)) ∧
        (s.inputs = .bus (.write addr size v) :: rest →
          step s = { s with inputs := rest }.memWrite (addr - s.params.base) size v)) ∧
      (addr < s.params.base ∨ s.params.base + 0x10000 ≤ addr →
        s.inputs = .bus (.read addr size) :: rest ∨ s.inputs = .bus (.write addr size v) :: rest →
        step s = .next { s with inputs := rest, response := none })) ∧
    ∀ (answer : Nat) (rest : List Event), s.inputs = .entropy answer :: rest →
      step s = .next { s with inputs := rest, entropy := s.entropy ++ [answer] }

/-- THE MODEL'S CHOICE: nothing stops. Every command, and every step of a block with legal parameters, ends in a next state. That command errors
and bus errors are next states is the spec's (60_exceptions.md R302, R303). That a command which reads a wide word or a message byte nothing has
written runs is the model's choice (logs 4 and 6; the spec has a model refuse it: R343, 93 U1 and U3), and so is that a wait for the entropy port is
a next state (log 10). -/
def Obligations.NothingStops : Prop :=
  (∀ (i : Instr) (s : State), ∃ t, exec i s = .next t) ∧
  ∀ s : State, s.params.legal = true → ∃ t, step s = .next t

/-! ### Arithmetic units -/

/-- MODMUL: R = (A·B) mod M; M = 0 raises E_BAD_OPERAND and leaves every wide register (41_modarith.md R160, R161). -/
def Obligations.ModmulResult : Prop :=
  ∀ s : State, s.wideFits →
    (s.W .m ≠ 0 → ∃ t, exec .modmul s = .next t ∧ t.W .r = s.W .a * s.W .b % s.W .m ∧
      t.Completed .modmul s ∧ ∀ k, k ≠ .r → t.wide.get k = s.wide.get k) ∧
    (s.W .m = 0 → ∃ t, exec .modmul s = .next t ∧ t.FailedWith .modmul .badOperand s ∧ t.wide = s.wide)

/-- MODEXP: R = A^X mod M, with A^0 = 1 mod M; M = 0 raises E_BAD_OPERAND and leaves every wide register (41_modarith.md R163,
R164, R165). -/
def Obligations.ModexpResult : Prop :=
  ∀ s : State, s.wideFits →
    (s.W .m ≠ 0 → ∃ t, exec .modexp s = .next t ∧ t.W .r = s.W .a ^ s.W .x % s.W .m ∧
      t.Completed .modexp s ∧ ∀ k, k ≠ .r → t.wide.get k = s.wide.get k) ∧
    (s.W .m = 0 → ∃ t, exec .modexp s = .next t ∧ t.FailedWith .modexp .badOperand s ∧ t.wide = s.wide)

/-- GCD: R = gcd(A, B), with gcd(0, 0) = 0; there is no error (42_euclid.md R180). -/
def Obligations.GcdResult : Prop :=
  ∀ s : State, s.wideFits →
    ∃ t, exec .gcd s = .next t ∧ t.W .r = Nat.gcd (s.W .a) (s.W .b) ∧ t.Completed .gcd s ∧
      ∀ k, k ≠ .r → t.wide.get k = s.wide.get k

/-- MODINV: E_BAD_OPERAND for M = 0 first, then E_NO_INVERSE for gcd(A mod M, M) ≠ 1, else R is the x in [0, M) with (A·x) mod M
= 1 mod M; an error leaves every wide register (42_euclid.md R183, R184, R185). -/
def Obligations.ModinvResult : Prop :=
  ∀ s : State, s.wideFits →
    (s.W .m = 0 → ∃ t, exec .modinv s = .next t ∧ t.FailedWith .modinv .badOperand s ∧ t.wide = s.wide) ∧
    (s.W .m ≠ 0 → Nat.gcd (s.W .a % s.W .m) (s.W .m) ≠ 1 →
      ∃ t, exec .modinv s = .next t ∧ t.FailedWith .modinv .noInverse s ∧ t.wide = s.wide) ∧
    (s.W .m ≠ 0 → Nat.gcd (s.W .a % s.W .m) (s.W .m) = 1 →
      ∃ t, exec .modinv s = .next t ∧ t.W .r < s.W .m ∧ s.W .a * t.W .r % s.W .m = 1 % s.W .m ∧
        t.Completed .modinv s ∧ ∀ k, k ≠ .r → t.wide.get k = s.wide.get k)

/-! ### Primes -/

/-- For odd n ≥ 5, n − 1 = 2^r·s with s odd and r ≥ 1, and a round passes base a iff a^s ≡ 1 or a^(2^j·s) ≡ n − 1 (mod n) for
some j < r (43_prime.md R202). -/
def Obligations.MillerRabinRound : Prop :=
  ∀ n a : Nat, 5 ≤ n → n % 2 = 1 →
    n - 1 = 2 ^ (decompose n).1 * (decompose n).2 ∧ (decompose n).2 % 2 = 1 ∧ 1 ≤ (decompose n).1 ∧
    (roundPasses n (decompose n).1 (decompose n).2 a = true ↔
      a ^ (decompose n).2 % n = 1 ∨ ∃ j < (decompose n).1, a ^ (2 ^ j * (decompose n).2) % n = n - 1)

/-- For every prime n and every sequence of draws the verdict is PRIME (43_prime.md R206). -/
def Obligations.PrimeAlwaysPasses : Prop :=
  ∀ (n k : Nat) (ans : List Nat), n.Prime → k ≤ ans.length → ∃ rest, mr n k ans = .ok true rest

/-- n < 2, 2, 3 and even n ≥ 4 are settled without a draw; for odd n ≥ 5 the test takes between 1 and k answers, and exactly k when it
returns PRIME (43_prime.md R204, R205). -/
def Obligations.MillerRabinDraws : Prop :=
  (∀ (n k : Nat) (ans : List Nat),
    (n < 2 → mr n k ans = .ok false ans) ∧ (n = 2 ∨ n = 3 → mr n k ans = .ok true ans) ∧
    (4 ≤ n → n % 2 = 0 → mr n k ans = .ok false ans)) ∧
  ∀ (n k : Nat) (ans : List Nat) (v : Bool) (rest : List Nat),
    5 ≤ n → n % 2 = 1 → 1 ≤ k → mr n k ans = .ok v rest →
    ∃ j, 1 ≤ j ∧ j ≤ k ∧ j ≤ ans.length ∧ rest = ans.drop j ∧ (v = true → j = k)

/-- MRTEST: k = 0 raises E_BAD_OPERAND before any draw; else, wherever the test ends on the answers there are, however few it takes, MRTEST completes
with the verdict in R and in RESULT; and with k answers the test does end (43_prime.md R200, R201, R203, R204, R205). -/
def Obligations.MrtestResult : Prop :=
  ∀ s : State, s.params.legal = true →
    (s.mrRounds = 0 → ∃ t, exec .mrtest s = .next t ∧ t.FailedWith .mrtest .badOperand s ∧ t.wide = s.wide ∧
      t.entropy = s.stream) ∧
    (s.mrRounds ≠ 0 →
      (∀ v rest, mr (s.W .a) s.mrRounds.toNat s.stream = .ok v rest →
        ∃ t, exec .mrtest s = .next t ∧
          t.W .r = (if v then 1 else 0) ∧ t.entropy = rest ∧ t.run = none ∧ t.drawPending = none ∧
          t.status =
            { done := true, err := false, result := v, ovr := s.status.ovr, errcode := 0, lastop := 0x30 } ∧
          ∀ k, k ≠ .r → t.wide.get k = s.wide.get k) ∧
      (s.mrRounds.toNat ≤ s.stream.length → ∃ v rest, mr (s.W .a) s.mrRounds.toNat s.stream = .ok v rest))

/-- GENPRIME: the sampler finds p iff p is the first of at most ITER_LIMIT candidates that the test finds PRIME, each candidate a draw with bits
bits−1 and 0 forced to 1; then R = p, an odd number of exactly PRIME_BITS bits (43_prime.md R210, R211, R212, R213). The model's choice: an answer
out of the requested range is folded into it (log 9). -/
def Obligations.GenprimeResult : Prop :=
  ∀ (s : State) (p : Nat) (rest : List Nat),
    2 ≤ s.primeBits.toNat → s.primeBits.toNat ≤ s.params.opw → s.mrRounds ≠ 0 →
    (genprime s.primeBits.toNat s.mrRounds.toNat s.iterLimit.toNat s.stream = .ok p rest ↔
      primeFound s.primeBits.toNat s.mrRounds.toNat s.iterLimit.toNat s.stream p rest) ∧
    (primeFound s.primeBits.toNat s.mrRounds.toNat s.iterLimit.toNat s.stream p rest →
      ∃ t, exec .genprime s = .next t ∧ t.W .r = p ∧ p % 2 = 1 ∧ bitlen p = s.primeBits.toNat ∧
        (∃ ans, mr p s.mrRounds.toNat ans = .ok true rest) ∧
        t.entropy = rest ∧ t.Completed .genprime s ∧ ∀ k, k ≠ .r → t.wide.get k = s.wide.get k)

/-- GENPRIME's errors in their order: bits out of [2, OPW], then k = 0, then ITER_LIMIT spent: all ITER_LIMIT candidates, none of them for
ITER_LIMIT = 0, are found COMPOSITE, and only then; R keeps its value (43_prime.md R210, R211). The model's choice: an answer out of the requested
range is folded into it (log 9). -/
def Obligations.GenprimeErrors : Prop :=
  ∀ s : State,
    (s.primeBits.toNat < 2 ∨ s.params.opw < s.primeBits.toNat →
      ∃ t, exec .genprime s = .next t ∧ t.FailedWith .genprime .badOperand s ∧ t.wide = s.wide) ∧
    (2 ≤ s.primeBits.toNat → s.primeBits.toNat ≤ s.params.opw → s.mrRounds = 0 →
      ∃ t, exec .genprime s = .next t ∧ t.FailedWith .genprime .badOperand s ∧ t.wide = s.wide) ∧
    (2 ≤ s.primeBits.toNat → s.primeBits.toNat ≤ s.params.opw → s.mrRounds ≠ 0 →
      (∀ rest, candidatesFail s.primeBits.toNat s.mrRounds.toNat s.iterLimit.toNat s.stream rest →
        ∃ t, exec .genprime s = .next t ∧ t.FailedWith .genprime .iterationLimit s ∧ t.wide = s.wide ∧
          t.entropy = rest) ∧
      (s.iterLimit = 0 →
        ∃ t, exec .genprime s = .next t ∧ t.FailedWith .genprime .iterationLimit s ∧ t.wide = s.wide ∧
          t.entropy = s.stream)) ∧
    ∀ t, exec .genprime s = .next t → t.status.errcode = Err.iterationLimit.code →
      candidatesFail s.primeBits.toNat s.mrRounds.toNat s.iterLimit.toNat s.stream t.entropy

/-- genprime takes at most limit·(1 + k) answers and KEYGEN's draws at most limit·(2 + retry)·(1 + k) + retry, whether they end with a result or
with an error; with that many they end, genprime with a candidate that passed or E_ITERATION_LIMIT, KEYGEN with a key, E_ITERATION_LIMIT or
E_DEGENERATE_KEY (43_prime.md R214, 44_keygen.md R236, 70 R353). -/
def Obligations.DrawBounds : Prop :=
  (∀ (bits k limit : Nat) (ans : List Nat),
    (∀ p rest, genprime bits k limit ans = .ok p rest →
      ∃ j ≤ limit * (1 + k), j ≤ ans.length ∧ rest = ans.drop j) ∧
    (∀ e rest, genprime bits k limit ans = .err e rest →
      e = .iterationLimit ∧ ∃ j ≤ limit * (1 + k), j ≤ ans.length ∧ rest = ans.drop j) ∧
    (limit * (1 + k) ≤ ans.length → ∀ req, genprime bits k limit ans ≠ .waits req)) ∧
  ∀ (bits k limit retry : Nat) (ans : List Nat),
    (∀ key rest, keygen bits k limit retry ans = .ok key rest →
      ∃ j ≤ limit * (2 + retry) * (1 + k) + retry, j ≤ ans.length ∧ rest = ans.drop j) ∧
    (∀ e rest, keygen bits k limit retry ans = .err e rest →
      (e = .iterationLimit ∨ e = .degenerateKey) ∧
        ∃ j ≤ limit * (2 + retry) * (1 + k) + retry, j ≤ ans.length ∧ rest = ans.drop j) ∧
    (limit * (2 + retry) * (1 + k) + retry ≤ ans.length → ∀ req, keygen bits k limit retry ans ≠ .waits req)

/-! ### Key generation -/

/-- KEYGEN: its draws give a key iff they give two different primes of the sampler, q the first after at most RETRY_LIMIT re-draws (44_keygen.md
R232), and then an exponent, the first of at most RETRY_LIMIT draws that is coprime to phi (R233); the key is that of those three numbers (R230).
Then the six key registers hold it, untruncated: n = p·q, phi = (p−1)·(q−1) and d the inverse of e below phi; nothing else of the wide registers
changes (R230, R235); and both primes passed the test. The model's choice: an answer out of the requested range is folded into it (log 9). -/
def Obligations.KeygenResult : Prop :=
  ∀ s : State,
    let bits := s.primeBits.toNat
    let k := s.mrRounds.toNat
    let limit := s.iterLimit.toNat
    let retry := s.retryLimit.toNat
    2 ≤ bits → bits ≤ s.params.opw / 2 → k ≠ 0 →
    (∀ (key : Key) (rest : List Nat), keygen bits k limit retry s.stream = .ok key rest ↔
      ∃ mid, primesFound bits k limit retry s.stream key.p key.q mid ∧
        exponentFound ((key.p - 1) * (key.q - 1)) retry mid key.e rest ∧ key = Key.of key.p key.q key.e) ∧
    ∀ (p q e : Nat) (mid rest : List Nat), primesFound bits k limit retry s.stream p q mid →
      exponentFound ((p - 1) * (q - 1)) retry mid e rest →
      (∃ t, exec .keygen s = .next t ∧ t.W .p = p ∧ t.W .q = q ∧ t.W .n = p * q ∧
        t.W .phi = (p - 1) * (q - 1) ∧ t.W .e = e ∧ t.W .d = (Key.of p q e).d ∧ t.W .d < (p - 1) * (q - 1) ∧
        e * t.W .d % ((p - 1) * (q - 1)) = 1 ∧ t.entropy = rest ∧ t.Completed .keygen s ∧
        ∀ k ∈ [WideName.a, .b, .m, .x, .r], t.wide.get k = s.wide.get k) ∧
      (∃ ans left, mr p k ans = .ok true left) ∧ ∃ ans left, mr q k ans = .ok true left

/-- After a successful KEYGEN the registers hold a key: n = p·q, p ≠ q, phi = (p−1)(q−1), gcd(e, phi) = 1, e·d ≡ 1 (mod phi),
1 < e < phi, 0 < d < phi (44_keygen.md R231). -/
def Obligations.KeygenKeyPair : Prop :=
  ∀ s t : State, exec .keygen s = .next t → t.busy = false → t.status.err = false →
    t.W .n = t.W .p * t.W .q ∧ t.W .p ≠ t.W .q ∧ t.W .phi = (t.W .p - 1) * (t.W .q - 1) ∧
    Nat.gcd (t.W .e) (t.W .phi) = 1 ∧ t.W .e * t.W .d % t.W .phi = 1 ∧
    1 < t.W .e ∧ t.W .e < t.W .phi ∧ 0 < t.W .d ∧ t.W .d < t.W .phi

/-- After a successful KEYGEN: p and q are odd, in [2^(bits−1), 2^bits) and different; n < 2^(2·bits) ≤ 2^OPW; bitlen(n) is 2·bits − 1
or 2·bits; phi ≥ 24 (44_keygen.md R235). -/
def Obligations.KeygenRanges : Prop :=
  ∀ s t : State, exec .keygen s = .next t → t.busy = false → t.status.err = false →
    t.W .p % 2 = 1 ∧ t.W .q % 2 = 1 ∧ t.W .p ≠ t.W .q ∧
    2 ^ (s.primeBits.toNat - 1) ≤ t.W .p ∧ t.W .p < 2 ^ s.primeBits.toNat ∧
    2 ^ (s.primeBits.toNat - 1) ≤ t.W .q ∧ t.W .q < 2 ^ s.primeBits.toNat ∧
    t.W .n < 2 ^ (2 * s.primeBits.toNat) ∧ 2 ^ (2 * s.primeBits.toNat) ≤ 2 ^ s.params.opw ∧
    (bitlen (t.W .n) = 2 * s.primeBits.toNat - 1 ∨ bitlen (t.W .n) = 2 * s.primeBits.toNat) ∧ 24 ≤ t.W .phi

/-- KEYGEN's errors: bits out of [2, OPW/2] or k = 0 before any draw; then E_ITERATION_LIMIT where the sampler finds no p, no q or no re-drawn q;
E_DEGENERATE_KEY where q = p still after RETRY_LIMIT re-draws, and where none of RETRY_LIMIT draws of e is coprime to phi; every wide register keeps
its value. So with RETRY_LIMIT = 0 a KEYGEN that gets two different primes ends with E_DEGENERATE_KEY, and none ever succeeds (44_keygen.md R230,
R232, R233, R236). The model's choice: an answer out of the requested range is folded into it (log 9). -/
def Obligations.KeygenErrors : Prop :=
  ∀ s : State,
    let bits := s.primeBits.toNat
    let k := s.mrRounds.toNat
    let limit := s.iterLimit.toNat
    let retry := s.retryLimit.toNat
    let fails := fun e rest =>
      ∃ t, exec .keygen s = .next t ∧ t.FailedWith .keygen e s ∧ t.wide = s.wide ∧ t.entropy = rest
    (bits < 2 ∨ s.params.opw / 2 < bits ∨ k = 0 → fails .badOperand s.stream) ∧
    (2 ≤ bits → bits ≤ s.params.opw / 2 → k ≠ 0 →
      (∀ rest, candidatesFail bits k limit s.stream rest → fails .iterationLimit rest) ∧
      (∀ p r1 mid rest, ∀ n ≤ retry, primeFound bits k limit s.stream p r1 →
        primeRepeats bits k limit p n r1 mid → candidatesFail bits k limit mid rest →
        fails .iterationLimit rest) ∧
      (∀ p r1 rest, primeFound bits k limit s.stream p r1 → primeRepeats bits k limit p (retry + 1) r1 rest →
        fails .degenerateKey rest) ∧
      (∀ p q mid rest, primesFound bits k limit retry s.stream p q mid →
        exponentsFail ((p - 1) * (q - 1)) retry mid rest → fails .degenerateKey rest)) ∧
    (retry = 0 →
      (2 ≤ bits → bits ≤ s.params.opw / 2 → k ≠ 0 → ∀ p q mid,
        primesFound bits k limit retry s.stream p q mid → fails .degenerateKey mid) ∧
      ∀ t, exec .keygen s = .next t → t.busy = false → t.status.err = true ∧
        t.status.errcode ∈ [Err.badOperand.code, Err.iterationLimit.code, Err.degenerateKey.code])

/-! ### The block cipher -/

/-- Every block value is below N, and every ciphertext integer fits bs+1 bytes and is read back from them (45_cipher.md R251, R252;
00_scope.md R20). -/
def Obligations.BlocksFit : Prop :=
  ∀ n : Nat, 9 ≤ bitlen n →
    (∀ block : List Byte, block.length = blockSizeOf n → beInt block < n) ∧
    ∀ c < n, c < 256 ^ (blockSizeOf n + 1) ∧ beInt (beBytes c (blockSizeOf n + 1)) = c

/-- pad appends pad_size = bs − len mod bs bytes, 1 to bs of them, each equal to pad_size, and so fills whole blocks, one more than the message
has; unpad undoes it where pad_size fits a byte, whatever bs is (45_cipher.md R254, R255; 95 S5). -/
def Obligations.PadThenUnpad : Prop :=
  ∀ (msg : List Byte) (bs : Nat), 1 ≤ bs →
    padSize msg.length bs = bs - msg.length % bs ∧
    1 ≤ padSize msg.length bs ∧ padSize msg.length bs ≤ bs ∧
    (pad msg bs).length = msg.length + padSize msg.length bs ∧
    (pad msg bs).length = bs * (msg.length / bs + 1) ∧
    (∀ j < msg.length, (pad msg bs)[j]? = msg[j]?) ∧
    (padSize msg.length bs ≤ 255 →
      (∀ j, msg.length ≤ j → j < msg.length + padSize msg.length bs →
        ∃ b, (pad msg bs)[j]? = some b ∧ b.toNat = padSize msg.length bs) ∧
      unpad (pad msg bs) = .ok msg)

/-- unpad fails exactly on the empty string, a last byte 0 and a last byte above the length; else it strips as many bytes as
the last byte says, whatever they are (45_cipher.md R255). -/
def Obligations.UnpadChecks : Prop :=
  unpad [] = .error .invalidPadding ∧
  ∀ (s : List Byte) (b : Byte),
    (b.toNat = 0 ∨ s.length + 1 < b.toNat → unpad (s ++ [b]) = .error .invalidPadding) ∧
    (1 ≤ b.toNat → b.toNat ≤ s.length + 1 →
      unpad (s ++ [b]) = .ok ((s ++ [b]).take (s.length + 1 - b.toNat)))

/-- A byte string passes the text check iff it is a concatenation of sequences of the table (45_cipher.md R256). -/
def Obligations.TextCheckIsTable : Prop :=
  ∀ s : List Byte, utf8WellFormed s = true ↔ ∃ qs : List (List Byte), (∀ q ∈ qs, utf8Sequence q) ∧ s = qs.flatten

/-- ENC_ECB: where the checks pass, the output is nb blocks of bs+1 bytes, block i holding m_i^E mod N (45_cipher.md R270, R271). -/
def Obligations.EncEcbResult : Prop :=
  ∀ s : State, s.params.legal = true → 9 ≤ bitlen (s.W .n) → s.inputLen ≤ s.params.bufBytes →
    padSize s.inputLen (blockSizeOf (s.W .n)) ≤ 255 →
    (s.inputLen / blockSizeOf (s.W .n) + 1) * (blockSizeOf (s.W .n) + 1) ≤ s.params.bufBytes →
    ∃ t, exec .encEcb s = .next t ∧ t.Completed .encEcb s ∧ t.blockSize.toNat = blockSizeOf (s.W .n) ∧
      t.HoldsOutput
        (serialized (blockSizeOf (s.W .n)) (s.inputLen / blockSizeOf (s.W .n) + 1)
          (ecbCipher (s.W .n) (s.W .e) (blockSizeOf (s.W .n)) (pad s.input (blockSizeOf (s.W .n)))))

/-- ENC_CBC: where the checks pass and the port answers, the output is iv and nb blocks of bs+1 bytes, each block masked by the
ciphertext bytes before it (45_cipher.md R259, R261, R274, R275). -/
def Obligations.EncCbcResult : Prop :=
  ∀ (s : State) (answer : Nat) (rest : List Nat),
    s.params.legal = true → 9 ≤ bitlen (s.W .n) → s.inputLen ≤ s.params.bufBytes →
    padSize s.inputLen (blockSizeOf (s.W .n)) ≤ 255 →
    blockSizeOf (s.W .n) +
      (s.inputLen / blockSizeOf (s.W .n) + 1) * (blockSizeOf (s.W .n) + 1) ≤ s.params.bufBytes →
    s.stream = answer :: rest → answer < 2 ^ (8 * blockSizeOf (s.W .n)) →
    ∃ t, exec .encCbc s = .next t ∧ t.Completed .encCbc s ∧ t.blockSize.toNat = blockSizeOf (s.W .n) ∧
      t.entropy = rest ∧
      t.HoldsOutput
        (beBytes answer (blockSizeOf (s.W .n)) ++
          serialized (blockSizeOf (s.W .n)) (s.inputLen / blockSizeOf (s.W .n) + 1)
            (cbcCipher (s.W .n) (s.W .e) (blockSizeOf (s.W .n)) answer
              (pad s.input (blockSizeOf (s.W .n)))))

/-- The encrypt commands' checks in their order, each before any block and any draw; BLOCK_SIZE is 0 when N gives no block
(45_cipher.md R250, R258, R270, R274). -/
def Obligations.EncryptChecks : Prop :=
  ∀ s : State,
    (bitlen (s.W .n) < 9 →
      (∃ t, exec .encEcb s = .next t ∧ t.FailedWith .encEcb .badOperand s ∧ t.blockSize = 0) ∧
      ∃ t, exec .encCbc s = .next t ∧ t.FailedWith .encCbc .badOperand s ∧ t.blockSize = 0 ∧
        t.entropy = s.stream) ∧
    (9 ≤ bitlen (s.W .n) → s.params.bufBytes < s.inputLen →
      (∃ t, exec .encEcb s = .next t ∧ t.FailedWith .encEcb .bufferOverflow s) ∧
      ∃ t, exec .encCbc s = .next t ∧ t.FailedWith .encCbc .bufferOverflow s ∧ t.entropy = s.stream) ∧
    (9 ≤ bitlen (s.W .n) → s.inputLen ≤ s.params.bufBytes →
      255 < padSize s.inputLen (blockSizeOf (s.W .n)) →
      (∃ t, exec .encEcb s = .next t ∧ t.FailedWith .encEcb .badOperand s) ∧
      ∃ t, exec .encCbc s = .next t ∧ t.FailedWith .encCbc .badOperand s ∧ t.entropy = s.stream) ∧
    (9 ≤ bitlen (s.W .n) → s.inputLen ≤ s.params.bufBytes →
      padSize s.inputLen (blockSizeOf (s.W .n)) ≤ 255 →
      (s.params.bufBytes < (s.inputLen / blockSizeOf (s.W .n) + 1) * (blockSizeOf (s.W .n) + 1) →
        ∃ t, exec .encEcb s = .next t ∧ t.FailedWith .encEcb .bufferOverflow s) ∧
      (s.params.bufBytes < blockSizeOf (s.W .n) +
          (s.inputLen / blockSizeOf (s.W .n) + 1) * (blockSizeOf (s.W .n) + 1) →
        ∃ t, exec .encCbc s = .next t ∧ t.FailedWith .encCbc .bufferOverflow s ∧ t.entropy = s.stream))

/-- DEC_ECB: where every check passes, the output is the unpadded concatenation of c_i^D mod N in bs bytes (45_cipher.md R272). -/
def Obligations.DecEcbResult : Prop :=
  ∀ (s : State) (msg : List Byte),
    s.params.legal = true → 9 ≤ bitlen (s.W .n) → s.inputLen ≤ s.params.bufBytes →
    s.inputLen % (blockSizeOf (s.W .n) + 1) = 0 →
    (∀ i < s.inputLen / (blockSizeOf (s.W .n) + 1),
      blockGood (s.W .n) (s.W .d) (blockSizeOf (s.W .n)) s.input i) →
    unpad (joined (blockSizeOf (s.W .n)) (s.inputLen / (blockSizeOf (s.W .n) + 1))
      (decryptedInt (s.W .n) (s.W .d) (blockSizeOf (s.W .n)) s.input)) = .ok msg →
    (s.txtSnapshot = true → utf8WellFormed msg = true) →
    ∃ t, exec .decEcb s = .next t ∧ t.Completed .decEcb s ∧ t.blockSize.toNat = blockSizeOf (s.W .n) ∧
      t.HoldsOutput msg

/-- DEC_ECB's checks in their order; the first that fails decides the error (45_cipher.md R273). -/
def Obligations.DecEcbChecks : Prop :=
  ∀ s : State,
    let n := s.W .n
    let bs := blockSizeOf n
    let nb := s.inputLen / (bs + 1)
    let fails := fun e => ∃ t, exec .decEcb s = .next t ∧ t.FailedWith .decEcb e s
    (bitlen n < 9 → fails .badOperand) ∧
    (9 ≤ bitlen n → s.params.bufBytes < s.inputLen → fails .bufferOverflow) ∧
    (9 ≤ bitlen n → s.inputLen ≤ s.params.bufBytes → s.inputLen % (bs + 1) ≠ 0 → fails .decoding) ∧
    (9 ≤ bitlen n → s.inputLen ≤ s.params.bufBytes → s.inputLen % (bs + 1) = 0 →
      (∀ i < nb, (∀ j < i, blockGood n (s.W .d) bs s.input j) →
        (n ≤ blockInt s.input (bs + 1) i → fails .blockOverflow) ∧
        (blockInt s.input (bs + 1) i < n → 2 ^ (8 * bs) ≤ decryptedInt n (s.W .d) bs s.input i →
          fails .decoding)) ∧
      ((∀ i < nb, blockGood n (s.W .d) bs s.input i) →
        (∀ e, unpad (joined bs nb (decryptedInt n (s.W .d) bs s.input)) = .error e → fails .invalidPadding) ∧
        (∀ msg, unpad (joined bs nb (decryptedInt n (s.W .d) bs s.input)) = .ok msg →
          s.txtSnapshot = true → utf8WellFormed msg = false → fails .decoding)))

/-- DEC_CBC: where every check passes, the output is the unpadded concatenation of (c_i^D mod N) XOR mask_i in bs bytes, mask_0
being the leading iv and mask_(i+1) the low bs bytes of block i (45_cipher.md R259, R276). -/
def Obligations.DecCbcResult : Prop :=
  ∀ (s : State) (msg : List Byte),
    let n := s.W .n
    let bs := blockSizeOf n
    let nb := (s.inputLen - bs) / (bs + 1)
    let iv := beInt (s.input.take bs)
    let ct := s.input.drop bs
    s.params.legal = true → 9 ≤ bitlen n → s.inputLen ≤ s.params.bufBytes → bs ≤ s.inputLen →
    (s.inputLen - bs) % (bs + 1) = 0 → (∀ i < nb, blockGood n (s.W .d) bs ct i) →
    unpad (joined bs nb (unmaskedInt n (s.W .d) bs iv ct)) = .ok msg →
    (s.txtSnapshot = true → utf8WellFormed msg = true) →
    ∃ t, exec .decCbc s = .next t ∧ t.Completed .decCbc s ∧ t.blockSize.toNat = bs ∧ t.HoldsOutput msg

/-- DEC_CBC's checks in their order; the first that fails decides the error (45_cipher.md R277). -/
def Obligations.DecCbcChecks : Prop :=
  ∀ s : State,
    let n := s.W .n
    let bs := blockSizeOf n
    let nb := (s.inputLen - bs) / (bs + 1)
    let iv := beInt (s.input.take bs)
    let ct := s.input.drop bs
    let fails := fun e => ∃ t, exec .decCbc s = .next t ∧ t.FailedWith .decCbc e s
    (bitlen n < 9 → fails .badOperand) ∧
    (9 ≤ bitlen n → s.params.bufBytes < s.inputLen → fails .bufferOverflow) ∧
    (9 ≤ bitlen n → s.inputLen ≤ s.params.bufBytes →
      s.inputLen < bs ∨ (s.inputLen - bs) % (bs + 1) ≠ 0 → fails .decoding) ∧
    (9 ≤ bitlen n → s.inputLen ≤ s.params.bufBytes → bs ≤ s.inputLen → (s.inputLen - bs) % (bs + 1) = 0 →
      (∀ i < nb, (∀ j < i, blockGood n (s.W .d) bs ct j) →
        (n ≤ blockInt ct (bs + 1) i → fails .blockOverflow) ∧
        (blockInt ct (bs + 1) i < n → 2 ^ (8 * bs) ≤ decryptedInt n (s.W .d) bs ct i → fails .decoding)) ∧
      ((∀ i < nb, blockGood n (s.W .d) bs ct i) →
        (∀ e, unpad (joined bs nb (unmaskedInt n (s.W .d) bs iv ct)) = .error e → fails .invalidPadding) ∧
        (∀ msg, unpad (joined bs nb (unmaskedInt n (s.W .d) bs iv ct)) = .ok msg →
          s.txtSnapshot = true → utf8WellFormed msg = false → fails .decoding)))

/-- After an error of a cipher command: OUT_LEN = 0, every OutBuf byte UNSPECIFIED, BLOCK_SIZE as computed from N, and W[N], W[E],
W[D], IN_BUF and MSG_LEN unchanged (45_cipher.md R257). -/
def Obligations.CipherErrorOutput : Prop :=
  ∀ (i : Instr) (s t : State), i.isCipher = true → exec i s = .next t → t.status.err = true →
    t.outLen = 0 ∧ (∀ j < bufWindow, t.outByte j = none) ∧
    t.blockSize = BitVec.ofNat 32 (blockSizeOf (s.W .n)) ∧
    t.wide.get .n = s.wide.get .n ∧ t.wide.get .e = s.wide.get .e ∧ t.wide.get .d = s.wide.get .d ∧
    (∀ j < bufWindow, Memory.read t.mem (inBase + j) = Memory.read s.mem (inBase + j)) ∧ t.msgLen = s.msgLen

/-- RSA is correct under a key of two different primes (41_modarith.md R167). -/
def Obligations.RsaCorrect : Prop :=
  ∀ p q e d m : Nat, p.Prime → q.Prime → p ≠ q → e * d % ((p - 1) * (q - 1)) = 1 → m < p * q →
    modexp (modexp m e (p * q)) d (p * q) = m

/-- DEC_ECB of the output of ENC_ECB gives the message back, under a key of two different primes, where the text check is off or
the message is UTF-8 (45_cipher.md R278). -/
def Obligations.EcbRoundTrip : Prop :=
  ∀ (s t u : State) (p q : Nat),
    s.params.legal = true → p.Prime → q.Prime → p ≠ q → s.W .n = p * q →
    s.W .e * u.W .d % ((p - 1) * (q - 1)) = 1 →
    exec .encEcb s = .next t → t.status.err = false →
    u.params = s.params → u.W .n = s.W .n → u.msgLen = t.outLen →
    (∀ j < t.outLen.toNat, Memory.read u.mem (inBase + j) = t.outByte j) →
    (u.txtSnapshot = true → utf8WellFormed s.input = true) →
    ∃ v, exec .decEcb u = .next v ∧ v.Completed .decEcb u ∧ v.HoldsOutput s.input

/-- DEC_CBC of the output of ENC_CBC gives the message back, under a key of two different primes, where the text check is off or
the message is UTF-8 (45_cipher.md R278). -/
def Obligations.CbcRoundTrip : Prop :=
  ∀ (s t u : State) (p q : Nat),
    s.params.legal = true → p.Prime → q.Prime → p ≠ q → s.W .n = p * q →
    s.W .e * u.W .d % ((p - 1) * (q - 1)) = 1 →
    exec .encCbc s = .next t → t.busy = false → t.status.err = false →
    u.params = s.params → u.W .n = s.W .n → u.msgLen = t.outLen →
    (∀ j < t.outLen.toNat, Memory.read u.mem (inBase + j) = t.outByte j) →
    (u.txtSnapshot = true → utf8WellFormed s.input = true) →
    ∃ v, exec .decCbc u = .next v ∧ v.Completed .decCbc u ∧ v.HoldsOutput s.input

/-! ### All commands: errors, frames, inputs, waiting -/

/-- A command writes its destination registers only when it completes with success; after an error, and while it waits, every wide
register holds the value it held before (10_state.md R42). -/
def Obligations.WritesOnlyOnSuccess : Prop :=
  ∀ (i : Instr) (s t : State), exec i s = .next t → t.status.err = true ∨ t.busy = true → t.wide = s.wide

/-- An error a command reports is one R301 lists for it; E_NO_INVERSE never comes from KEYGEN nor E_BLOCK_OVERFLOW from an
encrypt command (60_exceptions.md R301, 44_keygen.md R234, 45_cipher.md R263). -/
def Obligations.ErrorsAsListed : Prop :=
  ∀ (i : Instr) (s t : State), exec i s = .next t → t.status.err = true →
    ∃ e, i.canReport e = true ∧ t.status.errcode = e.code

/-- Every completion sets DONE, so that irq is then CTRL.IRQ_EN; irq is 0 wherever DONE is 0: after the start of a command, while one waits and in every
BUSY state that meets R34's invariant, and after a STATUS write with bit 1 set; a CTRL write raises or lowers irq at once, by its bit 0 and DONE
(40_control.md R140, R147; 10_state.md R34; 60_exceptions.md R310, R312). -/
def Obligations.DoneDrivesIrq : Prop :=
  (∀ (i : Instr) (s t : State), exec i s = .next t →
    (t.busy = false → t.status.done = true ∧ t.irq = s.ctrl.irqEn) ∧ (t.busy = true → t.irq = false)) ∧
  ∀ s : State,
    (s.status.done = false → s.irq = false) ∧
    (s.StatusInv → s.busy = true → s.irq = false) ∧
    (∀ i : Instr, i ≠ .nop → s.run = none →
      ∃ t, s.memWrite CtrlReg.cmd.offset 32 (encode i) = .next t ∧ t.busy = true ∧ t.irq = false) ∧
    (∀ v : Word, v.getLsbD 1 = true → ∃ t, s.memWrite CtrlReg.status.offset 32 v = .next t ∧ t.irq = false) ∧
    ∀ v : Word, ∃ t, s.memWrite CtrlReg.ctrl.offset 32 v = .next t ∧ t.irq = (v.getLsbD 0 && s.status.done)

/-- Frame of the arithmetic, prime and key commands and of NOP: the configuration, OVR, every wide register but the command's own,
OUT_LEN, BLOCK_SIZE and every byte of both buffers stay; those that draw nothing leave the entropy port's answers alone. -/
def Obligations.NonCipherFrame : Prop :=
  ∀ (i : Instr) (s t : State),
    i ∈ [Instr.nop, .modmul, .modexp, .gcd, .modinv, .mrtest, .genprime, .keygen] → exec i s = .next t →
    t.SameConfig s ∧ t.status.ovr = s.status.ovr ∧ t.status.lastop = i.opcode ∧
    (∀ k, k ∉ i.writes → t.wide.get k = s.wide.get k) ∧ t.outLen = s.outLen ∧ t.blockSize = s.blockSize ∧
    (∀ a, Memory.read t.mem a = Memory.read s.mem a) ∧ t.free = s.free ∧
    (i.draws = false → t.entropy = s.entropy)

/-- Frame of the cipher commands in a block with legal parameters: the configuration, OVR, every wide register and every byte outside
OUT_BUF's window stay, and RESULT is 0 (10_state.md R47, R48; 45_cipher.md R257, R270 to R277). -/
def Obligations.CipherFrame : Prop :=
  ∀ (i : Instr) (s t : State),
    s.params.legal = true → i ∈ [Instr.encEcb, .decEcb, .encCbc, .decCbc] → exec i s = .next t →
    t.SameConfig s ∧ t.status.ovr = s.status.ovr ∧ t.status.lastop = i.opcode ∧ t.status.result = false ∧
    t.wide = s.wide ∧
    (∀ a, ¬ (outBase ≤ a ∧ a < outBase + bufWindow) → Memory.read t.mem a = Memory.read s.mem a) ∧
    (i.draws = false → t.entropy = s.entropy)

/-- A command that ends is a function of its snapshot inputs, and of the answers if it draws: two states that agree on those get the
same results (40_control.md R144). So nothing else, such as a key register the command does not read, can show. Agreeing on the counter
`free` stands for agreeing on the bytes nothing has written (logs 6, 8: the model's own). -/
def Obligations.ResultsDependOnInputs : Prop :=
  ∀ (i : Instr) (s1 s2 t1 t2 : State), s1.SameInputs s2 i →
    exec i s1 = .next t1 → exec i s2 = .next t2 →
    t1.busy = t2.busy ∧
    (t1.busy = false →
      t1.status.done = t2.status.done ∧ t1.status.err = t2.status.err ∧ t1.status.result = t2.status.result ∧
      t1.status.errcode = t2.status.errcode ∧ t1.status.lastop = t2.status.lastop ∧
      (t1.status.err = false → ∀ k ∈ i.writes, t1.W k = t2.W k) ∧
      (i.isCipher = true → t1.outLen = t2.outLen ∧ t1.blockSize = t2.blockSize ∧
        ∀ j < bufWindow, t1.outByte j = t2.outByte j))

/-- A change of CTRL while a command runs changes nothing of what the command does (20_memory.md R97, 70 R351). -/
def Obligations.CtrlChangeWhileBusy : Prop :=
  ∀ (i : Instr) (s t : State) (r : Running) (c : Ctrl), s.run = some r → exec i s = .next t →
    exec i { s with ctrl := c } = .next { t with ctrl := c }

/-- Only MRTEST, GENPRIME, KEYGEN and ENC_CBC wait, and they do: ENC_CBC for its iv, the others wherever the test or the sampler has no answer left,
from the first draw on. A waiting command stays BUSY with that draw pending and has changed no result; while the port stays silent it goes on
waiting (10_state.md R57, 60_exceptions.md R318, R319; 45_cipher.md R261). The model's choice: the answers drawn stay with the command, which starts
over on them (log 10). -/
def Obligations.WaitingForEntropy : Prop :=
  (∀ (i : Instr) (s t : State), exec i s = .next t → t.busy = true →
    i.draws = true ∧ t.drawPending ≠ none ∧ t.stream = s.stream ∧ t.wide = s.wide ∧ t.mem = s.mem ∧
    t.outLen = s.outLen ∧
    t.status =
      { done := false, err := false, result := false, ovr := s.status.ovr, errcode := 0, lastop := i.opcode } ∧
    ∃ u, exec i t = .next u ∧ u.busy = true ∧ u.drawPending = t.drawPending) ∧
  ∀ s : State,
    let bs := blockSizeOf (s.W .n)
    let k := s.mrRounds.toNat
    let bits := s.primeBits.toNat
    let limit := s.iterLimit.toNat
    let waits := fun (i : Instr) (req : DrawReq) =>
      ∃ t, exec i s = .next t ∧ t.busy = true ∧ t.drawPending = some req ∧
        ∃ r, t.run = some r ∧ decode r.word = .ok i
    (9 ≤ bitlen (s.W .n) → s.inputLen ≤ s.params.bufBytes → padSize s.inputLen bs ≤ 255 →
      bs + (s.inputLen / bs + 1) * (bs + 1) ≤ s.params.bufBytes → s.stream = [] → waits .encCbc (.bytes bs)) ∧
    (k ≠ 0 →
      (∀ req, mr (s.W .a) k s.stream = .waits req → waits .mrtest req) ∧
      (5 ≤ s.W .a → s.W .a % 2 = 1 → s.stream = [] → waits .mrtest (.range 2 (s.W .a - 2)))) ∧
    (2 ≤ bits → bits ≤ s.params.opw → k ≠ 0 →
      (∀ req, genprime bits k limit s.stream = .waits req → waits .genprime req) ∧
      (limit ≠ 0 → s.stream = [] → waits .genprime (.bits bits))) ∧
    (2 ≤ bits → bits ≤ s.params.opw / 2 → k ≠ 0 →
      (∀ req, keygen bits k limit s.retryLimit.toNat s.stream = .waits req → waits .keygen req) ∧
      (limit ≠ 0 → s.stream = [] → waits .keygen (.bits bits)))

/-! ### Bus -/

/-- Any transfer that is not 32 bits at a multiple of 4 gets ERROR with no effect, and so does an access to an unimplemented offset: a
reserved range, a wide word at or above OPW/32, a buffer byte at or above BUF_BYTES (20_memory.md R84, R85, R86). -/
def Obligations.BusErrors : Prop :=
  (∀ (s : State) (off size : Nat) (v : Word), size ≠ 32 ∨ off % 4 ≠ 0 →
    s.memWrite off size v = .next { s with response := some .writeError } ∧
    s.memRead off size =
      { s with response := some (.readError (Config.freeWord s.free)), free := s.free + readCost }) ∧
  ∀ (s : State) (off : Nat) (v : Word), off % 4 = 0 → off < 0x10000 →
    ((0x0034 ≤ off ∧ off ≤ 0x03FF) ∨ (0x1A00 ≤ off ∧ off ≤ 0x3FFF) ∨ 0xC000 ≤ off ∨
      (0x0400 ≤ off ∧ off ≤ 0x19FF ∧ s.params.opw / 32 ≤ off % 0x200 / 4) ∨
      (0x4000 ≤ off ∧ off ≤ 0x7FFF ∧ s.params.bufBytes ≤ off - 0x4000) ∨
      (0x8000 ≤ off ∧ off ≤ 0xBFFF ∧ s.params.bufBytes ≤ off - 0x8000) ↔ locate s.params off = none) ∧
    (locate s.params off = none →
      s.memWrite off 32 v = .next { s with response := some .writeError } ∧
      s.memRead off 32 =
        { s with response := some (.readError (Config.freeWord s.free)), free := s.free + readCost })

/-- The access types while IDLE: every control register but STATUS reads its current value (ID and the PARAM registers their constants, CMD 0); a
write to a RO register is ignored with OK; a write to a RW register stores the bits written into its implemented fields, reads back with its
reserved bits 0, and changes nothing else, no other control register; a write to STATUS clears the W1C bits written 1, DONE and OVR, and nothing else
(10_state.md R31 to R33, R35 to R39, R50 to R53; 20_memory.md R90, R91). The counter `free` that a read advances is the model's own (log 8). -/
def Obligations.ControlRegisterAccess : Prop :=
  ∀ (s : State) (v : Word), s.run = none →
    (∀ rv ∈ [(CtrlReg.id, (0x45430001 : Word)), (.cmd, 0), (.ctrl, s.ctrl.word), (.mrRounds, s.mrRounds.setWidth 32),
        (.primeBits, s.primeBits.setWidth 32), (.iterLimit, s.iterLimit), (.retryLimit, s.retryLimit),
        (.msgLen, s.msgLen), (.outLen, s.outLen), (.blockSize, s.blockSize),
        (.paramOpw, BitVec.ofNat 32 s.params.opw), (.paramBuf, BitVec.ofNat 32 s.params.bufBytes)],
      s.memRead rv.1.offset 32 = { s with response := some (.readOk rv.2), free := s.free + readCost }) ∧
    (∀ r ∈ [CtrlReg.id, .outLen, .blockSize, .paramOpw, .paramBuf],
      s.memWrite r.offset 32 v = .next { s with response := some .writeOk }) ∧
    s.memWrite CtrlReg.ctrl.offset 32 v = .next
      { s with response := some .writeOk, ctrl := { irqEn := v.getLsbD 0, txtCheck := v.getLsbD 1 } } ∧
    s.memWrite CtrlReg.mrRounds.offset 32 v = .next
      { s with response := some .writeOk, mrRounds := v.extractLsb' 0 16 } ∧
    s.memWrite CtrlReg.primeBits.offset 32 v = .next
      { s with response := some .writeOk, primeBits := v.extractLsb' 0 16 } ∧
    s.memWrite CtrlReg.iterLimit.offset 32 v = .next { s with response := some .writeOk, iterLimit := v } ∧
    s.memWrite CtrlReg.retryLimit.offset 32 v = .next { s with response := some .writeOk, retryLimit := v } ∧
    s.memWrite CtrlReg.msgLen.offset 32 v = .next { s with response := some .writeOk, msgLen := v } ∧
    (∀ rm ∈ [(CtrlReg.ctrl, (0x3 : Word)), (.mrRounds, 0xFFFF), (.primeBits, 0xFFFF), (.iterLimit, 0xFFFFFFFF),
        (.retryLimit, 0xFFFFFFFF), (.msgLen, 0xFFFFFFFF)],
      ∃ t, s.memWrite rm.1.offset 32 v = .next t ∧
        (t.memRead rm.1.offset 32).response = some (.readOk (v &&& rm.2))) ∧
    s.memWrite CtrlReg.status.offset 32 v = .next
      { s with
        response := some .writeOk
        status :=
          { s.status with
            done := if v.getLsbD 1 then false else s.status.done
            ovr := if v.getLsbD 4 then false else s.status.ovr } }

/-- STATUS as the host reads it, in every state, BUSY or IDLE: the fields at their places, the reserved bits 0; and the read changes nothing, it
clears neither DONE nor OVR (10_state.md R34, 20_memory.md R93). The counter `free` that a read advances is the model's own (log 8). -/
def Obligations.StatusWordLayout : Prop :=
  ∀ s : State,
    s.memRead CtrlReg.status.offset 32 =
      { s with response := some (.readOk (s.status.word s.busy)), free := s.free + readCost } ∧
    (s.status.word s.busy).getLsbD 0 = s.busy ∧ (s.status.word s.busy).getLsbD 1 = s.status.done ∧
    (s.status.word s.busy).getLsbD 2 = s.status.err ∧ (s.status.word s.busy).getLsbD 3 = s.status.result ∧
    (s.status.word s.busy).getLsbD 4 = s.status.ovr ∧ (s.status.word s.busy).extractLsb' 5 3 = 0 ∧
    (s.status.word s.busy).extractLsb' 8 4 = s.status.errcode ∧ (s.status.word s.busy).extractLsb' 12 4 = 0 ∧
    (s.status.word s.busy).extractLsb' 16 8 = s.status.lastop ∧ (s.status.word s.busy).extractLsb' 24 8 = 0

/-- While IDLE word i of a wide register, once written, reads bits [32i+31 : 32i] of its value, and before that OK with an UNSPECIFIED word (10_state.md
R46, 93 U2; its form as a free word and the counter `free` are the model's own, logs 7 and 8), and a read changes nothing else; a host write of word i
replaces those bits, leaves the register's other words and everything else of the block, and reads back (20_memory.md R87). -/
def Obligations.WideWordAccess : Prop :=
  ∀ (s : State) (k : WideName) (i : Nat) (v : Word),
    s.run = none → s.params.legal = true → i < s.params.opw / 32 →
    ((s.wide.get k).written.getLsbD i = true →
      s.memRead (k.offset + 4 * i) 32 =
        { s with
          response := some (.readOk (BitVec.ofNat 32 (s.W k / 2 ^ (32 * i))))
          free := s.free + readCost }) ∧
    ((s.wide.get k).written.getLsbD i = false →
      s.memRead (k.offset + 4 * i) 32 =
        { s with response := some (.readOk (Config.freeWord s.free)), free := s.free + readCost }) ∧
    ∃ w : WideReg,
      s.memWrite (k.offset + 4 * i) 32 v = .next
        { s with response := some .writeOk, wide := s.wide.set k w } ∧
      w.val / 2 ^ (32 * i) % 2 ^ 32 = v.toNat ∧
      (∀ j, j ≠ i → w.val / 2 ^ (32 * j) % 2 ^ 32 = s.W k / 2 ^ (32 * j) % 2 ^ 32) ∧
      (∀ j < 128, w.written.getLsbD j = (decide (j = i) || (s.wide.get k).written.getLsbD j)) ∧
      (s.wide.set k w).get k = w ∧ (∀ k', k' ≠ k → (s.wide.set k w).get k' = s.wide.get k') ∧
      ({ s with response := some .writeOk, wide := s.wide.set k w }.memRead (k.offset + 4 * i) 32).response =
        some (.readOk v)

/-- While IDLE a buffer word reads byte 4w + k in its bits [8k+7 : 8k], where that byte holds a value; a host write stores those bits at
byte 4w + k, leaves every other byte and everything else of the block, and reads back (20_memory.md R88). -/
def Obligations.BufferWordAccess : Prop :=
  ∀ (s : State) (b : BufName) (w : Nat) (v : Word),
    s.run = none → s.params.legal = true → 4 * w < s.params.bufBytes →
    (∃ d,
      s.memRead (b.base + 4 * w) 32 = { s with response := some (.readOk d), free := s.free + readCost } ∧
      ∀ k < 4, ∀ v, Memory.read s.mem (b.base + 4 * w + k) = some v → d.extractLsb' (8 * k) 8 = v) ∧
    ∃ m : Memory,
      s.memWrite (b.base + 4 * w) 32 v = .next { s with response := some .writeOk, mem := m } ∧
      (∀ k < 4, Memory.read m (b.base + 4 * w + k) = some (v.extractLsb' (8 * k) 8)) ∧
      (∀ a, ¬ (b.base + 4 * w ≤ a ∧ a < b.base + 4 * w + 4) → Memory.read m a = Memory.read s.mem a) ∧
      ({ s with response := some .writeOk, mem := m }.memRead (b.base + 4 * w) 32).response = some (.readOk v)

/-- While BUSY: a write to CMD, a configuration register, MSG_LEN, a wide or a buffer word is dropped with OVR <- 1; writes to STATUS and
CTRL take effect; a write to a RO register is ignored (20_memory.md R95). -/
def Obligations.BusyWrites : Prop :=
  ∀ (s : State) (v : Word), s.busy = true →
    (∀ off l, off % 4 = 0 → locate s.params off = some l →
      (l ∈ [Loc.ctrl .cmd, .ctrl .mrRounds, .ctrl .primeBits, .ctrl .iterLimit, .ctrl .retryLimit, .ctrl .msgLen] ∨
        (∃ k i, l = .wide k i) ∨ ∃ b j, l = .buf b j) →
      s.memWrite off 32 v = .next { s with response := some .writeOk, status := { s.status with ovr := true } }) ∧
    s.memWrite CtrlReg.ctrl.offset 32 v = .next
      { s with response := some .writeOk, ctrl := { irqEn := v.getLsbD 0, txtCheck := v.getLsbD 1 } } ∧
    s.memWrite CtrlReg.status.offset 32 v = .next
      { s with
        response := some .writeOk
        status :=
          { s.status with
            done := if v.getLsbD 1 then false else s.status.done
            ovr := if v.getLsbD 4 then false else s.status.ovr } } ∧
    ∀ r ∈ [CtrlReg.id, .outLen, .blockSize, .paramOpw, .paramBuf],
      s.memWrite r.offset 32 v = .next { s with response := some .writeOk }

/-- While BUSY: a read of a wide or buffer word, OUT_LEN or BLOCK_SIZE answers OK with an UNSPECIFIED word, drawn again at each read;
ID, STATUS, CTRL, the configuration registers, MSG_LEN and the PARAM registers read their current values, and CMD reads 0; no read changes anything
else (20_memory.md R93, R96; 10_state.md R33). The free word and the counter `free` are the model's own (logs 7 and 8). -/
def Obligations.BusyReads : Prop :=
  ∀ s : State, s.busy = true →
    (∀ off l, off % 4 = 0 → locate s.params off = some l →
      (l = .ctrl .outLen ∨ l = .ctrl .blockSize ∨ (∃ k i, l = .wide k i) ∨ ∃ b j, l = .buf b j) →
      s.memRead off 32 =
        { s with response := some (.readOk (Config.freeWord s.free)), free := s.free + readCost }) ∧
    ∀ rv ∈ [(CtrlReg.id, (0x45430001 : Word)), (.cmd, 0), (.status, s.status.word true), (.ctrl, s.ctrl.word),
        (.mrRounds, s.mrRounds.setWidth 32), (.primeBits, s.primeBits.setWidth 32), (.iterLimit, s.iterLimit),
        (.retryLimit, s.retryLimit), (.msgLen, s.msgLen), (.paramOpw, BitVec.ofNat 32 s.params.opw),
        (.paramBuf, BitVec.ofNat 32 s.params.bufBytes)],
      s.memRead rv.1.offset 32 = { s with response := some (.readOk rv.2), free := s.free + readCost }

/-! ### Reset and invariants -/

/-- The reset table (10_state.md R61), for every block: registers as the host reads them, IDLE, irq 0, no draw pending, no wide word
written and no buffer byte defined. (That an unwritten wide register reads 0 is the model's choice, log 3, and not stated here.) -/
def Obligations.ResetTable : Prop :=
  ∀ p : Params,
    (State.resetWith p).ctrlWord .id = 0x45430001 ∧ (State.resetWith p).ctrlWord .status = 0x00000000 ∧
    (State.resetWith p).ctrlWord .ctrl = 0x00000002 ∧ (State.resetWith p).ctrlWord .mrRounds = 0x00000080 ∧
    (State.resetWith p).ctrlWord .primeBits = 0x00000200 ∧ (State.resetWith p).ctrlWord .iterLimit = 0x00010000 ∧
    (State.resetWith p).ctrlWord .retryLimit = 0x00000400 ∧ (State.resetWith p).ctrlWord .msgLen = 0 ∧
    (State.resetWith p).ctrlWord .outLen = 0 ∧ (State.resetWith p).ctrlWord .blockSize = 0 ∧
    (State.resetWith p).ctrlWord .paramOpw = BitVec.ofNat 32 p.opw ∧
    (State.resetWith p).ctrlWord .paramBuf = BitVec.ofNat 32 p.bufBytes ∧
    (State.resetWith p).run = none ∧ (State.resetWith p).irq = false ∧ (State.resetWith p).drawPending = none ∧
    (∀ k i, ((State.resetWith p).wide.get k).word i = none) ∧ (State.resetWith p).mem = []

/-- Asserting rst at any time, a running command included, gives the reset table: the command commits nothing, its draw is withdrawn,
wide registers and buffers become unwritten, STATUS, CTRL and the configuration registers take their reset values; while rst is asserted the core
does nothing, by its own move or by one it is given, and every transaction of the window gets ERROR and changes nothing; releasing it changes
nothing else, so the block is IDLE (70 R340, R341). THE MODEL'S CHOICE (log 13, with logs 1, 8, 9 and 20): the environment's own fields `inputs`,
`entropy` and `free` outlive the reset, and no response is left pending. What value an unwritten wide register holds (log 3) is not stated. -/
def Obligations.ResetAborts : Prop :=
  (∀ (s : State) (rest : List Event), s.params.legal = true → s.inputs = .rst true :: rest →
    ∃ w : WideFile, (∀ k i, (w.get k).word i = none) ∧
      step s = .next
        { State.resetWith s.params with
          rst := true, wide := w, inputs := rest, entropy := s.entropy, free := s.free }) ∧
  (∀ s : State, s.params.legal = true → s.rst = true →
    (s.inputs = [] → step s = .next s) ∧
    ∀ rest, s.inputs = .core :: rest → step s = .next { s with inputs := rest }) ∧
  (∀ (s : State) (rest : List Event), s.params.legal = true → s.inputs = .rst false :: rest →
    step s = .next { s with rst := false, inputs := rest }) ∧
  ∀ (s : State) (addr size : Nat) (v : Word), s.rst = true →
    s.params.base ≤ addr → addr < s.params.base + 0x10000 →
    s.transact (.write addr size v) = .next { s with response := some .writeError } ∧
    s.transact (.read addr size) = .next
      { s with response := some (.readError (Config.freeWord s.free)), free := s.free + readCost }

/-- The state after reset meets the three invariants below (10_state.md R34, R40, R47, R61). The wide registers' values there, zeros, are the model's
choice (log 3): that they are below 2^OPW rests on it. -/
def Obligations.ResetMeetsInvariants : Prop :=
  State.reset.params.legal = true ∧ State.reset.MemInv ∧ State.reset.wideFits ∧ State.reset.StatusInv

/-- Every step keeps the buffers canonical and inside their BUF_BYTES bytes (10_state.md R47, 45_cipher.md R258). -/
def Obligations.StepKeepsBuffers : Prop := ∀ s t : State, s.MemInv → step s = .next t → t.MemInv

/-- Every step keeps each wide register below 2^OPW (10_state.md R40). -/
def Obligations.StepKeepsWideWidth : Prop := ∀ s t : State, s.wideFits → step s = .next t → t.wideFits

/-- Every step keeps R34's invariant (BUSY = 1 ⇒ DONE = ERR = ERRCODE = RESULT = 0; ERR = 1 ⇔ ERRCODE ≠ 0), ERRCODE at most 9, and
BUSY(op) a command other than NOP with its opcode in LASTOP (10_state.md R34, 60_exceptions.md R300). -/
def Obligations.StepKeepsStatus : Prop := ∀ s t : State, s.StatusInv → step s = .next t → t.StatusInv

/-- No step changes BASE, OPW or BUF_BYTES (10_state.md R53). -/
def Obligations.StepKeepsParameters : Prop := ∀ s t : State, step s = .next t → t.params = s.params
end

