-- ==== Sys2Proof/Laws/State.lean ====
section
/-! SUPPORT. One lemma per field of State per named update, so that no proof unfolds a record update. -/

namespace Sys2Proof.Machine

/-! ### State.accept -/

@[simp] theorem State.accept_params (s : State) (i : Instr) : (s.accept i).params = s.params := rfl
@[simp] theorem State.accept_status (s : State) (i : Instr) :
    (s.accept i).status = s.status.started i.opcode := rfl
@[simp] theorem State.accept_ctrl (s : State) (i : Instr) : (s.accept i).ctrl = s.ctrl := rfl
@[simp] theorem State.accept_mrRounds (s : State) (i : Instr) : (s.accept i).mrRounds = s.mrRounds := rfl
@[simp] theorem State.accept_primeBits (s : State) (i : Instr) : (s.accept i).primeBits = s.primeBits := rfl
@[simp] theorem State.accept_iterLimit (s : State) (i : Instr) : (s.accept i).iterLimit = s.iterLimit := rfl
@[simp] theorem State.accept_retryLimit (s : State) (i : Instr) :
    (s.accept i).retryLimit = s.retryLimit := rfl
@[simp] theorem State.accept_msgLen (s : State) (i : Instr) : (s.accept i).msgLen = s.msgLen := rfl
@[simp] theorem State.accept_outLen (s : State) (i : Instr) : (s.accept i).outLen = s.outLen := rfl
@[simp] theorem State.accept_blockSize (s : State) (i : Instr) : (s.accept i).blockSize = s.blockSize := rfl
@[simp] theorem State.accept_wide (s : State) (i : Instr) : (s.accept i).wide = s.wide := rfl
@[simp] theorem State.accept_mem (s : State) (i : Instr) : (s.accept i).mem = s.mem := rfl
@[simp] theorem State.accept_run (s : State) (i : Instr) : (s.accept i).run = s.run := rfl
@[simp] theorem State.accept_drawPending (s : State) (i : Instr) :
    (s.accept i).drawPending = s.drawPending := rfl
@[simp] theorem State.accept_rst (s : State) (i : Instr) : (s.accept i).rst = s.rst := rfl
@[simp] theorem State.accept_response (s : State) (i : Instr) : (s.accept i).response = s.response := rfl
@[simp] theorem State.accept_inputs (s : State) (i : Instr) : (s.accept i).inputs = s.inputs := rfl
@[simp] theorem State.accept_entropy (s : State) (i : Instr) : (s.accept i).entropy = s.entropy := rfl
@[simp] theorem State.accept_free (s : State) (i : Instr) : (s.accept i).free = s.free := rfl

/-! ### State.launch -/

@[simp] theorem State.launch_params (s : State) (i : Instr) (v : Word) :
    (s.launch i v).params = s.params := rfl
@[simp] theorem State.launch_status (s : State) (i : Instr) (v : Word) :
    (s.launch i v).status = s.status.started i.opcode := rfl
@[simp] theorem State.launch_ctrl (s : State) (i : Instr) (v : Word) : (s.launch i v).ctrl = s.ctrl := rfl
@[simp] theorem State.launch_mrRounds (s : State) (i : Instr) (v : Word) :
    (s.launch i v).mrRounds = s.mrRounds := rfl
@[simp] theorem State.launch_primeBits (s : State) (i : Instr) (v : Word) :
    (s.launch i v).primeBits = s.primeBits := rfl
@[simp] theorem State.launch_iterLimit (s : State) (i : Instr) (v : Word) :
    (s.launch i v).iterLimit = s.iterLimit := rfl
@[simp] theorem State.launch_retryLimit (s : State) (i : Instr) (v : Word) :
    (s.launch i v).retryLimit = s.retryLimit := rfl
@[simp] theorem State.launch_msgLen (s : State) (i : Instr) (v : Word) :
    (s.launch i v).msgLen = s.msgLen := rfl
@[simp] theorem State.launch_outLen (s : State) (i : Instr) (v : Word) :
    (s.launch i v).outLen = s.outLen := rfl
@[simp] theorem State.launch_blockSize (s : State) (i : Instr) (v : Word) :
    (s.launch i v).blockSize = s.blockSize := rfl
@[simp] theorem State.launch_wide (s : State) (i : Instr) (v : Word) : (s.launch i v).wide = s.wide := rfl
@[simp] theorem State.launch_mem (s : State) (i : Instr) (v : Word) : (s.launch i v).mem = s.mem := rfl
@[simp] theorem State.launch_run (s : State) (i : Instr) (v : Word) :
    (s.launch i v).run = some { word := v, txtCheck := s.ctrl.txtCheck, answers := [] } := rfl
@[simp] theorem State.launch_drawPending (s : State) (i : Instr) (v : Word) :
    (s.launch i v).drawPending = none := rfl
@[simp] theorem State.launch_rst (s : State) (i : Instr) (v : Word) : (s.launch i v).rst = s.rst := rfl
@[simp] theorem State.launch_response (s : State) (i : Instr) (v : Word) :
    (s.launch i v).response = s.response := rfl
@[simp] theorem State.launch_inputs (s : State) (i : Instr) (v : Word) :
    (s.launch i v).inputs = s.inputs := rfl
@[simp] theorem State.launch_entropy (s : State) (i : Instr) (v : Word) :
    (s.launch i v).entropy = s.entropy := rfl
@[simp] theorem State.launch_free (s : State) (i : Instr) (v : Word) : (s.launch i v).free = s.free := rfl

/-! ### State.finish -/

@[simp] theorem State.finish_params (s : State) : (s.finish).params = s.params := rfl
@[simp] theorem State.finish_status (s : State) : (s.finish).status = s.status.finished := rfl
@[simp] theorem State.finish_ctrl (s : State) : (s.finish).ctrl = s.ctrl := rfl
@[simp] theorem State.finish_mrRounds (s : State) : (s.finish).mrRounds = s.mrRounds := rfl
@[simp] theorem State.finish_primeBits (s : State) : (s.finish).primeBits = s.primeBits := rfl
@[simp] theorem State.finish_iterLimit (s : State) : (s.finish).iterLimit = s.iterLimit := rfl
@[simp] theorem State.finish_retryLimit (s : State) : (s.finish).retryLimit = s.retryLimit := rfl
@[simp] theorem State.finish_msgLen (s : State) : (s.finish).msgLen = s.msgLen := rfl
@[simp] theorem State.finish_outLen (s : State) : (s.finish).outLen = s.outLen := rfl
@[simp] theorem State.finish_blockSize (s : State) : (s.finish).blockSize = s.blockSize := rfl
@[simp] theorem State.finish_wide (s : State) : (s.finish).wide = s.wide := rfl
@[simp] theorem State.finish_mem (s : State) : (s.finish).mem = s.mem := rfl
@[simp] theorem State.finish_run (s : State) : (s.finish).run = none := rfl
@[simp] theorem State.finish_drawPending (s : State) : (s.finish).drawPending = none := rfl
@[simp] theorem State.finish_rst (s : State) : (s.finish).rst = s.rst := rfl
@[simp] theorem State.finish_response (s : State) : (s.finish).response = s.response := rfl
@[simp] theorem State.finish_inputs (s : State) : (s.finish).inputs = s.inputs := rfl
@[simp] theorem State.finish_entropy (s : State) : (s.finish).entropy = s.entropy := rfl
@[simp] theorem State.finish_free (s : State) : (s.finish).free = s.free := rfl

/-! ### State.dropOutput -/

@[simp] theorem State.dropOutput_params (s : State) : (s.dropOutput).params = s.params := rfl
@[simp] theorem State.dropOutput_status (s : State) : (s.dropOutput).status = s.status := rfl
@[simp] theorem State.dropOutput_ctrl (s : State) : (s.dropOutput).ctrl = s.ctrl := rfl
@[simp] theorem State.dropOutput_mrRounds (s : State) : (s.dropOutput).mrRounds = s.mrRounds := rfl
@[simp] theorem State.dropOutput_primeBits (s : State) : (s.dropOutput).primeBits = s.primeBits := rfl
@[simp] theorem State.dropOutput_iterLimit (s : State) : (s.dropOutput).iterLimit = s.iterLimit := rfl
@[simp] theorem State.dropOutput_retryLimit (s : State) : (s.dropOutput).retryLimit = s.retryLimit := rfl
@[simp] theorem State.dropOutput_msgLen (s : State) : (s.dropOutput).msgLen = s.msgLen := rfl
@[simp] theorem State.dropOutput_outLen (s : State) : (s.dropOutput).outLen = 0 := rfl
@[simp] theorem State.dropOutput_blockSize (s : State) : (s.dropOutput).blockSize = s.blockSize := rfl
@[simp] theorem State.dropOutput_wide (s : State) : (s.dropOutput).wide = s.wide := rfl
@[simp] theorem State.dropOutput_mem (s : State) :
    (s.dropOutput).mem = Memory.erase s.mem outBase (outBase + bufWindow) := rfl
@[simp] theorem State.dropOutput_run (s : State) : (s.dropOutput).run = s.run := rfl
@[simp] theorem State.dropOutput_drawPending (s : State) : (s.dropOutput).drawPending = s.drawPending := rfl
@[simp] theorem State.dropOutput_rst (s : State) : (s.dropOutput).rst = s.rst := rfl
@[simp] theorem State.dropOutput_response (s : State) : (s.dropOutput).response = s.response := rfl
@[simp] theorem State.dropOutput_inputs (s : State) : (s.dropOutput).inputs = s.inputs := rfl
@[simp] theorem State.dropOutput_entropy (s : State) : (s.dropOutput).entropy = s.entropy := rfl
@[simp] theorem State.dropOutput_free (s : State) : (s.dropOutput).free = s.free := rfl

/-! ### State.illegal -/

@[simp] theorem State.illegal_params (s : State) (v : Word) : (s.illegal v).params = s.params := rfl
@[simp] theorem State.illegal_status (s : State) (v : Word) :
    (s.illegal v).status = (s.status.started (wordOpcode v)).failed .illegalCommand := rfl
@[simp] theorem State.illegal_ctrl (s : State) (v : Word) : (s.illegal v).ctrl = s.ctrl := rfl
@[simp] theorem State.illegal_mrRounds (s : State) (v : Word) : (s.illegal v).mrRounds = s.mrRounds := rfl
@[simp] theorem State.illegal_primeBits (s : State) (v : Word) : (s.illegal v).primeBits = s.primeBits := rfl
@[simp] theorem State.illegal_iterLimit (s : State) (v : Word) : (s.illegal v).iterLimit = s.iterLimit := rfl
@[simp] theorem State.illegal_retryLimit (s : State) (v : Word) :
    (s.illegal v).retryLimit = s.retryLimit := rfl
@[simp] theorem State.illegal_msgLen (s : State) (v : Word) : (s.illegal v).msgLen = s.msgLen := rfl
@[simp] theorem State.illegal_outLen (s : State) (v : Word) : (s.illegal v).outLen = s.outLen := rfl
@[simp] theorem State.illegal_blockSize (s : State) (v : Word) : (s.illegal v).blockSize = s.blockSize := rfl
@[simp] theorem State.illegal_wide (s : State) (v : Word) : (s.illegal v).wide = s.wide := rfl
@[simp] theorem State.illegal_mem (s : State) (v : Word) : (s.illegal v).mem = s.mem := rfl
@[simp] theorem State.illegal_run (s : State) (v : Word) : (s.illegal v).run = s.run := rfl
@[simp] theorem State.illegal_drawPending (s : State) (v : Word) :
    (s.illegal v).drawPending = s.drawPending := rfl
@[simp] theorem State.illegal_rst (s : State) (v : Word) : (s.illegal v).rst = s.rst := rfl
@[simp] theorem State.illegal_response (s : State) (v : Word) : (s.illegal v).response = s.response := rfl
@[simp] theorem State.illegal_inputs (s : State) (v : Word) : (s.illegal v).inputs = s.inputs := rfl
@[simp] theorem State.illegal_entropy (s : State) (v : Word) : (s.illegal v).entropy = s.entropy := rfl
@[simp] theorem State.illegal_free (s : State) (v : Word) : (s.illegal v).free = s.free := rfl

/-! ### State.acknowledge -/

@[simp] theorem State.acknowledge_params (s : State) (v : Word) : (s.acknowledge v).params = s.params := rfl
@[simp] theorem State.acknowledge_status (s : State) (v : Word) :
    (s.acknowledge v).status = s.status.acknowledged v := rfl
@[simp] theorem State.acknowledge_ctrl (s : State) (v : Word) : (s.acknowledge v).ctrl = s.ctrl := rfl
@[simp] theorem State.acknowledge_mrRounds (s : State) (v : Word) :
    (s.acknowledge v).mrRounds = s.mrRounds := rfl
@[simp] theorem State.acknowledge_primeBits (s : State) (v : Word) :
    (s.acknowledge v).primeBits = s.primeBits := rfl
@[simp] theorem State.acknowledge_iterLimit (s : State) (v : Word) :
    (s.acknowledge v).iterLimit = s.iterLimit := rfl
@[simp] theorem State.acknowledge_retryLimit (s : State) (v : Word) :
    (s.acknowledge v).retryLimit = s.retryLimit := rfl
@[simp] theorem State.acknowledge_msgLen (s : State) (v : Word) : (s.acknowledge v).msgLen = s.msgLen := rfl
@[simp] theorem State.acknowledge_outLen (s : State) (v : Word) : (s.acknowledge v).outLen = s.outLen := rfl
@[simp] theorem State.acknowledge_blockSize (s : State) (v : Word) :
    (s.acknowledge v).blockSize = s.blockSize := rfl
@[simp] theorem State.acknowledge_wide (s : State) (v : Word) : (s.acknowledge v).wide = s.wide := rfl
@[simp] theorem State.acknowledge_mem (s : State) (v : Word) : (s.acknowledge v).mem = s.mem := rfl
@[simp] theorem State.acknowledge_run (s : State) (v : Word) : (s.acknowledge v).run = s.run := rfl
@[simp] theorem State.acknowledge_drawPending (s : State) (v : Word) :
    (s.acknowledge v).drawPending = s.drawPending := rfl
@[simp] theorem State.acknowledge_rst (s : State) (v : Word) : (s.acknowledge v).rst = s.rst := rfl
@[simp] theorem State.acknowledge_response (s : State) (v : Word) :
    (s.acknowledge v).response = s.response := rfl
@[simp] theorem State.acknowledge_inputs (s : State) (v : Word) : (s.acknowledge v).inputs = s.inputs := rfl
@[simp] theorem State.acknowledge_entropy (s : State) (v : Word) :
    (s.acknowledge v).entropy = s.entropy := rfl
@[simp] theorem State.acknowledge_free (s : State) (v : Word) : (s.acknowledge v).free = s.free := rfl

/-! ### State.waitFor -/

@[simp] theorem State.waitFor_params (s : State) (i : Instr) (req : DrawReq) :
    (s.waitFor i req).params = s.params := rfl
@[simp] theorem State.waitFor_status (s : State) (i : Instr) (req : DrawReq) :
    (s.waitFor i req).status = s.status := rfl
@[simp] theorem State.waitFor_ctrl (s : State) (i : Instr) (req : DrawReq) :
    (s.waitFor i req).ctrl = s.ctrl := rfl
@[simp] theorem State.waitFor_mrRounds (s : State) (i : Instr) (req : DrawReq) :
    (s.waitFor i req).mrRounds = s.mrRounds := rfl
@[simp] theorem State.waitFor_primeBits (s : State) (i : Instr) (req : DrawReq) :
    (s.waitFor i req).primeBits = s.primeBits := rfl
@[simp] theorem State.waitFor_iterLimit (s : State) (i : Instr) (req : DrawReq) :
    (s.waitFor i req).iterLimit = s.iterLimit := rfl
@[simp] theorem State.waitFor_retryLimit (s : State) (i : Instr) (req : DrawReq) :
    (s.waitFor i req).retryLimit = s.retryLimit := rfl
@[simp] theorem State.waitFor_msgLen (s : State) (i : Instr) (req : DrawReq) :
    (s.waitFor i req).msgLen = s.msgLen := rfl
@[simp] theorem State.waitFor_outLen (s : State) (i : Instr) (req : DrawReq) :
    (s.waitFor i req).outLen = s.outLen := rfl
@[simp] theorem State.waitFor_blockSize (s : State) (i : Instr) (req : DrawReq) :
    (s.waitFor i req).blockSize = s.blockSize := rfl
@[simp] theorem State.waitFor_wide (s : State) (i : Instr) (req : DrawReq) :
    (s.waitFor i req).wide = s.wide := rfl
@[simp] theorem State.waitFor_mem (s : State) (i : Instr) (req : DrawReq) :
    (s.waitFor i req).mem = s.mem := rfl
@[simp] theorem State.waitFor_run (s : State) (i : Instr) (req : DrawReq) :
    (s.waitFor i req).run = some { word := encode i, txtCheck := s.txtSnapshot, answers := s.stream } := rfl
@[simp] theorem State.waitFor_drawPending (s : State) (i : Instr) (req : DrawReq) :
    (s.waitFor i req).drawPending = some req := rfl
@[simp] theorem State.waitFor_rst (s : State) (i : Instr) (req : DrawReq) :
    (s.waitFor i req).rst = s.rst := rfl
@[simp] theorem State.waitFor_response (s : State) (i : Instr) (req : DrawReq) :
    (s.waitFor i req).response = s.response := rfl
@[simp] theorem State.waitFor_inputs (s : State) (i : Instr) (req : DrawReq) :
    (s.waitFor i req).inputs = s.inputs := rfl
@[simp] theorem State.waitFor_entropy (s : State) (i : Instr) (req : DrawReq) :
    (s.waitFor i req).entropy = [] := rfl
@[simp] theorem State.waitFor_free (s : State) (i : Instr) (req : DrawReq) :
    (s.waitFor i req).free = s.free := rfl

/-! ### State.withEntropy -/

@[simp] theorem State.withEntropy_params (s : State) (rest : List Nat) :
    (s.withEntropy rest).params = s.params := rfl
@[simp] theorem State.withEntropy_status (s : State) (rest : List Nat) :
    (s.withEntropy rest).status = s.status := rfl
@[simp] theorem State.withEntropy_ctrl (s : State) (rest : List Nat) :
    (s.withEntropy rest).ctrl = s.ctrl := rfl
@[simp] theorem State.withEntropy_mrRounds (s : State) (rest : List Nat) :
    (s.withEntropy rest).mrRounds = s.mrRounds := rfl
@[simp] theorem State.withEntropy_primeBits (s : State) (rest : List Nat) :
    (s.withEntropy rest).primeBits = s.primeBits := rfl
@[simp] theorem State.withEntropy_iterLimit (s : State) (rest : List Nat) :
    (s.withEntropy rest).iterLimit = s.iterLimit := rfl
@[simp] theorem State.withEntropy_retryLimit (s : State) (rest : List Nat) :
    (s.withEntropy rest).retryLimit = s.retryLimit := rfl
@[simp] theorem State.withEntropy_msgLen (s : State) (rest : List Nat) :
    (s.withEntropy rest).msgLen = s.msgLen := rfl
@[simp] theorem State.withEntropy_outLen (s : State) (rest : List Nat) :
    (s.withEntropy rest).outLen = s.outLen := rfl
@[simp] theorem State.withEntropy_blockSize (s : State) (rest : List Nat) :
    (s.withEntropy rest).blockSize = s.blockSize := rfl
@[simp] theorem State.withEntropy_wide (s : State) (rest : List Nat) :
    (s.withEntropy rest).wide = s.wide := rfl
@[simp] theorem State.withEntropy_mem (s : State) (rest : List Nat) : (s.withEntropy rest).mem = s.mem := rfl
@[simp] theorem State.withEntropy_run (s : State) (rest : List Nat) : (s.withEntropy rest).run = s.run := rfl
@[simp] theorem State.withEntropy_drawPending (s : State) (rest : List Nat) :
    (s.withEntropy rest).drawPending = s.drawPending := rfl
@[simp] theorem State.withEntropy_rst (s : State) (rest : List Nat) : (s.withEntropy rest).rst = s.rst := rfl
@[simp] theorem State.withEntropy_response (s : State) (rest : List Nat) :
    (s.withEntropy rest).response = s.response := rfl
@[simp] theorem State.withEntropy_inputs (s : State) (rest : List Nat) :
    (s.withEntropy rest).inputs = s.inputs := rfl
@[simp] theorem State.withEntropy_entropy (s : State) (rest : List Nat) :
    (s.withEntropy rest).entropy = rest := rfl
@[simp] theorem State.withEntropy_free (s : State) (rest : List Nat) :
    (s.withEntropy rest).free = s.free := rfl

/-! ### State.setW -/

@[simp] theorem State.setW_params (s : State) (k : WideName) (v : Nat) : (s.setW k v).params = s.params := rfl
@[simp] theorem State.setW_status (s : State) (k : WideName) (v : Nat) : (s.setW k v).status = s.status := rfl
@[simp] theorem State.setW_ctrl (s : State) (k : WideName) (v : Nat) : (s.setW k v).ctrl = s.ctrl := rfl
@[simp] theorem State.setW_mrRounds (s : State) (k : WideName) (v : Nat) :
    (s.setW k v).mrRounds = s.mrRounds := rfl
@[simp] theorem State.setW_primeBits (s : State) (k : WideName) (v : Nat) :
    (s.setW k v).primeBits = s.primeBits := rfl
@[simp] theorem State.setW_iterLimit (s : State) (k : WideName) (v : Nat) :
    (s.setW k v).iterLimit = s.iterLimit := rfl
@[simp] theorem State.setW_retryLimit (s : State) (k : WideName) (v : Nat) :
    (s.setW k v).retryLimit = s.retryLimit := rfl
@[simp] theorem State.setW_msgLen (s : State) (k : WideName) (v : Nat) : (s.setW k v).msgLen = s.msgLen := rfl
@[simp] theorem State.setW_outLen (s : State) (k : WideName) (v : Nat) : (s.setW k v).outLen = s.outLen := rfl
@[simp] theorem State.setW_blockSize (s : State) (k : WideName) (v : Nat) :
    (s.setW k v).blockSize = s.blockSize := rfl
@[simp] theorem State.setW_wide (s : State) (k : WideName) (v : Nat) :
    (s.setW k v).wide = s.wide.set k { val := v % 2 ^ s.params.opw, written := BitVec.allOnes 128 } := rfl
@[simp] theorem State.setW_mem (s : State) (k : WideName) (v : Nat) : (s.setW k v).mem = s.mem := rfl
@[simp] theorem State.setW_run (s : State) (k : WideName) (v : Nat) : (s.setW k v).run = s.run := rfl
@[simp] theorem State.setW_drawPending (s : State) (k : WideName) (v : Nat) :
    (s.setW k v).drawPending = s.drawPending := rfl
@[simp] theorem State.setW_rst (s : State) (k : WideName) (v : Nat) : (s.setW k v).rst = s.rst := rfl
@[simp] theorem State.setW_response (s : State) (k : WideName) (v : Nat) :
    (s.setW k v).response = s.response := rfl
@[simp] theorem State.setW_inputs (s : State) (k : WideName) (v : Nat) : (s.setW k v).inputs = s.inputs := rfl
@[simp] theorem State.setW_entropy (s : State) (k : WideName) (v : Nat) :
    (s.setW k v).entropy = s.entropy := rfl
@[simp] theorem State.setW_free (s : State) (k : WideName) (v : Nat) : (s.setW k v).free = s.free := rfl

/-! ### State.setWideWord -/

@[simp] theorem State.setWideWord_params (s : State) (k : WideName) (i : Nat) (w : Word) :
    (s.setWideWord k i w).params = s.params := rfl
@[simp] theorem State.setWideWord_status (s : State) (k : WideName) (i : Nat) (w : Word) :
    (s.setWideWord k i w).status = s.status := rfl
@[simp] theorem State.setWideWord_ctrl (s : State) (k : WideName) (i : Nat) (w : Word) :
    (s.setWideWord k i w).ctrl = s.ctrl := rfl
@[simp] theorem State.setWideWord_mrRounds (s : State) (k : WideName) (i : Nat) (w : Word) :
    (s.setWideWord k i w).mrRounds = s.mrRounds := rfl
@[simp] theorem State.setWideWord_primeBits (s : State) (k : WideName) (i : Nat) (w : Word) :
    (s.setWideWord k i w).primeBits = s.primeBits := rfl
@[simp] theorem State.setWideWord_iterLimit (s : State) (k : WideName) (i : Nat) (w : Word) :
    (s.setWideWord k i w).iterLimit = s.iterLimit := rfl
@[simp] theorem State.setWideWord_retryLimit (s : State) (k : WideName) (i : Nat) (w : Word) :
    (s.setWideWord k i w).retryLimit = s.retryLimit := rfl
@[simp] theorem State.setWideWord_msgLen (s : State) (k : WideName) (i : Nat) (w : Word) :
    (s.setWideWord k i w).msgLen = s.msgLen := rfl
@[simp] theorem State.setWideWord_outLen (s : State) (k : WideName) (i : Nat) (w : Word) :
    (s.setWideWord k i w).outLen = s.outLen := rfl
@[simp] theorem State.setWideWord_blockSize (s : State) (k : WideName) (i : Nat) (w : Word) :
    (s.setWideWord k i w).blockSize = s.blockSize := rfl
@[simp] theorem State.setWideWord_wide (s : State) (k : WideName) (i : Nat) (w : Word) :
    (s.setWideWord k i w).wide = s.wide.set k
      { val := replaceWord (s.wide.get k).val i w, written := (s.wide.get k).written ||| (1#128 <<< i) } := rfl
@[simp] theorem State.setWideWord_mem (s : State) (k : WideName) (i : Nat) (w : Word) :
    (s.setWideWord k i w).mem = s.mem := rfl
@[simp] theorem State.setWideWord_run (s : State) (k : WideName) (i : Nat) (w : Word) :
    (s.setWideWord k i w).run = s.run := rfl
@[simp] theorem State.setWideWord_drawPending (s : State) (k : WideName) (i : Nat) (w : Word) :
    (s.setWideWord k i w).drawPending = s.drawPending := rfl
@[simp] theorem State.setWideWord_rst (s : State) (k : WideName) (i : Nat) (w : Word) :
    (s.setWideWord k i w).rst = s.rst := rfl
@[simp] theorem State.setWideWord_response (s : State) (k : WideName) (i : Nat) (w : Word) :
    (s.setWideWord k i w).response = s.response := rfl
@[simp] theorem State.setWideWord_inputs (s : State) (k : WideName) (i : Nat) (w : Word) :
    (s.setWideWord k i w).inputs = s.inputs := rfl
@[simp] theorem State.setWideWord_entropy (s : State) (k : WideName) (i : Nat) (w : Word) :
    (s.setWideWord k i w).entropy = s.entropy := rfl
@[simp] theorem State.setWideWord_free (s : State) (k : WideName) (i : Nat) (w : Word) :
    (s.setWideWord k i w).free = s.free := rfl

/-! ### State.setOutput -/

@[simp] theorem State.setOutput_params (s : State) (out : List Byte) :
    (s.setOutput out).params = s.params := rfl
@[simp] theorem State.setOutput_status (s : State) (out : List Byte) :
    (s.setOutput out).status = s.status := rfl
@[simp] theorem State.setOutput_ctrl (s : State) (out : List Byte) : (s.setOutput out).ctrl = s.ctrl := rfl
@[simp] theorem State.setOutput_mrRounds (s : State) (out : List Byte) :
    (s.setOutput out).mrRounds = s.mrRounds := rfl
@[simp] theorem State.setOutput_primeBits (s : State) (out : List Byte) :
    (s.setOutput out).primeBits = s.primeBits := rfl
@[simp] theorem State.setOutput_iterLimit (s : State) (out : List Byte) :
    (s.setOutput out).iterLimit = s.iterLimit := rfl
@[simp] theorem State.setOutput_retryLimit (s : State) (out : List Byte) :
    (s.setOutput out).retryLimit = s.retryLimit := rfl
@[simp] theorem State.setOutput_msgLen (s : State) (out : List Byte) :
    (s.setOutput out).msgLen = s.msgLen := rfl
@[simp] theorem State.setOutput_outLen (s : State) (out : List Byte) :
    (s.setOutput out).outLen = BitVec.ofNat 32 out.length := rfl
@[simp] theorem State.setOutput_blockSize (s : State) (out : List Byte) :
    (s.setOutput out).blockSize = s.blockSize := rfl
@[simp] theorem State.setOutput_wide (s : State) (out : List Byte) : (s.setOutput out).wide = s.wide := rfl
@[simp] theorem State.setOutput_mem (s : State) (out : List Byte) :
    (s.setOutput out).mem = Memory.writeBytes (Memory.erase s.mem outBase (outBase + bufWindow)) outBase out := rfl
@[simp] theorem State.setOutput_run (s : State) (out : List Byte) : (s.setOutput out).run = s.run := rfl
@[simp] theorem State.setOutput_drawPending (s : State) (out : List Byte) :
    (s.setOutput out).drawPending = s.drawPending := rfl
@[simp] theorem State.setOutput_rst (s : State) (out : List Byte) : (s.setOutput out).rst = s.rst := rfl
@[simp] theorem State.setOutput_response (s : State) (out : List Byte) :
    (s.setOutput out).response = s.response := rfl
@[simp] theorem State.setOutput_inputs (s : State) (out : List Byte) :
    (s.setOutput out).inputs = s.inputs := rfl
@[simp] theorem State.setOutput_entropy (s : State) (out : List Byte) :
    (s.setOutput out).entropy = s.entropy := rfl
@[simp] theorem State.setOutput_free (s : State) (out : List Byte) : (s.setOutput out).free = s.free := rfl

/-! ### State.setBlockSize -/

@[simp] theorem State.setBlockSize_params (s : State) (bs : Nat) :
    (s.setBlockSize bs).params = s.params := rfl
@[simp] theorem State.setBlockSize_status (s : State) (bs : Nat) :
    (s.setBlockSize bs).status = s.status := rfl
@[simp] theorem State.setBlockSize_ctrl (s : State) (bs : Nat) : (s.setBlockSize bs).ctrl = s.ctrl := rfl
@[simp] theorem State.setBlockSize_mrRounds (s : State) (bs : Nat) :
    (s.setBlockSize bs).mrRounds = s.mrRounds := rfl
@[simp] theorem State.setBlockSize_primeBits (s : State) (bs : Nat) :
    (s.setBlockSize bs).primeBits = s.primeBits := rfl
@[simp] theorem State.setBlockSize_iterLimit (s : State) (bs : Nat) :
    (s.setBlockSize bs).iterLimit = s.iterLimit := rfl
@[simp] theorem State.setBlockSize_retryLimit (s : State) (bs : Nat) :
    (s.setBlockSize bs).retryLimit = s.retryLimit := rfl
@[simp] theorem State.setBlockSize_msgLen (s : State) (bs : Nat) :
    (s.setBlockSize bs).msgLen = s.msgLen := rfl
@[simp] theorem State.setBlockSize_outLen (s : State) (bs : Nat) :
    (s.setBlockSize bs).outLen = s.outLen := rfl
@[simp] theorem State.setBlockSize_blockSize (s : State) (bs : Nat) :
    (s.setBlockSize bs).blockSize = BitVec.ofNat 32 bs := rfl
@[simp] theorem State.setBlockSize_wide (s : State) (bs : Nat) : (s.setBlockSize bs).wide = s.wide := rfl
@[simp] theorem State.setBlockSize_mem (s : State) (bs : Nat) : (s.setBlockSize bs).mem = s.mem := rfl
@[simp] theorem State.setBlockSize_run (s : State) (bs : Nat) : (s.setBlockSize bs).run = s.run := rfl
@[simp] theorem State.setBlockSize_drawPending (s : State) (bs : Nat) :
    (s.setBlockSize bs).drawPending = s.drawPending := rfl
@[simp] theorem State.setBlockSize_rst (s : State) (bs : Nat) : (s.setBlockSize bs).rst = s.rst := rfl
@[simp] theorem State.setBlockSize_response (s : State) (bs : Nat) :
    (s.setBlockSize bs).response = s.response := rfl
@[simp] theorem State.setBlockSize_inputs (s : State) (bs : Nat) :
    (s.setBlockSize bs).inputs = s.inputs := rfl
@[simp] theorem State.setBlockSize_entropy (s : State) (bs : Nat) :
    (s.setBlockSize bs).entropy = s.entropy := rfl
@[simp] theorem State.setBlockSize_free (s : State) (bs : Nat) : (s.setBlockSize bs).free = s.free := rfl

/-! ### State.useInput -/

@[simp] theorem State.useInput_params (s : State) : (s.useInput).params = s.params := rfl
@[simp] theorem State.useInput_status (s : State) : (s.useInput).status = s.status := rfl
@[simp] theorem State.useInput_ctrl (s : State) : (s.useInput).ctrl = s.ctrl := rfl
@[simp] theorem State.useInput_mrRounds (s : State) : (s.useInput).mrRounds = s.mrRounds := rfl
@[simp] theorem State.useInput_primeBits (s : State) : (s.useInput).primeBits = s.primeBits := rfl
@[simp] theorem State.useInput_iterLimit (s : State) : (s.useInput).iterLimit = s.iterLimit := rfl
@[simp] theorem State.useInput_retryLimit (s : State) : (s.useInput).retryLimit = s.retryLimit := rfl
@[simp] theorem State.useInput_msgLen (s : State) : (s.useInput).msgLen = s.msgLen := rfl
@[simp] theorem State.useInput_outLen (s : State) : (s.useInput).outLen = s.outLen := rfl
@[simp] theorem State.useInput_blockSize (s : State) : (s.useInput).blockSize = s.blockSize := rfl
@[simp] theorem State.useInput_wide (s : State) : (s.useInput).wide = s.wide := rfl
@[simp] theorem State.useInput_mem (s : State) : (s.useInput).mem = s.mem := rfl
@[simp] theorem State.useInput_run (s : State) : (s.useInput).run = s.run := rfl
@[simp] theorem State.useInput_drawPending (s : State) : (s.useInput).drawPending = s.drawPending := rfl
@[simp] theorem State.useInput_rst (s : State) : (s.useInput).rst = s.rst := rfl
@[simp] theorem State.useInput_response (s : State) : (s.useInput).response = s.response := rfl
@[simp] theorem State.useInput_inputs (s : State) : (s.useInput).inputs = s.inputs := rfl
@[simp] theorem State.useInput_entropy (s : State) : (s.useInput).entropy = s.entropy := rfl
@[simp] theorem State.useInput_free (s : State) :
    (s.useInput).free = s.free + min s.inputLen s.params.bufBytes := rfl

/-! ### State.startCipher -/

@[simp] theorem State.startCipher_params (s : State) (i : Instr) : (s.startCipher i).params = s.params := rfl
@[simp] theorem State.startCipher_status (s : State) (i : Instr) :
    (s.startCipher i).status = s.status.started i.opcode := rfl
@[simp] theorem State.startCipher_ctrl (s : State) (i : Instr) : (s.startCipher i).ctrl = s.ctrl := rfl
@[simp] theorem State.startCipher_mrRounds (s : State) (i : Instr) :
    (s.startCipher i).mrRounds = s.mrRounds := rfl
@[simp] theorem State.startCipher_primeBits (s : State) (i : Instr) :
    (s.startCipher i).primeBits = s.primeBits := rfl
@[simp] theorem State.startCipher_iterLimit (s : State) (i : Instr) :
    (s.startCipher i).iterLimit = s.iterLimit := rfl
@[simp] theorem State.startCipher_retryLimit (s : State) (i : Instr) :
    (s.startCipher i).retryLimit = s.retryLimit := rfl
@[simp] theorem State.startCipher_msgLen (s : State) (i : Instr) : (s.startCipher i).msgLen = s.msgLen := rfl
@[simp] theorem State.startCipher_outLen (s : State) (i : Instr) : (s.startCipher i).outLen = s.outLen := rfl
@[simp] theorem State.startCipher_blockSize (s : State) (i : Instr) :
    (s.startCipher i).blockSize = BitVec.ofNat 32 (blockSizeOf (s.W .n)) := rfl
@[simp] theorem State.startCipher_wide (s : State) (i : Instr) : (s.startCipher i).wide = s.wide := rfl
@[simp] theorem State.startCipher_mem (s : State) (i : Instr) : (s.startCipher i).mem = s.mem := rfl
@[simp] theorem State.startCipher_run (s : State) (i : Instr) : (s.startCipher i).run = s.run := rfl
@[simp] theorem State.startCipher_drawPending (s : State) (i : Instr) :
    (s.startCipher i).drawPending = s.drawPending := rfl
@[simp] theorem State.startCipher_rst (s : State) (i : Instr) : (s.startCipher i).rst = s.rst := rfl
@[simp] theorem State.startCipher_response (s : State) (i : Instr) :
    (s.startCipher i).response = s.response := rfl
@[simp] theorem State.startCipher_inputs (s : State) (i : Instr) : (s.startCipher i).inputs = s.inputs := rfl
@[simp] theorem State.startCipher_entropy (s : State) (i : Instr) :
    (s.startCipher i).entropy = s.entropy := rfl
@[simp] theorem State.startCipher_free (s : State) (i : Instr) :
    (s.startCipher i).free = s.free + min s.inputLen s.params.bufBytes := rfl

/-! ### State.respond -/

@[simp] theorem State.respond_params (s : State) (r : Response) : (s.respond r).params = s.params := rfl
@[simp] theorem State.respond_status (s : State) (r : Response) : (s.respond r).status = s.status := rfl
@[simp] theorem State.respond_ctrl (s : State) (r : Response) : (s.respond r).ctrl = s.ctrl := rfl
@[simp] theorem State.respond_mrRounds (s : State) (r : Response) : (s.respond r).mrRounds = s.mrRounds := rfl
@[simp] theorem State.respond_primeBits (s : State) (r : Response) :
    (s.respond r).primeBits = s.primeBits := rfl
@[simp] theorem State.respond_iterLimit (s : State) (r : Response) :
    (s.respond r).iterLimit = s.iterLimit := rfl
@[simp] theorem State.respond_retryLimit (s : State) (r : Response) :
    (s.respond r).retryLimit = s.retryLimit := rfl
@[simp] theorem State.respond_msgLen (s : State) (r : Response) : (s.respond r).msgLen = s.msgLen := rfl
@[simp] theorem State.respond_outLen (s : State) (r : Response) : (s.respond r).outLen = s.outLen := rfl
@[simp] theorem State.respond_blockSize (s : State) (r : Response) :
    (s.respond r).blockSize = s.blockSize := rfl
@[simp] theorem State.respond_wide (s : State) (r : Response) : (s.respond r).wide = s.wide := rfl
@[simp] theorem State.respond_mem (s : State) (r : Response) : (s.respond r).mem = s.mem := rfl
@[simp] theorem State.respond_run (s : State) (r : Response) : (s.respond r).run = s.run := rfl
@[simp] theorem State.respond_drawPending (s : State) (r : Response) :
    (s.respond r).drawPending = s.drawPending := rfl
@[simp] theorem State.respond_rst (s : State) (r : Response) : (s.respond r).rst = s.rst := rfl
@[simp] theorem State.respond_response (s : State) (r : Response) : (s.respond r).response = some r := rfl
@[simp] theorem State.respond_inputs (s : State) (r : Response) : (s.respond r).inputs = s.inputs := rfl
@[simp] theorem State.respond_entropy (s : State) (r : Response) : (s.respond r).entropy = s.entropy := rfl
@[simp] theorem State.respond_free (s : State) (r : Response) : (s.respond r).free = s.free := rfl

/-! ### State.respondRead -/

@[simp] theorem State.respondRead_params (s : State) (r : Response) :
    (s.respondRead r).params = s.params := rfl
@[simp] theorem State.respondRead_status (s : State) (r : Response) :
    (s.respondRead r).status = s.status := rfl
@[simp] theorem State.respondRead_ctrl (s : State) (r : Response) : (s.respondRead r).ctrl = s.ctrl := rfl
@[simp] theorem State.respondRead_mrRounds (s : State) (r : Response) :
    (s.respondRead r).mrRounds = s.mrRounds := rfl
@[simp] theorem State.respondRead_primeBits (s : State) (r : Response) :
    (s.respondRead r).primeBits = s.primeBits := rfl
@[simp] theorem State.respondRead_iterLimit (s : State) (r : Response) :
    (s.respondRead r).iterLimit = s.iterLimit := rfl
@[simp] theorem State.respondRead_retryLimit (s : State) (r : Response) :
    (s.respondRead r).retryLimit = s.retryLimit := rfl
@[simp] theorem State.respondRead_msgLen (s : State) (r : Response) :
    (s.respondRead r).msgLen = s.msgLen := rfl
@[simp] theorem State.respondRead_outLen (s : State) (r : Response) :
    (s.respondRead r).outLen = s.outLen := rfl
@[simp] theorem State.respondRead_blockSize (s : State) (r : Response) :
    (s.respondRead r).blockSize = s.blockSize := rfl
@[simp] theorem State.respondRead_wide (s : State) (r : Response) : (s.respondRead r).wide = s.wide := rfl
@[simp] theorem State.respondRead_mem (s : State) (r : Response) : (s.respondRead r).mem = s.mem := rfl
@[simp] theorem State.respondRead_run (s : State) (r : Response) : (s.respondRead r).run = s.run := rfl
@[simp] theorem State.respondRead_drawPending (s : State) (r : Response) :
    (s.respondRead r).drawPending = s.drawPending := rfl
@[simp] theorem State.respondRead_rst (s : State) (r : Response) : (s.respondRead r).rst = s.rst := rfl
@[simp] theorem State.respondRead_response (s : State) (r : Response) :
    (s.respondRead r).response = some r := rfl
@[simp] theorem State.respondRead_inputs (s : State) (r : Response) :
    (s.respondRead r).inputs = s.inputs := rfl
@[simp] theorem State.respondRead_entropy (s : State) (r : Response) :
    (s.respondRead r).entropy = s.entropy := rfl
@[simp] theorem State.respondRead_free (s : State) (r : Response) :
    (s.respondRead r).free = s.free + readCost := rfl

/-! ### State.storeBuf -/

@[simp] theorem State.storeBuf_params (s : State) (k : BufName) (j : Nat) (v : Word) :
    (s.storeBuf k j v).params = s.params := rfl
@[simp] theorem State.storeBuf_status (s : State) (k : BufName) (j : Nat) (v : Word) :
    (s.storeBuf k j v).status = s.status := rfl
@[simp] theorem State.storeBuf_ctrl (s : State) (k : BufName) (j : Nat) (v : Word) :
    (s.storeBuf k j v).ctrl = s.ctrl := rfl
@[simp] theorem State.storeBuf_mrRounds (s : State) (k : BufName) (j : Nat) (v : Word) :
    (s.storeBuf k j v).mrRounds = s.mrRounds := rfl
@[simp] theorem State.storeBuf_primeBits (s : State) (k : BufName) (j : Nat) (v : Word) :
    (s.storeBuf k j v).primeBits = s.primeBits := rfl
@[simp] theorem State.storeBuf_iterLimit (s : State) (k : BufName) (j : Nat) (v : Word) :
    (s.storeBuf k j v).iterLimit = s.iterLimit := rfl
@[simp] theorem State.storeBuf_retryLimit (s : State) (k : BufName) (j : Nat) (v : Word) :
    (s.storeBuf k j v).retryLimit = s.retryLimit := rfl
@[simp] theorem State.storeBuf_msgLen (s : State) (k : BufName) (j : Nat) (v : Word) :
    (s.storeBuf k j v).msgLen = s.msgLen := rfl
@[simp] theorem State.storeBuf_outLen (s : State) (k : BufName) (j : Nat) (v : Word) :
    (s.storeBuf k j v).outLen = s.outLen := rfl
@[simp] theorem State.storeBuf_blockSize (s : State) (k : BufName) (j : Nat) (v : Word) :
    (s.storeBuf k j v).blockSize = s.blockSize := rfl
@[simp] theorem State.storeBuf_wide (s : State) (k : BufName) (j : Nat) (v : Word) :
    (s.storeBuf k j v).wide = s.wide := rfl
@[simp] theorem State.storeBuf_mem (s : State) (k : BufName) (j : Nat) (v : Word) :
    (s.storeBuf k j v).mem = Memory.writeBytes s.mem (k.base + j)
      [wordByte v 0, wordByte v 1, wordByte v 2, wordByte v 3] := rfl
@[simp] theorem State.storeBuf_run (s : State) (k : BufName) (j : Nat) (v : Word) :
    (s.storeBuf k j v).run = s.run := rfl
@[simp] theorem State.storeBuf_drawPending (s : State) (k : BufName) (j : Nat) (v : Word) :
    (s.storeBuf k j v).drawPending = s.drawPending := rfl
@[simp] theorem State.storeBuf_rst (s : State) (k : BufName) (j : Nat) (v : Word) :
    (s.storeBuf k j v).rst = s.rst := rfl
@[simp] theorem State.storeBuf_response (s : State) (k : BufName) (j : Nat) (v : Word) :
    (s.storeBuf k j v).response = s.response := rfl
@[simp] theorem State.storeBuf_inputs (s : State) (k : BufName) (j : Nat) (v : Word) :
    (s.storeBuf k j v).inputs = s.inputs := rfl
@[simp] theorem State.storeBuf_entropy (s : State) (k : BufName) (j : Nat) (v : Word) :
    (s.storeBuf k j v).entropy = s.entropy := rfl
@[simp] theorem State.storeBuf_free (s : State) (k : BufName) (j : Nat) (v : Word) :
    (s.storeBuf k j v).free = s.free := rfl

/-! ### State.releaseReset -/

@[simp] theorem State.releaseReset_params (s : State) : (s.releaseReset).params = s.params := rfl
@[simp] theorem State.releaseReset_status (s : State) : (s.releaseReset).status = s.status := rfl
@[simp] theorem State.releaseReset_ctrl (s : State) : (s.releaseReset).ctrl = s.ctrl := rfl
@[simp] theorem State.releaseReset_mrRounds (s : State) : (s.releaseReset).mrRounds = s.mrRounds := rfl
@[simp] theorem State.releaseReset_primeBits (s : State) : (s.releaseReset).primeBits = s.primeBits := rfl
@[simp] theorem State.releaseReset_iterLimit (s : State) : (s.releaseReset).iterLimit = s.iterLimit := rfl
@[simp] theorem State.releaseReset_retryLimit (s : State) : (s.releaseReset).retryLimit = s.retryLimit := rfl
@[simp] theorem State.releaseReset_msgLen (s : State) : (s.releaseReset).msgLen = s.msgLen := rfl
@[simp] theorem State.releaseReset_outLen (s : State) : (s.releaseReset).outLen = s.outLen := rfl
@[simp] theorem State.releaseReset_blockSize (s : State) : (s.releaseReset).blockSize = s.blockSize := rfl
@[simp] theorem State.releaseReset_wide (s : State) : (s.releaseReset).wide = s.wide := rfl
@[simp] theorem State.releaseReset_mem (s : State) : (s.releaseReset).mem = s.mem := rfl
@[simp] theorem State.releaseReset_run (s : State) : (s.releaseReset).run = s.run := rfl
@[simp] theorem State.releaseReset_drawPending (s : State) :
    (s.releaseReset).drawPending = s.drawPending := rfl
@[simp] theorem State.releaseReset_rst (s : State) : (s.releaseReset).rst = false := rfl
@[simp] theorem State.releaseReset_response (s : State) : (s.releaseReset).response = s.response := rfl
@[simp] theorem State.releaseReset_inputs (s : State) : (s.releaseReset).inputs = s.inputs := rfl
@[simp] theorem State.releaseReset_entropy (s : State) : (s.releaseReset).entropy = s.entropy := rfl
@[simp] theorem State.releaseReset_free (s : State) : (s.releaseReset).free = s.free := rfl

/-! ### State.raise -/

@[simp] theorem State.raise_params (s : State) (i : Instr) (e : Err) : (s.raise i e).params = s.params := by
  unfold State.raise; split <;> rfl
@[simp] theorem State.raise_status (s : State) (i : Instr) (e : Err) : (s.raise i e).status = s.status.failed e := by
  unfold State.raise; split <;> rfl
@[simp] theorem State.raise_ctrl (s : State) (i : Instr) (e : Err) : (s.raise i e).ctrl = s.ctrl := by
  unfold State.raise; split <;> rfl
@[simp] theorem State.raise_mrRounds (s : State) (i : Instr) (e : Err) : (s.raise i e).mrRounds = s.mrRounds := by
  unfold State.raise; split <;> rfl
@[simp] theorem State.raise_primeBits (s : State) (i : Instr) (e : Err) : (s.raise i e).primeBits = s.primeBits := by
  unfold State.raise; split <;> rfl
@[simp] theorem State.raise_iterLimit (s : State) (i : Instr) (e : Err) : (s.raise i e).iterLimit = s.iterLimit := by
  unfold State.raise; split <;> rfl
@[simp] theorem State.raise_retryLimit (s : State) (i : Instr) (e : Err) : (s.raise i e).retryLimit = s.retryLimit := by
  unfold State.raise; split <;> rfl
@[simp] theorem State.raise_msgLen (s : State) (i : Instr) (e : Err) : (s.raise i e).msgLen = s.msgLen := by
  unfold State.raise; split <;> rfl
theorem State.raise_outLen (s : State) (i : Instr) (e : Err) :
    (s.raise i e).outLen = if i.isCipher then 0 else s.outLen := by
  unfold State.raise; split <;> rfl
@[simp] theorem State.raise_blockSize (s : State) (i : Instr) (e : Err) : (s.raise i e).blockSize = s.blockSize := by
  unfold State.raise; split <;> rfl
@[simp] theorem State.raise_wide (s : State) (i : Instr) (e : Err) : (s.raise i e).wide = s.wide := by
  unfold State.raise; split <;> rfl
theorem State.raise_mem (s : State) (i : Instr) (e : Err) :
    (s.raise i e).mem = if i.isCipher then Memory.erase s.mem outBase (outBase + bufWindow) else s.mem := by
  unfold State.raise; split <;> rfl
@[simp] theorem State.raise_run (s : State) (i : Instr) (e : Err) : (s.raise i e).run = none := by
  unfold State.raise; split <;> rfl
@[simp] theorem State.raise_drawPending (s : State) (i : Instr) (e : Err) : (s.raise i e).drawPending = none := by
  unfold State.raise; split <;> rfl
@[simp] theorem State.raise_rst (s : State) (i : Instr) (e : Err) : (s.raise i e).rst = s.rst := by
  unfold State.raise; split <;> rfl
@[simp] theorem State.raise_response (s : State) (i : Instr) (e : Err) : (s.raise i e).response = s.response := by
  unfold State.raise; split <;> rfl
@[simp] theorem State.raise_inputs (s : State) (i : Instr) (e : Err) : (s.raise i e).inputs = s.inputs := by
  unfold State.raise; split <;> rfl
@[simp] theorem State.raise_entropy (s : State) (i : Instr) (e : Err) : (s.raise i e).entropy = s.entropy := by
  unfold State.raise; split <;> rfl
@[simp] theorem State.raise_free (s : State) (i : Instr) (e : Err) : (s.raise i e).free = s.free := by
  unfold State.raise; split <;> rfl

/-! ### Views of the state that only some updates touch -/

@[simp] theorem State.accept_txtSnapshot (s : State) (i : Instr) : (s.accept i).txtSnapshot = s.txtSnapshot := rfl
@[simp] theorem State.accept_busy (s : State) (i : Instr) : (s.accept i).busy = s.busy := rfl
@[simp] theorem State.accept_stream (s : State) (i : Instr) : (s.accept i).stream = s.stream := rfl
@[simp] theorem State.accept_W (s : State) (i : Instr) (k : WideName) : (s.accept i).W k = s.W k := rfl
@[simp] theorem State.launch_W (s : State) (i : Instr) (v : Word) (k : WideName) : (s.launch i v).W k = s.W k := rfl
@[simp] theorem State.finish_W (s : State) (k : WideName) : (s.finish).W k = s.W k := rfl
@[simp] theorem State.dropOutput_txtSnapshot (s : State) : (s.dropOutput).txtSnapshot = s.txtSnapshot := rfl
@[simp] theorem State.dropOutput_busy (s : State) : (s.dropOutput).busy = s.busy := rfl
@[simp] theorem State.dropOutput_stream (s : State) : (s.dropOutput).stream = s.stream := rfl
@[simp] theorem State.dropOutput_W (s : State) (k : WideName) : (s.dropOutput).W k = s.W k := rfl
@[simp] theorem State.illegal_txtSnapshot (s : State) (v : Word) : (s.illegal v).txtSnapshot = s.txtSnapshot := rfl
@[simp] theorem State.illegal_busy (s : State) (v : Word) : (s.illegal v).busy = s.busy := rfl
@[simp] theorem State.illegal_stream (s : State) (v : Word) : (s.illegal v).stream = s.stream := rfl
@[simp] theorem State.illegal_W (s : State) (v : Word) (k : WideName) : (s.illegal v).W k = s.W k := rfl
@[simp] theorem State.acknowledge_txtSnapshot (s : State) (v : Word) : (s.acknowledge v).txtSnapshot = s.txtSnapshot := rfl
@[simp] theorem State.acknowledge_busy (s : State) (v : Word) : (s.acknowledge v).busy = s.busy := rfl
@[simp] theorem State.acknowledge_stream (s : State) (v : Word) : (s.acknowledge v).stream = s.stream := rfl
@[simp] theorem State.acknowledge_W (s : State) (v : Word) (k : WideName) : (s.acknowledge v).W k = s.W k := rfl
@[simp] theorem State.waitFor_W (s : State) (i : Instr) (req : DrawReq) (k : WideName) : (s.waitFor i req).W k = s.W k := rfl
@[simp] theorem State.withEntropy_txtSnapshot (s : State) (rest : List Nat) : (s.withEntropy rest).txtSnapshot = s.txtSnapshot := rfl
@[simp] theorem State.withEntropy_busy (s : State) (rest : List Nat) : (s.withEntropy rest).busy = s.busy := rfl
@[simp] theorem State.withEntropy_W (s : State) (rest : List Nat) (k : WideName) : (s.withEntropy rest).W k = s.W k := rfl
@[simp] theorem State.setW_txtSnapshot (s : State) (k : WideName) (v : Nat) : (s.setW k v).txtSnapshot = s.txtSnapshot := rfl
@[simp] theorem State.setW_busy (s : State) (k : WideName) (v : Nat) : (s.setW k v).busy = s.busy := rfl
@[simp] theorem State.setW_stream (s : State) (k : WideName) (v : Nat) : (s.setW k v).stream = s.stream := rfl
@[simp] theorem State.setWideWord_txtSnapshot (s : State) (k : WideName) (i : Nat) (w : Word) : (s.setWideWord k i w).txtSnapshot = s.txtSnapshot := rfl
@[simp] theorem State.setWideWord_busy (s : State) (k : WideName) (i : Nat) (w : Word) : (s.setWideWord k i w).busy = s.busy := rfl
@[simp] theorem State.setWideWord_stream (s : State) (k : WideName) (i : Nat) (w : Word) : (s.setWideWord k i w).stream = s.stream := rfl
@[simp] theorem State.setOutput_txtSnapshot (s : State) (out : List Byte) : (s.setOutput out).txtSnapshot = s.txtSnapshot := rfl
@[simp] theorem State.setOutput_busy (s : State) (out : List Byte) : (s.setOutput out).busy = s.busy := rfl
@[simp] theorem State.setOutput_stream (s : State) (out : List Byte) : (s.setOutput out).stream = s.stream := rfl
@[simp] theorem State.setOutput_W (s : State) (out : List Byte) (k : WideName) : (s.setOutput out).W k = s.W k := rfl
@[simp] theorem State.setBlockSize_txtSnapshot (s : State) (bs : Nat) : (s.setBlockSize bs).txtSnapshot = s.txtSnapshot := rfl
@[simp] theorem State.setBlockSize_busy (s : State) (bs : Nat) : (s.setBlockSize bs).busy = s.busy := rfl
@[simp] theorem State.setBlockSize_stream (s : State) (bs : Nat) : (s.setBlockSize bs).stream = s.stream := rfl
@[simp] theorem State.setBlockSize_W (s : State) (bs : Nat) (k : WideName) : (s.setBlockSize bs).W k = s.W k := rfl
@[simp] theorem State.useInput_txtSnapshot (s : State) : (s.useInput).txtSnapshot = s.txtSnapshot := rfl
@[simp] theorem State.useInput_busy (s : State) : (s.useInput).busy = s.busy := rfl
@[simp] theorem State.useInput_stream (s : State) : (s.useInput).stream = s.stream := rfl
@[simp] theorem State.useInput_W (s : State) (k : WideName) : (s.useInput).W k = s.W k := rfl
@[simp] theorem State.startCipher_txtSnapshot (s : State) (i : Instr) : (s.startCipher i).txtSnapshot = s.txtSnapshot := rfl
@[simp] theorem State.startCipher_busy (s : State) (i : Instr) : (s.startCipher i).busy = s.busy := rfl
@[simp] theorem State.startCipher_stream (s : State) (i : Instr) : (s.startCipher i).stream = s.stream := rfl
@[simp] theorem State.startCipher_W (s : State) (i : Instr) (k : WideName) : (s.startCipher i).W k = s.W k := rfl
@[simp] theorem State.respond_txtSnapshot (s : State) (r : Response) : (s.respond r).txtSnapshot = s.txtSnapshot := rfl
@[simp] theorem State.respond_busy (s : State) (r : Response) : (s.respond r).busy = s.busy := rfl
@[simp] theorem State.respond_stream (s : State) (r : Response) : (s.respond r).stream = s.stream := rfl
@[simp] theorem State.respond_W (s : State) (r : Response) (k : WideName) : (s.respond r).W k = s.W k := rfl
@[simp] theorem State.respondRead_txtSnapshot (s : State) (r : Response) : (s.respondRead r).txtSnapshot = s.txtSnapshot := rfl
@[simp] theorem State.respondRead_busy (s : State) (r : Response) : (s.respondRead r).busy = s.busy := rfl
@[simp] theorem State.respondRead_stream (s : State) (r : Response) : (s.respondRead r).stream = s.stream := rfl
@[simp] theorem State.respondRead_W (s : State) (r : Response) (k : WideName) : (s.respondRead r).W k = s.W k := rfl
@[simp] theorem State.storeBuf_txtSnapshot (s : State) (k : BufName) (j : Nat) (v : Word) : (s.storeBuf k j v).txtSnapshot = s.txtSnapshot := rfl
@[simp] theorem State.storeBuf_busy (s : State) (k : BufName) (j : Nat) (v : Word) : (s.storeBuf k j v).busy = s.busy := rfl
@[simp] theorem State.storeBuf_stream (s : State) (k : BufName) (j : Nat) (v : Word) : (s.storeBuf k j v).stream = s.stream := rfl
@[simp] theorem State.storeBuf_W (s : State) (b : BufName) (j : Nat) (v : Word) (k : WideName) :
    (s.storeBuf b j v).W k = s.W k := rfl
@[simp] theorem State.releaseReset_txtSnapshot (s : State) : (s.releaseReset).txtSnapshot = s.txtSnapshot := rfl
@[simp] theorem State.releaseReset_busy (s : State) : (s.releaseReset).busy = s.busy := rfl
@[simp] theorem State.releaseReset_stream (s : State) : (s.releaseReset).stream = s.stream := rfl
@[simp] theorem State.releaseReset_W (s : State) (k : WideName) : (s.releaseReset).W k = s.W k := rfl
@[simp] theorem State.raise_W (s : State) (i : Instr) (e : Err) (k : WideName) : (s.raise i e).W k = s.W k := by
  simp [State.W]
@[simp] theorem State.finish_busy (s : State) : s.finish.busy = false := rfl
@[simp] theorem State.raise_busy (s : State) (i : Instr) (e : Err) : (s.raise i e).busy = false := by
  simp [State.busy]
@[simp] theorem State.waitFor_busy (s : State) (i : Instr) (req : DrawReq) : (s.waitFor i req).busy = true := rfl
@[simp] theorem State.launch_busy (s : State) (i : Instr) (v : Word) : (s.launch i v).busy = true := rfl
@[simp] theorem State.waitFor_stream (s : State) (i : Instr) (req : DrawReq) :
    (s.waitFor i req).stream = s.stream := by
  simp [State.stream]
@[simp] theorem State.waitFor_txtSnapshot (s : State) (i : Instr) (req : DrawReq) :
    (s.waitFor i req).txtSnapshot = s.txtSnapshot := rfl

/-! ### STATUS -/

@[simp] theorem Status.started_done (st : Status) (op : BitVec 8) : (st.started op).done = false := rfl
@[simp] theorem Status.started_err (st : Status) (op : BitVec 8) : (st.started op).err = false := rfl
@[simp] theorem Status.started_result (st : Status) (op : BitVec 8) : (st.started op).result = false := rfl
@[simp] theorem Status.started_errcode (st : Status) (op : BitVec 8) : (st.started op).errcode = 0 := rfl
@[simp] theorem Status.started_lastop (st : Status) (op : BitVec 8) : (st.started op).lastop = op := rfl
@[simp] theorem Status.started_ovr (st : Status) (op : BitVec 8) : (st.started op).ovr = st.ovr := rfl
@[simp] theorem Status.finished_done (st : Status) : st.finished.done = true := rfl
@[simp] theorem Status.finished_err (st : Status) : st.finished.err = false := rfl
@[simp] theorem Status.finished_result (st : Status) : st.finished.result = st.result := rfl
@[simp] theorem Status.finished_errcode (st : Status) : st.finished.errcode = 0 := rfl
@[simp] theorem Status.finished_lastop (st : Status) : st.finished.lastop = st.lastop := rfl
@[simp] theorem Status.finished_ovr (st : Status) : st.finished.ovr = st.ovr := rfl
@[simp] theorem Status.failed_done (st : Status) (e : Err) : (st.failed e).done = true := rfl
@[simp] theorem Status.failed_err (st : Status) (e : Err) : (st.failed e).err = true := rfl
@[simp] theorem Status.failed_result (st : Status) (e : Err) : (st.failed e).result = false := rfl
@[simp] theorem Status.failed_errcode (st : Status) (e : Err) : (st.failed e).errcode = e.code := rfl
@[simp] theorem Status.failed_lastop (st : Status) (e : Err) : (st.failed e).lastop = st.lastop := rfl
@[simp] theorem Status.failed_ovr (st : Status) (e : Err) : (st.failed e).ovr = st.ovr := rfl

end Sys2Proof.Machine
end

