-- ==== Sys2Proof/Laws/Memory.lean ====
section
/-! SUPPORT. The laws of the message buffers: a write is read back, leaves the rest alone, and every operation keeps the canonical form. -/

namespace Sys2Proof.Machine

/-- In a canonical memory an offset below every listed one is unlisted. -/
theorem Memory.read_eq_none_of_lt {m : Memory} {a : Nat} (h : ∀ c ∈ m, a < c.1) : Memory.read m a = none := by
  induction m with
  | nil => rfl
  | cons c rest ih =>
    obtain ⟨k, b⟩ := c
    have hk : a < k := h (k, b) (by simp)
    rw [Memory.read, if_neg (by omega), ih (fun c hc => h c (by simp [hc]))]

theorem Memory.read_write_same (m : Memory) (a : Nat) (v : Byte) :
    Memory.read (Memory.write m a v) a = some v := by
  induction m with
  | nil => simp [Memory.write, Memory.read]
  | cons c rest ih =>
    obtain ⟨k, b⟩ := c
    unfold Memory.write
    split
    · simp [Memory.read]
    · split
      · simp [Memory.read]
      · rename_i h1 h2
        rw [Memory.read, if_neg (by omega), ih]

theorem Memory.read_write_other (m : Memory) {a x : Nat} (v : Byte) (h : x ≠ a) :
    Memory.read (Memory.write m a v) x = Memory.read m x := by
  induction m with
  | nil => simp [Memory.write, Memory.read, Ne.symm h]
  | cons c rest ih =>
    obtain ⟨k, b⟩ := c
    unfold Memory.write
    split
    · rw [Memory.read, if_neg (Ne.symm h)]
    · split
      · rename_i h1 h2
        subst h2
        rw [Memory.read, if_neg (Ne.symm h), Memory.read, if_neg (Ne.symm h)]
      · rw [Memory.read, Memory.read, ih]

theorem Memory.read_write (m : Memory) (a x : Nat) (v : Byte) :
    Memory.read (Memory.write m a v) x = if x = a then some v else Memory.read m x := by
  split
  · rename_i h; subst h; exact Memory.read_write_same m x v
  · rename_i h; exact Memory.read_write_other m v h

/-- Every entry after a write is the written one or was there before. -/
theorem Memory.mem_write {m : Memory} {a : Nat} {v : Byte} {c : Host.Cell} (h : c ∈ Memory.write m a v) :
    c = (a, v) ∨ c ∈ m := by
  induction m with
  | nil => simpa [Memory.write] using h
  | cons d rest ih =>
    obtain ⟨k, b⟩ := d
    unfold Memory.write at h
    split at h
    · simpa using h
    · split at h
      · rcases List.mem_cons.1 h with h | h
        · exact .inl h
        · exact .inr (by simp [h])
      · rcases List.mem_cons.1 h with h | h
        · exact .inr (by simp [h])
        · exact (ih h).imp id (fun h => by simp [h])

theorem Memory.write_wf {m : Memory} (a : Nat) (v : Byte) (h : Memory.wf m) : Memory.wf (Memory.write m a v) := by
  induction m with
  | nil => simp [Memory.write]
  | cons c rest ih =>
    obtain ⟨k, b⟩ := c
    have hr := List.pairwise_cons.1 h
    unfold Memory.write
    split
    · rename_i hlt
      refine List.pairwise_cons.2 ⟨?_, h⟩
      intro d hd
      rcases List.mem_cons.1 hd with rfl | hd
      · exact hlt
      · exact lt_trans hlt (hr.1 d hd)
    · split
      · rename_i _ heq
        subst heq
        exact List.pairwise_cons.2 ⟨hr.1, hr.2⟩
      · rename_i h1 h2
        refine List.pairwise_cons.2 ⟨?_, ih hr.2⟩
        intro d hd
        rcases Memory.mem_write hd with rfl | hd
        · show k < a
          omega
        · exact hr.1 d hd

theorem Memory.read_writeBytes (m : Memory) (a x : Nat) (bs : List Byte) :
    Memory.read (Memory.writeBytes m a bs) x =
      if a ≤ x ∧ x < a + bs.length then bs[x - a]? else Memory.read m x := by
  induction bs generalizing m a with
  | nil => simp [Memory.writeBytes]
  | cons b rest ih =>
    rw [Memory.writeBytes, ih, Memory.read_write]
    by_cases hx : x = a
    · subst hx; simp
    · by_cases h : a + 1 ≤ x ∧ x < a + 1 + rest.length
      · have : x - a = (x - (a + 1)) + 1 := by omega
        rw [if_pos h, if_pos (by simp; omega), this, List.getElem?_cons_succ]
      · rw [if_neg h, if_neg hx, if_neg (by simp; omega)]

theorem Memory.writeBytes_wf {m : Memory} (a : Nat) (bs : List Byte) (h : Memory.wf m) :
    Memory.wf (Memory.writeBytes m a bs) := by
  induction bs generalizing m a with
  | nil => exact h
  | cons b rest ih => exact ih (a + 1) (Memory.write_wf a b h)

/-- Every entry after a string's write lies where the string went or was there before. -/
theorem Memory.mem_writeBytes {m : Memory} {a : Nat} {bs : List Byte} {c : Host.Cell}
    (h : c ∈ Memory.writeBytes m a bs) : (a ≤ c.1 ∧ c.1 < a + bs.length) ∨ c ∈ m := by
  induction bs generalizing m a with
  | nil => exact .inr h
  | cons b rest ih =>
    rcases ih h with h | h
    · exact .inl (by simp; omega)
    · rcases Memory.mem_write h with rfl | h
      · exact .inl (by simp)
      · exact .inr h

theorem Memory.read_erase (m : Memory) (lo hi x : Nat) :
    Memory.read (Memory.erase m lo hi) x = if lo ≤ x ∧ x < hi then none else Memory.read m x := by
  induction m with
  | nil => simp [Memory.erase, Memory.read]
  | cons c rest ih =>
    obtain ⟨k, b⟩ := c
    unfold Memory.erase at ih ⊢
    rw [List.filter_cons]
    split
    · rename_i hk
      simp only [Bool.or_eq_true, decide_eq_true_eq] at hk
      rw [Memory.read, Memory.read, ih]
      by_cases hx : k = x
      · rw [if_pos hx, if_pos hx, if_neg (by omega)]
      · rw [if_neg hx, if_neg hx]
    · rename_i hk
      simp only [Bool.or_eq_true, decide_eq_true_eq, not_or, not_lt, not_le] at hk
      rw [ih, Memory.read]
      by_cases hx : k = x
      · rw [if_pos (by omega), if_pos (by omega)]
      · rw [if_neg hx]

theorem Memory.erase_wf {m : Memory} (lo hi : Nat) (h : Memory.wf m) : Memory.wf (Memory.erase m lo hi) :=
  List.Pairwise.filter _ h

theorem Memory.mem_erase {m : Memory} {lo hi : Nat} {c : Host.Cell} (h : c ∈ Memory.erase m lo hi) : c ∈ m :=
  (List.mem_filter.1 h).1

/-- What OUT_BUF and the rest of the memory hold after a successful cipher command. -/
theorem State.setOutput_read (s : State) (out : List Byte) (x : Nat) :
    Memory.read (s.setOutput out).mem x =
      if outBase ≤ x ∧ x < outBase + out.length then out[x - outBase]?
      else if outBase ≤ x ∧ x < outBase + bufWindow then none else Memory.read s.mem x := by
  rw [State.setOutput_mem, Memory.read_writeBytes, Memory.read_erase]

/-- What the memory holds after an error. -/
theorem State.raise_read (s : State) (i : Instr) (e : Err) (x : Nat) :
    Memory.read (s.raise i e).mem x =
      if i.isCipher = true ∧ outBase ≤ x ∧ x < outBase + bufWindow then none else Memory.read s.mem x := by
  rw [State.raise_mem]
  by_cases h : i.isCipher = true
  · simp [h, Memory.read_erase]
  · simp [h]

@[simp] theorem Memory.bytes_length (m : Memory) (free a k : Nat) : (Memory.bytes m free a k).length = k := by
  induction k generalizing free a with
  | zero => rfl
  | succ k ih => simp [Memory.bytes, ih]

/-- The bytes read are the listed ones, and a free value where nothing is listed. -/
theorem Memory.bytes_getElem? (m : Memory) (free a k j : Nat) (h : j < k) :
    (Memory.bytes m free a k)[j]? = some ((Memory.read m (a + j)).getD (Config.freeByte (free + j))) := by
  induction k generalizing free a j with
  | zero => omega
  | succ k ih =>
    cases j with
    | zero => simp [Memory.bytes]
    | succ j =>
      rw [Memory.bytes, List.getElem?_cons_succ, ih _ _ _ (by omega)]
      simp only [Nat.add_assoc, Nat.add_comm 1 j]

@[simp] theorem State.input_length (s : State) : s.input.length = min s.inputLen s.params.bufBytes := by
  simp [State.input]

/-- Memory is canonical after reset. -/
theorem State.reset_memory_wf : Memory.wf State.reset.mem := List.Pairwise.nil

end Sys2Proof.Machine
end

