-- ==== Sys2Proof/Laws/Registers.lean ====
section
/-! SUPPORT. The laws of the wide register file. -/

namespace Sys2Proof.Machine

@[simp] theorem WideFile.get_set_same (f : WideFile) (k : WideName) (v : WideReg) : (f.set k v).get k = v := by
  cases k <;> rfl

@[simp] theorem WideFile.get_set_other (f : WideFile) {j k : WideName} (v : WideReg) (h : j ≠ k) :
    (f.set k v).get j = f.get j := by
  cases k <;> cases j <;> first | rfl | exact absurd rfl h

/-- A command's store is read back, as the spec's widths keep it from being truncated. -/
theorem State.setW_W_same (s : State) (k : WideName) (v : Nat) (h : v < 2 ^ s.params.opw) :
    (s.setW k v).W k = v := by
  simp [State.W, Nat.mod_eq_of_lt h]

@[simp] theorem State.setW_W_other (s : State) {j k : WideName} (v : Nat) (h : j ≠ k) :
    (s.setW k v).W j = s.W j := by
  simp [State.W, h]

/-- A command's store always fits the register. -/
theorem State.setW_lt (s : State) (k : WideName) (v : Nat) : (s.setW k v).W k < 2 ^ s.params.opw := by
  simp [State.W, Nat.mod_lt _ (Nat.two_pow_pos _)]

theorem State.setW_fits {s : State} (k : WideName) (v : Nat) (h : s.wideFits) : (s.setW k v).wideFits := by
  intro j
  by_cases hj : j = k
  · subst hj; exact s.setW_lt j v
  · rw [State.setW_W_other s v hj]; exact h j

/-- A command's store marks the whole register written. -/
@[simp] theorem State.setW_written (s : State) (k : WideName) (v : Nat) :
    ((s.setW k v).wide.get k).written = BitVec.allOnes 128 := by
  simp

/-- A state with the same registers and parameters fits as well. -/
theorem State.wideFits_of_eq {s t : State} (hw : t.wide = s.wide) (hp : t.params = s.params) (h : s.wideFits) :
    t.wideFits := by
  intro k
  have := h k
  simpa [State.W, hw, hp] using this

end Sys2Proof.Machine
end

