-- ==== Sys2Proof/Laws/Protocol.lean ====
section
/-! SUPPORT. Everything a command's end can do, said once: the two ways to settle, and the entropy port. -/

namespace Sys2Proof.Machine

/-- How a command that draws nothing ends. -/
theorem State.settle_cases {α : Type} {s t : State} {i : Instr} {res : Except Err α}
    {commit : α → State → State} (h : s.settle i res commit = .next t) :
    (∃ e, res = .error e ∧ t = s.raise i e) ∨ (∃ a, res = .ok a ∧ t = (commit a s).finish) := by
  cases res with
  | error e => exact .inl ⟨e, rfl, by cases h; rfl⟩
  | ok a => exact .inr ⟨a, rfl, by cases h; rfl⟩

/-- How a command that draws entropy ends, or that it waits. -/
theorem State.settleDrawn_cases {α : Type} {s t : State} {i : Instr} {res : Drawn α}
    {commit : α → State → State} (h : s.settleDrawn i res commit = .next t) :
    (∃ e rest, res = .err e rest ∧ t = (s.withEntropy rest).raise i e) ∨
    (∃ a rest, res = .ok a rest ∧ t = (commit a (s.withEntropy rest)).finish) ∨
    (∃ req, res = .waits req ∧ t = s.waitFor i req) := by
  cases res with
  | err e rest => exact .inl ⟨e, rest, rfl, by cases h; rfl⟩
  | ok a rest => exact .inr (.inl ⟨a, rest, rfl, by cases h; rfl⟩)
  | waits req => exact .inr (.inr ⟨req, rfl, by cases h; rfl⟩)

@[simp] theorem Drawn.andThen_ok {α β : Type} (a : α) (rest : List Nat) (k : α → List Nat → Drawn β) :
    (Drawn.ok a rest).andThen k = k a rest := rfl

@[simp] theorem Drawn.andThen_err {α β : Type} (e : Err) (rest : List Nat) (k : α → List Nat → Drawn β) :
    (Drawn.err (α := α) e rest).andThen k = .err e rest := rfl

@[simp] theorem Drawn.andThen_waits {α β : Type} (req : DrawReq) (k : α → List Nat → Drawn β) :
    (Drawn.waits (α := α) req).andThen k = .waits req := rfl

/-- A sequence ends with a value only through a value of its first part. -/
theorem Drawn.andThen_eq_ok {α β : Type} {d : Drawn α} {k : α → List Nat → Drawn β} {b : β} {rest : List Nat}
    (h : d.andThen k = .ok b rest) : ∃ a mid, d = .ok a mid ∧ k a mid = .ok b rest := by
  cases d with
  | ok a mid => exact ⟨a, mid, rfl, h⟩
  | err e mid => cases h
  | waits req => cases h

/-- A sequence ends with an error of its first part or of its second. -/
theorem Drawn.andThen_eq_err {α β : Type} {d : Drawn α} {k : α → List Nat → Drawn β} {e : Err} {rest : List Nat}
    (h : d.andThen k = .err e rest) : d = .err e rest ∨ ∃ a mid, d = .ok a mid ∧ k a mid = .err e rest := by
  cases d with
  | ok a mid => exact .inr ⟨a, mid, rfl, h⟩
  | err e' mid => exact .inl (by cases h; rfl)
  | waits req => cases h

/-- A sequence waits in its first part or in its second. -/
theorem Drawn.andThen_eq_waits {α β : Type} {d : Drawn α} {k : α → List Nat → Drawn β} {req : DrawReq}
    (h : d.andThen k = .waits req) : d = .waits req ∨ ∃ a mid, d = .ok a mid ∧ k a mid = .waits req := by
  cases d with
  | ok a mid => exact .inr ⟨a, mid, rfl, h⟩
  | err e mid => cases h
  | waits r => exact .inl (by cases h; rfl)

@[simp] theorem draw_nil (req : DrawReq) : draw req [] = .waits req := rfl

@[simp] theorem draw_cons (req : DrawReq) (v : Nat) (rest : List Nat) :
    draw req (v :: rest) = .ok (req.intoRange v) rest := rfl

/-- A draw never ends in an error. -/
theorem draw_ne_err (req : DrawReq) (ans rest : List Nat) (e : Err) : draw req ans ≠ .err e rest := by
  cases ans <;> simp

/-- A draw that ends takes exactly one answer. -/
theorem draw_eq_ok {req : DrawReq} {ans rest : List Nat} {v : Nat} (h : draw req ans = .ok v rest) :
    ∃ w, ans = w :: rest ∧ v = req.intoRange w := by
  cases ans with
  | nil => cases h
  | cons w tail => cases h; exact ⟨w, rfl, rfl⟩

/-- DrawBits(k) is below 2^k. -/
theorem DrawReq.intoRange_bits_lt (k answer : Nat) : (DrawReq.bits k).intoRange answer < 2 ^ k :=
  Nat.mod_lt _ (Nat.two_pow_pos k)

/-- DrawRange(lo, hi) is in [lo, hi]. -/
theorem DrawReq.intoRange_range_mem {lo hi : Nat} (answer : Nat) (h : lo ≤ hi) :
    lo ≤ (DrawReq.range lo hi).intoRange answer ∧ (DrawReq.range lo hi).intoRange answer ≤ hi := by
  simp only [DrawReq.intoRange]
  split
  · assumption
  · have := Nat.mod_lt answer (show 0 < hi - lo + 1 by omega)
    omega

/-- Every value of the range is some answer's. -/
theorem DrawReq.intoRange_range_self {lo hi v : Nat} (h1 : lo ≤ v) (h2 : v ≤ hi) :
    (DrawReq.range lo hi).intoRange v = v := if_pos ⟨h1, h2⟩

@[simp] theorem beBytes_length (v k : Nat) : (beBytes v k).length = k := by
  induction k with
  | zero => rfl
  | succ k ih => simp [beBytes, ih]

/-- The block size register's value is small. -/
theorem blockSizeOf_le (n : Nat) : blockSizeOf n ≤ bitlen n / 8 := by
  unfold blockSizeOf
  split <;> omega

end Sys2Proof.Machine
end

