-- ==== Sys2Proof/Laws/Arith.lean ====
section
/-! SUPPORT. What the arithmetic loops compute, said once for each: exponentiation, Euclid, the inverse, the bit length, the word replacement. -/

namespace Sys2Proof.Machine

theorem modexpLoop_eq (m : Nat) (hm : m ≠ 0) :
    ∀ fuel r b e : Nat, e ≤ fuel → r < m → modexpLoop m fuel r b e = r * b ^ e % m := by
  have hp : 0 < m := Nat.pos_of_ne_zero hm
  intro fuel
  induction fuel with
  | zero =>
    intro r b e he hr
    obtain rfl : e = 0 := by omega
    simp [modexpLoop, Nat.mod_eq_of_lt hr]
  | succ f ih =>
    intro r b e he hr
    unfold modexpLoop
    by_cases h0 : e = 0
    · subst h0; simp [Nat.mod_eq_of_lt hr]
    · rw [if_neg h0]
      by_cases h1 : e % 2 = 1
      · rw [if_pos h1, ih (mulmod r b m) _ _ (by omega) (Nat.mod_lt _ hp)]
        obtain ⟨q, rfl⟩ : ∃ q, e = 2 * q + 1 := ⟨e / 2, by omega⟩
        have e1 : r * b ^ (2 * q + 1) = r * b * (b * b) ^ q := by rw [pow_succ, pow_mul]; ring
        rw [show (2 * q + 1) / 2 = q by omega, mulmod, mulmod, e1]
        conv_rhs => rw [Nat.mul_mod, Nat.pow_mod]
        conv_lhs => rw [Nat.mul_mod, Nat.pow_mod]
        simp
      · rw [if_neg h1, ih _ _ _ (by omega) hr]
        obtain ⟨q, rfl⟩ : ∃ q, e = 2 * q := ⟨e / 2, by omega⟩
        have e1 : r * b ^ (2 * q) = r * (b * b) ^ q := by rw [pow_mul]; ring
        rw [show 2 * q / 2 = q by omega, mulmod, e1, Nat.mul_mod, Nat.pow_mod, Nat.mul_mod r ((b * b) ^ q),
          Nat.pow_mod (b * b)]
        simp

/-- The engine computes the power's residue (41_modarith.md R164, R165). -/
theorem modexp_eq (b x m : Nat) (hm : m ≠ 0) : modexp b x m = b ^ x % m := by
  unfold modexp
  rw [modexpLoop_eq m hm _ _ _ _ le_rfl (Nat.mod_lt _ (Nat.pos_of_ne_zero hm))]
  conv_rhs => rw [Nat.pow_mod]
  by_cases h : m = 1
  · subst h; simp [Nat.mod_one]
  · rw [Nat.mod_eq_of_lt (show 1 < m by omega), one_mul]

theorem egcdLoop_spec (a m : Nat) :
    ∀ (fuel r0 r1 : Nat) (t0 t1 : Int), r1 ≤ fuel →
      ((r0 : Int) ≡ a * t0 [ZMOD m]) → ((r1 : Int) ≡ a * t1 [ZMOD m]) →
      (egcdLoop fuel r0 r1 t0 t1).1 = Nat.gcd r0 r1 ∧
        ((Nat.gcd r0 r1 : Int) ≡ a * (egcdLoop fuel r0 r1 t0 t1).2 [ZMOD m]) := by
  intro fuel
  induction fuel with
  | zero =>
    intro r0 r1 t0 t1 h h0 _
    obtain rfl : r1 = 0 := by omega
    simpa [egcdLoop] using h0
  | succ f ih =>
    intro r0 r1 t0 t1 h h0 h1
    unfold egcdLoop
    by_cases hz : r1 = 0
    · subst hz; simpa using h0
    · rw [if_neg hz]
      have hmod : r0 - r0 / r1 * r1 = r0 % r1 := by
        have := Nat.div_add_mod r0 r1
        rw [Nat.mul_comm] at this
        omega
      have hlt := Nat.mod_lt r0 (Nat.pos_of_ne_zero hz)
      have hx := ih r1 (r0 - r0 / r1 * r1) t1 (t0 - ((r0 / r1 : Nat) : Int) * t1) (by omega) h1 (by
        have hc : ((r0 - r0 / r1 * r1 : Nat) : Int) = (r0 : Int) - ((r0 / r1 : Nat) : Int) * (r1 : Int) := by
          have := Nat.div_mul_le_self r0 r1
          push_cast [Nat.cast_sub this]; ring
        rw [hc, show (a : Int) * (t0 - ((r0 / r1 : Nat) : Int) * t1) =
          a * t0 - ((r0 / r1 : Nat) : Int) * (a * t1) by ring]
        exact Int.ModEq.sub h0 (Int.ModEq.mul_left _ h1))
      rwa [show Nat.gcd r1 (r0 - r0 / r1 * r1) = Nat.gcd r0 r1 by
        rw [hmod, Nat.gcd_comm r0 r1, Nat.gcd_rec r1 r0, Nat.gcd_comm]] at hx

/-- The Euclidean unit's first result is the greatest common divisor (42_euclid.md R181). -/
theorem egcd_fst (a m : Nat) : (egcd a m).1 = Nat.gcd a m := by
  unfold egcd
  split
  · rename_i h; subst h; simp [egcdLoop]
  · have := (egcdLoop_spec a m (a % m) m (a % m) 0 1 le_rfl (by simp [Int.ModEq]) (by simp [Int.ModEq])).1
    rwa [show Nat.gcd m (a % m) = Nat.gcd a m by rw [Nat.gcd_comm, ← Nat.gcd_rec, Nat.gcd_comm]] at this

/-- Its second result is the coefficient of a modulo m (42_euclid.md R181). -/
theorem egcd_snd (a m : Nat) (hm : m ≠ 0) : (Nat.gcd a m : Int) ≡ a * (egcd a m).2 [ZMOD m] := by
  unfold egcd
  rw [if_neg hm]
  have := (egcdLoop_spec a m (a % m) m (a % m) 0 1 le_rfl (by simp [Int.ModEq]) (by simp [Int.ModEq])).2
  rwa [show Nat.gcd m (a % m) = Nat.gcd a m by rw [Nat.gcd_comm, ← Nat.gcd_rec, Nat.gcd_comm]] at this

/-- The inverse is the residue in [0, m) whose product with a is 1 (42_euclid.md R184). -/
theorem modinv_spec (a m : Nat) (hm : m ≠ 0) (hg : Nat.gcd a m = 1) :
    modinv a m < m ∧ a * modinv a m % m = 1 % m := by
  have h := egcd_snd a m hm
  rw [hg] at h
  unfold modinv normalizeMod
  generalize (egcd a m).2 = t at h
  have hp : (0 : Int) < m := by exact_mod_cast Nat.pos_of_ne_zero hm
  have h0 := Int.emod_nonneg t hp.ne'
  have h1 := Int.emod_lt_of_pos t hp
  refine ⟨by omega, ?_⟩
  have hx : ((a * (t % (m : Int)).toNat : Nat) : Int) ≡ ((1 : Nat) : Int) [ZMOD m] := by
    push_cast [Int.toNat_of_nonneg h0]
    exact (Int.ModEq.mul_left _ (Int.mod_modEq _ _)).trans h.symm
  exact Int.natCast_modEq_iff.1 hx

/-- The bit length of 00_scope.md R17, apart from its definition by log2. -/
theorem bitlen_eq_iff (v L : Nat) (hL : 1 ≤ L) : bitlen v = L ↔ 2 ^ (L - 1) ≤ v ∧ v < 2 ^ L := by
  unfold bitlen
  split
  · subst_vars; simp; omega
  · rename_i h
    obtain ⟨L, rfl⟩ : ∃ k, L = k + 1 := ⟨L - 1, by omega⟩
    simp only [Nat.add_right_cancel_iff, Nat.add_sub_cancel]
    rw [Nat.log2_eq_iff h]

/-- Replacing digit i to the base K: that digit becomes w, the others stay, and so does any bound above digit i. -/
theorem replaceDigit_spec (K v i w : Nat) (hK : 0 < K) (hw : w < K) :
    (v / K ^ (i + 1) * K ^ (i + 1) + w * K ^ i + v % K ^ i) / K ^ i % K = w ∧
    (∀ j, j ≠ i →
      (v / K ^ (i + 1) * K ^ (i + 1) + w * K ^ i + v % K ^ i) / K ^ j % K = v / K ^ j % K) ∧
    ∀ n, i < n → v < K ^ n → v / K ^ (i + 1) * K ^ (i + 1) + w * K ^ i + v % K ^ i < K ^ n := by
  have hB : v % K ^ i < K ^ i := Nat.mod_lt _ (by positivity)
  have hlow : w * K ^ i + v % K ^ i < K ^ (i + 1) := by
    rw [pow_succ]
    calc w * K ^ i + v % K ^ i < w * K ^ i + K ^ i := by omega
      _ = (w + 1) * K ^ i := by ring
      _ ≤ K * K ^ i := Nat.mul_le_mul_right _ hw
      _ = _ := Nat.mul_comm _ _
  refine ⟨?_, ?_, ?_⟩
  · have : v / K ^ (i + 1) * K ^ (i + 1) + w * K ^ i + v % K ^ i =
        K ^ i * (v / K ^ (i + 1) * K + w) + v % K ^ i := by rw [pow_succ K i]; ring
    rw [this, Nat.mul_add_div (by positivity), Nat.div_eq_of_lt hB, Nat.add_zero, Nat.mul_comm, Nat.mul_add_mod,
      Nat.mod_eq_of_lt hw]
  · intro j hj
    rcases Nat.lt_or_gt_of_ne hj with h | h
    · obtain ⟨d, rfl⟩ : ∃ d, i = j + 1 + d := ⟨i - j - 1, by omega⟩
      have e1 : ∀ x : Nat, x / K ^ j % K = x % K ^ (j + 1) / K ^ j := by
        intro x; rw [pow_succ, Nat.mod_mul_right_div_self]
      rw [e1, e1]
      congr 1
      rw [← show v % K ^ (j + 1 + d) % K ^ (j + 1) = v % K ^ (j + 1) from
        Nat.mod_mod_of_dvd _ (pow_dvd_pow _ (by omega))]
      have : v / K ^ (j + 1 + d + 1) * K ^ (j + 1 + d + 1) + w * K ^ (j + 1 + d) + v % K ^ (j + 1 + d) =
          K ^ (j + 1) * (v / K ^ (j + 1 + d + 1) * (K ^ d * K) + w * K ^ d) + v % K ^ (j + 1 + d) := by
        rw [pow_succ K (j + 1 + d), pow_add K (j + 1) d]; ring
      rw [this, Nat.mul_add_mod]
    · obtain ⟨d, rfl⟩ : ∃ d, j = i + 1 + d := ⟨j - i - 1, by omega⟩
      rw [pow_add K (i + 1) d, ← Nat.div_div_eq_div_mul, ← Nat.div_div_eq_div_mul]
      congr 2
      rw [Nat.add_assoc, Nat.mul_comm (v / K ^ (i + 1)), Nat.mul_add_div (by positivity), Nat.div_eq_of_lt hlow,
        Nat.add_zero]
  · intro n hn hvn
    obtain ⟨d, rfl⟩ : ∃ d, n = i + 1 + d := ⟨n - i - 1, by omega⟩
    have hA : v / K ^ (i + 1) < K ^ d := by
      apply Nat.div_lt_of_lt_mul; rw [← pow_add]; exact hvn
    rw [pow_add K (i + 1) d]
    have : v / K ^ (i + 1) * K ^ (i + 1) + K ^ (i + 1) ≤ K ^ (i + 1) * K ^ d := by
      rw [← Nat.succ_mul, Nat.mul_comm]; exact Nat.mul_le_mul_left _ hA
    omega

/-- A host write of word i: that word is the written one, the others stay, and the register keeps its width
(20_memory.md R87). -/
theorem replaceWord_spec (v i : Nat) (w : Word) :
    replaceWord v i w / 2 ^ (32 * i) % 2 ^ 32 = w.toNat ∧
    (∀ j, j ≠ i → replaceWord v i w / 2 ^ (32 * j) % 2 ^ 32 = v / 2 ^ (32 * j) % 2 ^ 32) ∧
    ∀ n, i < n → v < 2 ^ (32 * n) → replaceWord v i w < 2 ^ (32 * n) := by
  have := replaceDigit_spec (2 ^ 32) v i w.toNat (Nat.two_pow_pos 32) w.isLt
  unfold replaceWord
  simp only [pow_mul]
  exact this

end Sys2Proof.Machine
end

