-- ==== Sys2Proof/Laws/Bus.lean ====
section
/-! SUPPORT. The bus port's laws: where each register, word and byte is located, what an access to a control register is, and bus words as four bytes. -/

namespace Sys2Proof.Machine

theorem Params.buf_le {p : Params} (h : p.legal = true) : p.bufBytes ≤ 16384 ∧ p.bufBytes % 4 = 0 := by
  simp [Params.legal, Params.bufLegal] at h
  omega

theorem Params.opw_le {p : Params} (h : p.legal = true) : 64 ≤ p.opw ∧ p.opw ≤ 4096 ∧ p.opw % 32 = 0 := by
  simp [Params.legal, Params.opwLegal] at h
  omega

@[simp] theorem locate_ctrl (p : Params) (r : CtrlReg) : locate p r.offset = some (.ctrl r) := by cases r <;> rfl

@[simp] theorem transferOk_ctrl (r : CtrlReg) : transferOk 32 r.offset = true := by cases r <;> rfl

/-- A read of a control register. -/
theorem State.memRead_ctrl (s : State) (r : CtrlReg) :
    s.memRead r.offset 32 = s.respondRead (.readOk (s.readData (.ctrl r))) := by
  unfold State.memRead
  rw [if_pos (transferOk_ctrl r), locate_ctrl]

/-- STATUS is never UNSPECIFIED to the host (20_memory.md R96). -/
@[simp] theorem State.readData_status (s : State) : s.readData (.ctrl .status) = s.status.word s.busy := by
  simp [State.readData]
  rfl

/-- A write of a control register. -/
theorem State.memWrite_ctrl (s : State) (r : CtrlReg) (v : Word) :
    s.memWrite r.offset 32 v =
      if s.busy && (Loc.ctrl r).droppedWhenBusy then
        .next { s.respond .writeOk with status := s.status.overrun }
      else (s.respond .writeOk).storeLoc (.ctrl r) v := by
  unfold State.memWrite
  rw [if_pos (transferOk_ctrl r), locate_ctrl]

/-- Word i of a wide register is implemented at its offset (20_memory.md R84, R87). -/
theorem locate_wide (p : Params) (k : WideName) (i : Nat) (hi : i < p.opw / 32) (ho : p.opw ≤ 4096) :
    locate p (k.offset + 4 * i) = some (.wide k i) ∧ transferOk 32 (k.offset + 4 * i) = true := by
  have hk : ∃ q, q < 11 ∧ k.offset = 0x400 + 0x200 * q ∧ wideAt q = some k := by
    cases k
    · exact ⟨0, by decide, rfl, rfl⟩
    · exact ⟨1, by decide, rfl, rfl⟩
    · exact ⟨2, by decide, rfl, rfl⟩
    · exact ⟨3, by decide, rfl, rfl⟩
    · exact ⟨4, by decide, rfl, rfl⟩
    · exact ⟨5, by decide, rfl, rfl⟩
    · exact ⟨6, by decide, rfl, rfl⟩
    · exact ⟨7, by decide, rfl, rfl⟩
    · exact ⟨8, by decide, rfl, rfl⟩
    · exact ⟨9, by decide, rfl, rfl⟩
    · exact ⟨10, by decide, rfl, rfl⟩
  obtain ⟨q, hq, hoff, hk⟩ := hk
  have e1 : (0x400 + 0x200 * q + 4 * i - 0x400) / 0x200 = q := by omega
  have e2 : (0x400 + 0x200 * q + 4 * i - 0x400) % 0x200 / 4 = i := by omega
  constructor
  · unfold locate wideBase wideWindow Params.wideWords
    rw [hoff, if_neg (by omega), if_pos (by simp only [inBase]; omega)]
    simp only [e1, hk, e2]
    rw [if_pos hi]
  · have hm : (0x400 + 0x200 * q + 4 * i) % 4 = 0 := by omega
    simp [transferOk, hoff, hm]

/-- Byte 4w of a buffer is implemented at its offset (20_memory.md R84, R88). -/
theorem locate_buf (p : Params) (b : BufName) (w : Nat) (hw : 4 * w < p.bufBytes) (hp : p.bufBytes ≤ 16384) :
    locate p (b.base + 4 * w) = some (.buf b (4 * w)) ∧ transferOk 32 (b.base + 4 * w) = true := by
  constructor
  · unfold locate wideBase BufName.base inBase outBase bufWindow
    cases b
    · dsimp only
      rw [if_neg (by omega), if_neg (by omega), if_pos (by omega), show 0x4000 + 4 * w - 0x4000 = 4 * w by omega,
        if_pos hw]
    · dsimp only
      rw [if_neg (by omega), if_neg (by omega), if_neg (by omega), if_pos (by omega),
        show 0x8000 + 4 * w - 0x8000 = 4 * w by omega, if_pos hw]
  · cases b <;> simp [transferOk, BufName.base, inBase, outBase]

/-- The bytes of a packed word (20_memory.md R88). -/
theorem packWord_toNat (b0 b1 b2 b3 : Byte) :
    (packWord b0 b1 b2 b3).toNat = b0.toNat + 256 * b1.toNat + 65536 * b2.toNat + 16777216 * b3.toNat := by
  unfold packWord
  have h0 := b0.isLt
  have h1 := b1.isLt
  have h2 := b2.isLt
  simp only [BitVec.toNat_append]
  rw [← Nat.shiftLeft_add_eq_or_of_lt (by simpa using h0), ← Nat.shiftLeft_add_eq_or_of_lt (by simpa using h1),
    ← Nat.shiftLeft_add_eq_or_of_lt (by simpa using h2)]
  simp only [Nat.shiftLeft_eq]
  ring

/-- The four bytes of a word make the word (20_memory.md R88). -/
theorem packWord_wordByte (v : Word) :
    packWord (wordByte v 0) (wordByte v 1) (wordByte v 2) (wordByte v 3) = v := by
  apply BitVec.eq_of_toNat_eq
  have hv := v.isLt
  rw [packWord_toNat]
  simp only [wordByte, BitVec.extractLsb'_toNat, Nat.shiftRight_eq_div_pow]
  omega

end Sys2Proof.Machine
end

