-- ==== Sys2Proof/Laws/Bytes.lean ====
section
/-! SUPPORT. Byte strings as big-endian integers, and the block arithmetic of the cipher (00_scope.md R20, 45_cipher.md R250 to R259). -/

namespace Sys2Proof.Machine

theorem beInt_foldl (s : List Byte) :
    ∀ a, s.foldl (fun acc b => acc * 256 + b.toNat) a = a * 256 ^ s.length + beInt s := by
  unfold beInt
  induction s with
  | nil => intro a; simp
  | cons b tl ih =>
    intro a
    simp only [List.foldl_cons, List.length_cons]
    rw [ih, ih (0 * 256 + b.toNat)]
    ring

@[simp] theorem beInt_nil : beInt [] = 0 := rfl

theorem beInt_cons (b : Byte) (s : List Byte) : beInt (b :: s) = b.toNat * 256 ^ s.length + beInt s := by
  simpa [beInt] using beInt_foldl s (0 * 256 + b.toNat)

theorem beInt_append (s t : List Byte) : beInt (s ++ t) = beInt s * 256 ^ t.length + beInt t := by
  have := beInt_foldl t (beInt s)
  unfold beInt at *
  rw [List.foldl_append, this]

/-- A string's integer is below 256 to its length. -/
theorem beInt_lt (s : List Byte) : beInt s < 256 ^ s.length := by
  induction s with
  | nil => simp
  | cons b tl ih =>
    rw [beInt_cons, List.length_cons, pow_succ]
    have hb := b.isLt
    have : b.toNat * 256 ^ tl.length ≤ 255 * 256 ^ tl.length := Nat.mul_le_mul_right _ (by omega)
    omega

/-- be_int of be_bytes(v, k) is v modulo 256^k: v itself where be_bytes is defined. -/
theorem beInt_beBytes (k : Nat) : ∀ v, beInt (beBytes v k) = v % 256 ^ k := by
  induction k with
  | zero => intro v; simp [beBytes, Nat.mod_one]
  | succ k ih =>
    intro v
    rw [beBytes, beInt_cons, ih, beBytes_length]
    simp only [BitVec.toNat_ofNat]
    rw [pow_succ 256 k, Nat.mod_mul (x := v), show (2 : Nat) ^ 8 = 256 from rfl]
    ring

/-- be_bytes of a string's integer and length is the string. -/
theorem beBytes_beInt (s : List Byte) : beBytes (beInt s) s.length = s := by
  have key : ∀ (s : List Byte) (a : Nat), beBytes (a * 256 ^ s.length + beInt s) s.length = s := by
    intro s
    induction s with
    | nil => intro a; rfl
    | cons b tl ih =>
      intro a
      simp only [List.length_cons, beBytes]
      have h1 := beInt_lt tl
      rw [show a * 256 ^ (tl.length + 1) + beInt (b :: tl) = (a * 256 + b.toNat) * 256 ^ tl.length + beInt tl by
        rw [beInt_cons]; ring, ih]
      congr 1
      apply BitVec.eq_of_toNat_eq
      simp only [BitVec.toNat_ofNat]
      rw [Nat.mul_comm _ (256 ^ tl.length), Nat.mul_add_div (by positivity), Nat.div_eq_of_lt h1]
      have := b.isLt
      omega
  simpa using key s 0

theorem two_pow_eight_mul (k : Nat) : 2 ^ (8 * k) = 256 ^ k := by rw [pow_mul]; rfl

/-- last(s, k) is the low k bytes (00_scope.md R20). -/
theorem beInt_lastBytes (s : List Byte) (k : Nat) : beInt (lastBytes s k) = beInt s % 256 ^ k := by
  unfold lastBytes
  by_cases h : s.length ≤ k
  · rw [show s.length - k = 0 by omega, List.drop_zero,
      Nat.mod_eq_of_lt (lt_of_lt_of_le (beInt_lt s) (Nat.pow_le_pow_right (by norm_num) h))]
  · push Not at h
    conv_rhs => rw [← List.take_append_drop (s.length - k) s, beInt_append]
    have hl : (s.drop (s.length - k)).length = k := by simp; omega
    have hd := beInt_lt (s.drop (s.length - k))
    rw [hl] at hd
    rw [hl, Nat.mul_comm, Nat.mul_add_mod, Nat.mod_eq_of_lt hd]

/-- The mask of a previous block is its integer's low bs bytes (45_cipher.md R259). -/
theorem mask_eq (bs : Nat) (prev : List Byte) : mask bs prev = beInt prev % 2 ^ (8 * bs) := by
  rw [two_pow_eight_mul]; exact beInt_lastBytes prev bs

/-- bs is at least 1 and N lies between 256^bs and 256^(bs+1) (45_cipher.md R250). -/
theorem blockSizeOf_spec (n : Nat) (h : 9 ≤ bitlen n) :
    1 ≤ blockSizeOf n ∧ 256 ^ blockSizeOf n ≤ n ∧ n < 256 ^ (blockSizeOf n + 1) := by
  unfold blockSizeOf
  rw [if_neg (by omega), ← two_pow_eight_mul, ← two_pow_eight_mul]
  have hn := (bitlen_eq_iff n (bitlen n) (by omega)).1 rfl
  exact ⟨by omega, le_trans (Nat.pow_le_pow_right (by norm_num) (by omega)) hn.1,
    lt_of_lt_of_le hn.2 (Nat.pow_le_pow_right (by norm_num) (by omega))⟩

/-- The last byte decides what unpad does (45_cipher.md R255). -/
theorem unpad_concat (s : List Byte) (b : Byte) :
    unpad (s ++ [b]) =
      if b.toNat = 0 ∨ s.length + 1 < b.toNat then .error .invalidPadding
      else .ok ((s ++ [b]).take (s.length + 1 - b.toNat)) := by
  unfold unpad
  simp

/-- The first ciphertext block of a list of blocks. -/
theorem blockInt_zero (s : List Byte) (size : Nat) : blockInt s size 0 = beInt (s.take size) := by
  simp [blockInt]

/-- The blocks after the first. -/
theorem blockInt_succ (s : List Byte) (size i : Nat) : blockInt s size (i + 1) = blockInt (s.drop size) size i := by
  unfold blockInt
  rw [List.drop_drop, show (i + 1) * size = size + i * size by ring]

theorem serialized_succ (bs nb : Nat) (c : Nat → Nat) :
    serialized bs (nb + 1) c = beBytes (c 0) (bs + 1) ++ serialized bs nb (fun i => c (i + 1)) := by
  unfold serialized
  rw [List.range_succ_eq_map]
  simp [List.flatMap_cons, List.flatMap_map]

theorem joined_succ (bs nb : Nat) (m : Nat → Nat) :
    joined bs (nb + 1) m = beBytes (m 0) bs ++ joined bs nb (fun i => m (i + 1)) := by
  unfold joined
  rw [List.range_succ_eq_map]
  simp [List.flatMap_cons, List.flatMap_map]

theorem serialized_length (bs nb : Nat) (c : Nat → Nat) : (serialized bs nb c).length = nb * (bs + 1) := by
  induction nb generalizing c with
  | zero => simp [serialized]
  | succ n ih => rw [serialized_succ, List.length_append, ih, beBytes_length]; ring

theorem joined_length (bs nb : Nat) (m : Nat → Nat) : (joined bs nb m).length = nb * bs := by
  induction nb generalizing m with
  | zero => simp [joined]
  | succ n ih => rw [joined_succ, List.length_append, ih, beBytes_length]; ring

end Sys2Proof.Machine
end

