-- ==== Sys2Proof/Laws/Exec.lean ====
section
/-! SUPPORT. Each command as its start, its result and its end: the shape every proof about a command begins from. -/

namespace Sys2Proof.Machine

theorem exec_nop_eq (s : State) : exec .nop s = .next (s.accept .nop).finish := rfl

theorem exec_modmul_eq (s : State) :
    exec .modmul s = (s.accept .modmul).settle .modmul (modmulResult s) (fun v t => t.setW .r v) := rfl

theorem exec_modexp_eq (s : State) :
    exec .modexp s = (s.accept .modexp).settle .modexp (modexpResult s) (fun v t => t.setW .r v) := rfl

theorem exec_gcd_eq (s : State) :
    exec .gcd s = (s.accept .gcd).settle .gcd (gcdResult s) (fun v t => t.setW .r v) := rfl

theorem exec_modinv_eq (s : State) :
    exec .modinv s = (s.accept .modinv).settle .modinv (modinvResult s) (fun v t => t.setW .r v) := rfl

theorem exec_mrtest_eq (s : State) :
    exec .mrtest s = (s.accept .mrtest).settleDrawn .mrtest (mrtestResult s) commitVerdict := rfl

theorem exec_genprime_eq (s : State) :
    exec .genprime s = (s.accept .genprime).settleDrawn .genprime (genprimeResult s) (fun v t => t.setW .r v) :=
  rfl

theorem exec_keygen_eq (s : State) :
    exec .keygen s = (s.accept .keygen).settleDrawn .keygen (keygenResult s) commitKey := rfl

theorem exec_encEcb_eq (s : State) :
    exec .encEcb s = (s.startCipher .encEcb).settle .encEcb (encEcbResult s) (fun out t => t.setOutput out) :=
  rfl

theorem exec_decEcb_eq (s : State) :
    exec .decEcb s = (s.startCipher .decEcb).settle .decEcb (decEcbResult s) (fun out t => t.setOutput out) :=
  rfl

theorem exec_encCbc_eq (s : State) :
    exec .encCbc s = (s.startCipher .encCbc).settleDrawn .encCbc (encCbcResult s) (fun out t => t.setOutput out) :=
  rfl

theorem exec_decCbc_eq (s : State) :
    exec .decCbc s = (s.startCipher .decCbc).settle .decCbc (decCbcResult s) (fun out t => t.setOutput out) :=
  rfl

/-- One step is the core's move or the oldest event, in a block with legal parameters. -/
theorem step_cases {s t : State} (h : step s = .next t) :
    s.params.legal = true ∧
      ((s.inputs = [] ∧ s.coreMove = .next t) ∨
        ∃ e rest, s.inputs = e :: rest ∧ { s with inputs := rest }.handle e = .next t) := by
  unfold step State.advance at h
  by_cases hl : s.params.legal = true
  · rw [if_pos hl] at h
    refine ⟨hl, ?_⟩
    cases hi : s.inputs with
    | nil => rw [hi] at h; exact .inl ⟨rfl, h⟩
    | cons e rest => rw [hi] at h; exact .inr ⟨e, rest, rfl, h⟩
  · rw [if_neg hl] at h; cases h

/-- The core's move: nothing while held in reset or IDLE, else the running command. -/
theorem State.coreMove_cases {s t : State} (h : s.coreMove = .next t) :
    (t = s ∧ (s.rst = true ∨ s.run = none)) ∨
    (s.rst = false ∧ ∃ r, s.run = some r ∧
      ((∃ i, decode r.word = .ok i ∧ exec i s = .next t) ∨
        ((∃ e, decode r.word = .error e) ∧ t = { s.illegal r.word with run := none, drawPending := none }))) := by
  unfold State.coreMove at h
  cases hr : s.rst with
  | true => simp only [hr, if_true] at h; cases h; exact .inl ⟨rfl, .inl rfl⟩
  | false =>
    simp only [hr, Bool.false_eq_true, if_false] at h
    cases hrun : s.run with
    | none => rw [hrun] at h; cases h; exact .inl ⟨rfl, .inr rfl⟩
    | some r =>
      rw [hrun] at h
      refine .inr ⟨rfl, r, rfl, ?_⟩
      dsimp only at h
      cases hd : decode r.word with
      | ok i => rw [hd] at h; exact .inl ⟨i, rfl, h⟩
      | error e => rw [hd] at h; cases h; exact .inr ⟨⟨e, rfl⟩, rfl⟩

/-! ### Everything a command can do -/

/-- u is s after a command's start and draws: the start flags are set, a cipher command has written BLOCK_SIZE, a drawing
command has taken answers, and nothing else has changed. -/
structure Started (i : Instr) (s u : State) : Prop where
  status : u.status = s.status.started i.opcode
  params : u.params = s.params
  ctrl : u.ctrl = s.ctrl
  mrRounds : u.mrRounds = s.mrRounds
  primeBits : u.primeBits = s.primeBits
  iterLimit : u.iterLimit = s.iterLimit
  retryLimit : u.retryLimit = s.retryLimit
  msgLen : u.msgLen = s.msgLen
  outLen : u.outLen = s.outLen
  blockSize : u.blockSize = if i.isCipher then BitVec.ofNat 32 (blockSizeOf (s.W .n)) else s.blockSize
  wide : u.wide = s.wide
  mem : u.mem = s.mem
  run : u.run = s.run
  drawPending : u.drawPending = s.drawPending
  rst : u.rst = s.rst
  response : u.response = s.response
  inputs : u.inputs = s.inputs
  entropy : i.draws = false → u.entropy = s.entropy
  free : i.isCipher = false → u.free = s.free

theorem started_accept (i : Instr) (s : State) (h : i.isCipher = false) : Started i s (s.accept i) := by
  constructor <;> first | rfl | (intro _; rfl) | simp [h]

theorem started_cipher (i : Instr) (s : State) (h : i.isCipher = true) : Started i s (s.startCipher i) := by
  constructor <;> first | rfl | (intro _; rfl) | simp [h]

theorem Started.withEntropy {i : Instr} {s u : State} (h : Started i s u) (rest : List Nat) (hd : i.draws = true) :
    Started i s (u.withEntropy rest) :=
  { h with entropy := fun h' => by rw [hd] at h'; cases h' }

/-- t is the end of i from the started state u: an error, a success that writes the command's own wide registers and the
verdict, a success that writes the output, or a wait. -/
inductive Ended (i : Instr) (u t : State) : Prop
  | failed (e : Err) (h : t = u.raise i e)
  | wrote (w : WideFile) (v : Bool) (hc : i.isCipher = false) (hw : ∀ k, k ∉ i.writes → w.get k = u.wide.get k)
      (hv : i ≠ .mrtest → v = false)
      (h : t = ({ u with wide := w, status := { u.status with result := v } } : State).finish)
  | output (out : List Byte) (hc : i.isCipher = true) (h : t = (u.setOutput out).finish)
  | waiting (req : DrawReq) (hd : i.draws = true) (h : t = u.waitFor i req)

theorem ended_setW {i : Instr} {u : State} (v : Nat) (hc : i.isCipher = false) (hw : i.writes = [.r])
    (hr : u.status.result = false) : Ended i u (u.setW .r v).finish := by
  refine .wrote (u.setW .r v).wide false hc (fun k hk => ?_) (fun _ => rfl) ?_
  · rw [hw] at hk
    simp only [List.mem_singleton] at hk
    simp [hk]
  · rw [← hr]; rfl

/-- How each command ends: it has started, taken its answers (all of them still there where it waits), and then done one of
the four things of `Ended`. -/
theorem exec_cases {i : Instr} {s t : State} (h : exec i s = .next t) :
    ∃ u, Started i s u ∧ Ended i u t ∧ (t.busy = true → u.entropy = s.entropy) := by
  cases i with
  | nop =>
    cases h
    exact ⟨s.accept .nop, started_accept _ _ rfl,
      .wrote s.wide false rfl (fun _ _ => rfl) (fun _ => rfl) rfl, by intro h; cases h⟩
  | modmul =>
    rcases State.settle_cases (exec_modmul_eq s ▸ h) with ⟨e, _, rfl⟩ | ⟨a, _, rfl⟩
    · exact ⟨_, started_accept _ _ rfl, .failed e rfl, fun _ => rfl⟩
    · exact ⟨_, started_accept _ _ rfl, ended_setW a rfl rfl rfl, fun _ => rfl⟩
  | modexp =>
    rcases State.settle_cases (exec_modexp_eq s ▸ h) with ⟨e, _, rfl⟩ | ⟨a, _, rfl⟩
    · exact ⟨_, started_accept _ _ rfl, .failed e rfl, fun _ => rfl⟩
    · exact ⟨_, started_accept _ _ rfl, ended_setW a rfl rfl rfl, fun _ => rfl⟩
  | gcd =>
    rcases State.settle_cases (exec_gcd_eq s ▸ h) with ⟨e, _, rfl⟩ | ⟨a, _, rfl⟩
    · exact ⟨_, started_accept _ _ rfl, .failed e rfl, fun _ => rfl⟩
    · exact ⟨_, started_accept _ _ rfl, ended_setW a rfl rfl rfl, fun _ => rfl⟩
  | modinv =>
    rcases State.settle_cases (exec_modinv_eq s ▸ h) with ⟨e, _, rfl⟩ | ⟨a, _, rfl⟩
    · exact ⟨_, started_accept _ _ rfl, .failed e rfl, fun _ => rfl⟩
    · exact ⟨_, started_accept _ _ rfl, ended_setW a rfl rfl rfl, fun _ => rfl⟩
  | mrtest =>
    rcases State.settleDrawn_cases (exec_mrtest_eq s ▸ h) with ⟨e, r, _, rfl⟩ | ⟨a, r, _, rfl⟩ | ⟨q, _, rfl⟩
    · exact ⟨_, (started_accept _ _ rfl).withEntropy r rfl, .failed e rfl, by simp⟩
    · refine ⟨_, (started_accept _ _ rfl).withEntropy r rfl,
        .wrote (((s.accept .mrtest).withEntropy r).setW .r (if a then 1 else 0)).wide a rfl (fun k hk => ?_)
          (fun h => absurd rfl h) rfl, by intro h; cases h⟩
      simp only [Instr.writes, List.mem_singleton] at hk
      simp [hk]
    · exact ⟨_, started_accept _ _ rfl, .waiting q rfl rfl, fun _ => rfl⟩
  | genprime =>
    rcases State.settleDrawn_cases (exec_genprime_eq s ▸ h) with ⟨e, r, _, rfl⟩ | ⟨a, r, _, rfl⟩ | ⟨q, _, rfl⟩
    · exact ⟨_, (started_accept _ _ rfl).withEntropy r rfl, .failed e rfl, by simp⟩
    · exact ⟨_, (started_accept _ _ rfl).withEntropy r rfl, ended_setW a rfl rfl rfl, by intro h; cases h⟩
    · exact ⟨_, started_accept _ _ rfl, .waiting q rfl rfl, fun _ => rfl⟩
  | keygen =>
    rcases State.settleDrawn_cases (exec_keygen_eq s ▸ h) with ⟨e, r, _, rfl⟩ | ⟨a, r, _, rfl⟩ | ⟨q, _, rfl⟩
    · exact ⟨_, (started_accept _ _ rfl).withEntropy r rfl, .failed e rfl, by simp⟩
    · refine ⟨_, (started_accept _ _ rfl).withEntropy r rfl,
        .wrote (commitKey a ((s.accept .keygen).withEntropy r)).wide false rfl (fun k hk => ?_) (fun _ => rfl) rfl,
        by intro h; cases h⟩
      simp only [Instr.writes, List.mem_cons, List.not_mem_nil, or_false, not_or] at hk
      simp [commitKey, hk]
    · exact ⟨_, started_accept _ _ rfl, .waiting q rfl rfl, fun _ => rfl⟩
  | encEcb =>
    rcases State.settle_cases (exec_encEcb_eq s ▸ h) with ⟨e, _, rfl⟩ | ⟨a, _, rfl⟩
    · exact ⟨_, started_cipher _ _ rfl, .failed e rfl, fun _ => rfl⟩
    · exact ⟨_, started_cipher _ _ rfl, .output a rfl rfl, fun _ => rfl⟩
  | decEcb =>
    rcases State.settle_cases (exec_decEcb_eq s ▸ h) with ⟨e, _, rfl⟩ | ⟨a, _, rfl⟩
    · exact ⟨_, started_cipher _ _ rfl, .failed e rfl, fun _ => rfl⟩
    · exact ⟨_, started_cipher _ _ rfl, .output a rfl rfl, fun _ => rfl⟩
  | encCbc =>
    rcases State.settleDrawn_cases (exec_encCbc_eq s ▸ h) with ⟨e, r, _, rfl⟩ | ⟨a, r, _, rfl⟩ | ⟨q, _, rfl⟩
    · exact ⟨_, (started_cipher _ _ rfl).withEntropy r rfl, .failed e rfl, by simp⟩
    · exact ⟨_, (started_cipher _ _ rfl).withEntropy r rfl, .output a rfl rfl, by intro h; cases h⟩
    · exact ⟨_, started_cipher _ _ rfl, .waiting q rfl rfl, fun _ => rfl⟩
  | decCbc =>
    rcases State.settle_cases (exec_decCbc_eq s ▸ h) with ⟨e, _, rfl⟩ | ⟨a, _, rfl⟩
    · exact ⟨_, started_cipher _ _ rfl, .failed e rfl, fun _ => rfl⟩
    · exact ⟨_, started_cipher _ _ rfl, .output a rfl rfl, fun _ => rfl⟩

end Sys2Proof.Machine
end

