-- ==== Sys2Proof/Laws/PerInstr.lean ====
section
/-! SUPPORT. The encoding of each command, one lemma per constructor (30_encoding.md R121). -/

namespace Sys2Proof.Laws.Encoding

/-- Decoding a command's word gives the command back. -/
def Statement (i : Instr) : Prop := decode (encode i) = .ok i

theorem nop : Statement .nop := rfl
theorem modmul : Statement .modmul := rfl
theorem modexp : Statement .modexp := rfl
theorem gcd : Statement .gcd := rfl
theorem modinv : Statement .modinv := rfl
theorem mrtest : Statement .mrtest := rfl
theorem genprime : Statement .genprime := rfl
theorem keygen : Statement .keygen := rfl
theorem encEcb : Statement .encEcb := rfl
theorem decEcb : Statement .decEcb := rfl
theorem encCbc : Statement .encCbc := rfl
theorem decCbc : Statement .decCbc := rfl

end Sys2Proof.Laws.Encoding
end

