-- ==== Sys2Proof/Laws/Prime.lean ====
section
/-! SUPPORT. The Miller-Rabin test never fails, and the sampler fails only by spending its limit (43_prime.md R202, R211). -/

namespace Sys2Proof.Machine

/-- The rounds end with a verdict or wait for the port. -/
theorem mrRounds_ne_err (n r s : Nat) (e : Err) (rest : List Nat) :
    ∀ k ans, mrRounds n r s k ans ≠ .err e rest := by
  intro k
  induction k with
  | zero => intro ans h; cases h
  | succ k ih =>
    intro ans h
    rcases Drawn.andThen_eq_err h with hd | ⟨a, mid, _, hk⟩
    · exact draw_ne_err _ _ _ _ hd
    · split at hk
      · exact ih _ hk
      · cases hk

/-- The test ends with a verdict or waits for the port. -/
theorem mr_ne_err (n k : Nat) (ans rest : List Nat) (e : Err) : mr n k ans ≠ .err e rest := by
  unfold mr
  repeat' split
  · simp
  · simp
  · simp
  · exact mrRounds_ne_err _ _ _ _ _ _ _

/-- E_ITERATION_LIMIT is the sampler's only error. -/
theorem genprime_err (bits k : Nat) {e : Err} {rest : List Nat} :
    ∀ limit ans, genprime bits k limit ans = .err e rest → e = .iterationLimit := by
  intro limit
  induction limit with
  | zero => intro ans h; cases h; rfl
  | succ limit ih =>
    intro ans h
    rcases Drawn.andThen_eq_err h with hd | ⟨v, mid, _, hk⟩
    · exact absurd hd (draw_ne_err _ _ _ _)
    · rcases Drawn.andThen_eq_err hk with hm | ⟨p, mid', _, hp⟩
      · exact absurd hm (mr_ne_err _ _ _ _ _)
      · split at hp
        · cases hp
        · exact ih _ hp

end Sys2Proof.Machine
end

