-- ==== Sys2Proof/Laws/Script.lean ====
section
/-! SUPPORT. Laws of the host script: what one turn can do, that WAIT ends exactly at completion, and that LDW and LDB are undone by the words RDW and RDB read (30_encoding.md R127, R128; 60_exceptions.md R326). -/

namespace Sys2Proof.Machine

/-! ### What statements yield -/

/-- The words of a value, assembled, are the value (20_memory.md R87). -/
theorem assembleWords_wordOf (v n : Nat) :
    assembleWords ((List.range n).map (wordOf v)) = v % 2 ^ (32 * n) := by
  induction n generalizing v with
  | zero => simp [assembleWords, Nat.mod_one]
  | succ n ih =>
    have hw : wordOf v ∘ Nat.succ = wordOf (v / 2 ^ 32) := by
      funext i
      simp only [Function.comp, wordOf, Nat.succ_eq_add_one]
      rw [show 32 * (i + 1) = 32 + 32 * i by ring, pow_add, Nat.div_div_eq_div_mul]
    rw [List.range_succ_eq_map, List.map_cons, List.map_map, hw, assembleWords, ih]
    simp only [wordOf, Nat.mul_zero, pow_zero, Nat.div_one, BitVec.toNat_ofNat]
    rw [show 32 * (n + 1) = 32 + 32 * n by ring, pow_add, Nat.mod_mul]

/-- The bytes of a packed word (20_memory.md R88). -/
theorem wordByte_packWord (b0 b1 b2 b3 : Byte) :
    wordByte (packWord b0 b1 b2 b3) 0 = b0 ∧ wordByte (packWord b0 b1 b2 b3) 1 = b1 ∧
      wordByte (packWord b0 b1 b2 b3) 2 = b2 ∧ wordByte (packWord b0 b1 b2 b3) 3 = b3 := by
  have h0 := b0.isLt
  have h1 := b1.isLt
  have h2 := b2.isLt
  have h3 := b3.isLt
  refine ⟨?_, ?_, ?_, ?_⟩ <;> apply BitVec.eq_of_toNat_eq <;>
    simp only [wordByte, BitVec.extractLsb'_toNat, Nat.shiftRight_eq_div_pow, packWord_toNat] <;> omega

/-- The bytes of the words of a string, as many as it has, are the string (20_memory.md R88). -/
theorem unpackWords_wordOfBytes (bytes : List Byte) :
    (unpackWords ((List.range (wordCount bytes.length)).map (wordOfBytes bytes))).take bytes.length = bytes := by
  have key : ∀ n (s : List Byte), s.length ≤ 4 * n →
      (unpackWords ((List.range n).map (wordOfBytes s))).take s.length = s := by
    intro n
    induction n with
    | zero =>
      intro s h
      simp [List.length_eq_zero_iff.1 (by omega : s.length = 0)]
    | succ n ih =>
      intro s h
      have hw : wordOfBytes s ∘ Nat.succ = wordOfBytes (s.drop 4) := by
        funext i
        simp only [Function.comp, wordOfBytes, byteOrZero, List.getD_eq_getElem?_getD, List.getElem?_drop,
          show 4 * i.succ = 4 + 4 * i by omega, Nat.add_assoc]
      have hi := ih (s.drop 4) (by simp; omega)
      rw [List.range_succ_eq_map, List.map_cons, List.map_map, hw]
      obtain ⟨e0, e1, e2, e3⟩ := wordByte_packWord (byteOrZero s 0) (byteOrZero s 1) (byteOrZero s 2) (byteOrZero s 3)
      simp only [unpackWords, wordOfBytes, Nat.mul_zero, Nat.zero_add, e0, e1, e2, e3]
      match s, hi with
      | [], _ => rfl
      | [a], _ => rfl
      | [a, b], _ => rfl
      | [a, b, c], _ => rfl
      | a :: b :: c :: d :: rest, hi => simpa [byteOrZero] using hi
  exact key _ bytes (by unfold wordCount; omega)

/-- RDW yields what LDW wrote (30_encoding.md R127). -/
theorem Stmt.value_rdw_ldw {p : Params} {k : WideName} {v : Nat} (hp : p.legal = true)
    (hv : (Stmt.ldw k v).legal p = true) :
    (Stmt.rdw k).value ((List.range p.wideWords).map (wordOf v)) = .number v := by
  have ho := Params.opw_le hp
  have hw : 32 * p.wideWords = p.opw := by unfold Params.wideWords; omega
  simp only [Stmt.legal, decide_eq_true_eq] at hv
  rw [Stmt.value, assembleWords_wordOf, hw, Nat.mod_eq_of_lt hv]

/-- RDB yields what LDB wrote (30_encoding.md R127). -/
theorem Stmt.value_rdb_ldb (k : BufName) (bytes : List Byte) :
    (Stmt.rdb k bytes.length).value ((List.range (wordCount bytes.length)).map (wordOfBytes bytes)) = .bytes bytes := by
  rw [Stmt.value, unpackWords_wordOfBytes]

/-! ### What one turn can do -/

/-- Every turn of a run that has not ended is one step of the block on one event, or closes a statement that has no
transaction left, and then the block does not move. -/
theorem HostRun.turn_cases {h g : HostRun} {t : Turn} (hn : h.turn t = .next g) :
    (g = h) ∨
    (∃ st rest, t = .host ∧ h.todo = st :: rest ∧ g = h.close st rest h.responses ∧
      (st.txns h.machine.params)[h.responses.length]? = none) ∨
    (∃ st rest x m, t = .host ∧ h.todo = st :: rest ∧ (st.txns h.machine.params)[h.responses.length]? = some x ∧
      step { h.machine with inputs := [.bus x] } = .next m ∧
      g = ({ h with machine := m } : HostRun).answered st rest m.response) ∨
    ∃ e m, t = .world e ∧ step { h.machine with inputs := [e] } = .next m ∧ g = { h with machine := m } := by
  unfold HostRun.turn at hn
  by_cases he : h.ended = true
  · rw [if_pos he] at hn; cases hn; exact .inl rfl
  · rw [if_neg he] at hn
    cases t with
    | world e =>
      dsimp only at hn
      unfold HostRun.after at hn
      split at hn <;> cases hn
      rename_i m hm
      exact .inr (.inr (.inr ⟨e, m, rfl, hm, rfl⟩))
    | host =>
      dsimp only at hn
      unfold HostRun.hostTurn at hn
      split at hn
      · cases hn; exact .inl rfl
      · rename_i st rest htodo
        split at hn
        · rename_i hx; cases hn; exact .inr (.inl ⟨st, rest, rfl, htodo, rfl, hx⟩)
        · rename_i x hx
          unfold HostRun.after at hn
          split at hn <;> cases hn
          rename_i m hm
          exact .inr (.inr (.inl ⟨st, rest, x, m, rfl, htodo, hx, hm, rfl⟩))

/-- A run that has ended stays as it is (60_exceptions.md R326). -/
theorem HostRun.turn_ended {h : HostRun} (t : Turn) (he : h.ended = true) : h.turn t = .next h := by
  unfold HostRun.turn
  rw [if_pos he]

/-- Only the host's own turns do statements: nothing else of the environment does one (30_encoding.md R127). -/
theorem HostRun.turn_world_todo {h g : HostRun} {e : Event} (hn : h.turn (.world e) = .next g) :
    g.todo = h.todo ∧ g.responses = h.responses ∧ g.results = h.results := by
  rcases HostRun.turn_cases hn with rfl | ⟨_, _, ht, _⟩ | ⟨_, _, _, _, ht, _⟩ | ⟨_, m, _, _, rfl⟩
  · exact ⟨rfl, rfl, rfl⟩
  · cases ht
  · cases ht
  · exact ⟨rfl, rfl, rfl⟩

/-! ### WAIT (30_encoding.md R127, R128) -/

/-- The block's step on a read of STATUS (20_memory.md R90). -/
theorem step_readStatus (s : State) (hl : s.params.legal = true) (hr : s.rst = false) :
    step { s with inputs := [.bus (readAt s.params CtrlReg.status.offset)] } =
      .next (({ s with inputs := [] } : State).respondRead (.readOk (s.status.word s.busy))) := by
  have ho : offsetOf s.params (s.params.base + CtrlReg.status.offset) = some CtrlReg.status.offset := by
    unfold offsetOf
    rw [if_pos (by simp [CtrlReg.offset])]
    simp
  unfold step State.advance
  rw [if_pos (by exact hl)]
  simp only [State.handle, readAt, State.transact, ho, hr, State.memRead_ctrl, State.readData_status]
  rfl

theorem Status.word_busy (st : Status) (b : Bool) : (st.word b).getLsbD 0 = b := by
  unfold Status.word
  rw [BitVec.getLsbD_append]
  cases b <;> rfl

/-- A poll of WAIT: the statement stays while the block is BUSY, and is done, with the STATUS word read, at the first poll
that finds it IDLE: not before the command has completed, and at once where none runs. -/
theorem HostRun.turn_wait {h : HostRun} {rest : List Stmt} (ht : h.todo = .wait :: rest) (hr : h.responses = [])
    (hl : h.machine.params.legal = true) (hrst : h.machine.rst = false) :
    ∃ m : State, m = ({ h.machine with inputs := [] } : State).respondRead
        (.readOk (h.machine.status.word h.machine.busy)) ∧
      h.turn .host = .next
        (if h.machine.busy then { h with machine := m }
        else
          { machine := m, todo := rest, responses := []
            results := h.results ++
              [{ responses := [some (.readOk (h.machine.status.word false))]
                 value := .word (h.machine.status.word false) }] }) := by
  refine ⟨_, rfl, ?_⟩
  have he : h.ended = false := by simp [HostRun.ended, ht]
  unfold HostRun.turn HostRun.hostTurn HostRun.after
  rw [if_neg (by simp [he])]
  simp only [ht, hr, Stmt.txns, List.length_nil, List.getElem?_cons_zero, step_readStatus _ hl hrst]
  have hd : ∀ s : State, dataOf (s.respondRead (.readOk (h.machine.status.word h.machine.busy))).response =
      some (h.machine.status.word h.machine.busy) := fun _ => rfl
  unfold HostRun.answered
  simp only [Stmt.pollsAgain, hd, Status.word_busy]
  cases hb : h.machine.busy with
  | true => simp
  | false =>
    simp only [Bool.false_eq_true, if_false, Stmt.txns, List.length_singleton, List.length_nil]
    rfl

end Sys2Proof.Machine
end

