-- ==== Sys2Proof/Laws/Step.lean ====
section
/-! SUPPORT. The induction over what one step can do, packaged once: a property kept by each of a step's actions is kept by every step. -/

namespace Sys2Proof.Machine

/-- A property that every single thing a step can do keeps is kept by every step: the command's execution, each way a CMD
write ends, each other host write, and the environment's events. -/
theorem step_keeps (P : State → Prop)
    (hexec : ∀ i s t, s.params.legal = true → P s → exec i s = .next t → (s.busy = true ∨ i = .nop) →
      (∀ r, s.run = some r → decode r.word = .ok i) → P t)
    (hillegal : ∀ s v, P s → s.busy = false → P (s.illegal v))
    (hdrop : ∀ s r, P s → s.run = some r → (∃ e, decode r.word = .error e) →
      P { s.illegal r.word with run := none, drawPending := none })
    (hlaunch : ∀ s i v, P s → s.busy = false → s.rst = false → decode v = .ok i → i ≠ .nop → P (s.launch i v))
    (hresponse : ∀ s r, P s → P { s with response := r })
    (hread : ∀ s r n, P s → P { s with response := r, free := n })
    (hinputs : ∀ s r, P s → P { s with inputs := r })
    (hentropy : ∀ s r, P s → P { s with entropy := r })
    (hassert : ∀ s, P s → P s.assertReset)
    (hrelease : ∀ s, P s → P s.releaseReset)
    (hoverrun : ∀ s r, P s → P { s.respond r with status := s.status.overrun })
    (hack : ∀ s v, P s → P (s.acknowledge v))
    (hctrl : ∀ s r v, P s → P (s.storeCtrl r v))
    (hwide : ∀ s k i v, s.params.legal = true → P s → i < s.params.wideWords → P (s.setWideWord k i v))
    (hbuf : ∀ s k j v, s.params.legal = true → P s → j % 4 = 0 → j < s.params.bufBytes → P (s.storeBuf k j v)) :
    ∀ s t, P s → step s = .next t → P t := by
  have hcore : ∀ s t : State, s.params.legal = true → P s → s.coreMove = .next t → P t := by
    intro s t hl hp h
    rcases State.coreMove_cases h with ⟨rfl, _⟩ | ⟨_, r, hr, ⟨i, hi, h⟩ | ⟨he, rfl⟩⟩
    · exact hp
    · exact hexec i s t hl hp h (.inl (by simp [State.busy, hr])) (fun r' hr' => by rw [hr] at hr'; cases hr'; exact hi)
    · exact hdrop s r hp hr he
  intro s t hp h
  obtain ⟨hl, ⟨_, h⟩ | ⟨e, rest, _, h⟩⟩ := step_cases h
  · exact hcore s t hl hp h
  · replace hp := hinputs s rest hp
    replace hl : ({s with inputs := rest} : State).params.legal = true := hl
    generalize ({s with inputs := rest} : State) = s at *
    unfold State.handle at h
    split at h
    · rename_i x
      unfold State.transact at h
      split at h
      · split at h
        · cases h; exact hresponse _ _ hp
        · split at h <;> cases h
          · exact hread _ _ _ hp
          · unfold State.memRead; split
            · split <;> exact hread _ _ _ hp
            · exact hread _ _ _ hp
      · split at h
        · cases h; exact hresponse _ _ hp
        · rename_i off _
          split at h
          · cases h; exact hresponse _ _ hp
          rename_i hrst
          · unfold State.memWrite at h
            split at h
            · rename_i htr
              split at h
              · rename_i l hloc
                split at h
                · cases h; exact hoverrun _ _ hp
                · rename_i hb
                  replace hp := hresponse s (some .writeOk) hp
                  unfold State.respond at h
                  unfold State.storeLoc at h
                  split at h
                  · have hbusy : s.busy = false := by simpa [Loc.droppedWhenBusy, CtrlReg.readOnly] using hb
                    unfold State.startCommand at h
                    split at h
                    · cases h; exact hillegal _ _ hp hbusy
                    · refine hexec .nop { s with response := some .writeOk } t hl hp h (.inr rfl) ?_
                      intro r hr; simp [State.busy] at hbusy; rw [show s.run = none from hbusy] at hr; cases hr
                    · cases h; exact hlaunch _ _ _ hp hbusy (by simpa using hrst) (by assumption) (by assumption)
                  · cases h; exact hack _ _ hp
                  · cases h; exact hctrl _ _ _ hp
                  · cases h; refine hwide _ _ _ _ hl hp ?_
                    unfold locate at hloc
                    split at hloc
                    · simp at hloc
                    split at hloc
                    · split at hloc
                      · dsimp only at hloc; split at hloc <;> cases hloc; assumption
                      · cases hloc
                    split at hloc
                    · split at hloc <;> cases hloc
                    split at hloc
                    · split at hloc <;> cases hloc
                    · cases hloc
                  · cases h; refine hbuf _ _ _ _ hl hp ?_ ?_
                    all_goals
                      simp only [transferOk, Bool.and_eq_true, beq_iff_eq] at htr
                      unfold locate at hloc
                      split at hloc
                      · simp at hloc
                      split at hloc
                      · split at hloc
                        · dsimp only at hloc; split at hloc <;> cases hloc
                        · cases hloc
                      split at hloc
                      · split at hloc <;> cases hloc
                        (simp only [inBase] at *; omega)
                      split at hloc
                      · split at hloc <;> cases hloc
                        (simp only [outBase] at *; omega)
                      · cases hloc
              · cases h; exact hresponse _ _ hp
            · cases h; exact hresponse _ _ hp
    · cases h; exact hassert _ hp
    · cases h; exact hrelease _ hp
    · exact hcore _ _ hl hp h
    · cases h; exact hentropy _ _ hp

end Sys2Proof.Machine
end

