-- ==== Sys2Proof/Tests/Slice0.lean ====
section
/-! SUPPORT. Tests with results from spec/95_test_vectors.md and the rules' own examples, and a witness for the hypotheses of each statement. -/

namespace Sys2Proof.Tests

open Sys2Proof.Machine

/-! ### Helpers -/

/-- The parameters of 95_test_vectors.md's programs. -/
def p64 : Params := { base := 0, opw := 64, bufBytes := 64 }

/-- Right after reset. -/
def s0 : State := State.resetWith p64

/-- A, B, M and X loaded. -/
def loaded (a b m x : Nat) : State := (((s0.setW .a a).setW .b b).setW .m m).setW .x x

/-- The key K9 of 44_keygen.md R237 (95_test_vectors.md): bs = 2. -/
def key9 : State := ((s0.setW .n 132289).setW .e 17).setW .d 54157

/-- K9 with a message in IN_BUF and MSG_LEN set. -/
def message (msg : List Byte) : State :=
  { key9 with mem := Memory.writeBytes [] inBase msg, msgLen := BitVec.ofNat 32 msg.length }

/-- The message of a state with only MSG_LEN set. -/
def length (s : State) (l : Nat) : State := { s with msgLen := BitVec.ofNat 32 l }

/-- Configuration for the prime commands. -/
def tuned (bits k limit retry : Nat) (ans : List Nat) : State :=
  { s0 with
    primeBits := BitVec.ofNat 16 bits, mrRounds := BitVec.ofNat 16 k, iterLimit := BitVec.ofNat 32 limit
    retryLimit := BitVec.ofNat 32 retry, entropy := ans }

/-- The draws of 44_keygen.md R237. -/
def draws9 : List Nat := [0x0F0, 2, 0x0F6, 2, 0x006, 3, 2, 17]

/-- A block that executes a command. -/
def busyState : State := s0.launch .modmul 0x10

/-- A next state with a property. -/
def nextIs (o : Host.Outcome State Fault Refusal) (f : State → Bool) : Bool :=
  match o with
  | .next s => f s
  | .fault _ => false
  | .refused _ => false

/-- The next state; the given one where there is none. -/
def after (o : Host.Outcome State Fault Refusal) : State :=
  match o with
  | .next s => s
  | .fault _ => s0
  | .refused _ => s0

/-- A MODMUL and its WAIT after the given turns. -/
def polled (turns : List Turn) : HostRun :=
  match (HostRun.start (loaded 445 86 497 0) [.cmd .modmul, .wait]).play turns with
  | .next h => h
  | .fault _ | .refused _ => HostRun.start s0 []

/-- An outcome that is a next state is the next state of `after`. -/
theorem next_after {o : Host.Outcome State Fault Refusal} (h : nextIs o (fun _ => true) = true) : o = .next (after o) := by
  cases o with
  | next s => rfl
  | fault r => cases h
  | refused r => cases h

/-- STATUS as the host reads it. -/
def statusOf (s : State) : Word := s.ctrlWord .status

/-- OutBuf[0..OUT_LEN). -/
def output (s : State) : List (Option Byte) := (List.range s.outLen.toNat).map s.outByte

/-- Bytes as OutBuf holds them. -/
def bytes (l : List Byte) : List (Option Byte) := l.map some

/-! ### Well-formedness: each check refuses an ill-formed term -/

theorem test_reserved_bits_refused : reservedClear 0x00000110 = false := by decide
theorem test_reserved_word_illegal : wordLegal 0x00000110 = false := by decide
theorem test_unassigned_opcode_refused : opcodeUnassigned 0x12 = true ∧ wordLegal 0x00000012 = false := by decide
theorem test_legal_word : wordLegal 0x00000053 = true := by decide
theorem test_opw_refused : (Params.opwLegal { p64 with opw := 48 } || Params.opwLegal { p64 with opw := 32 } ||
    Params.opwLegal { p64 with opw := 4128 }) = false := by decide
theorem test_buf_refused : (Params.bufLegal { p64 with bufBytes := 66 } || Params.bufLegal { p64 with bufBytes := 60 } ||
    Params.bufLegal { p64 with bufBytes := 16388 }) = false := by decide
theorem test_base_refused : Params.baseLegal { p64 with base := 4 } = false := by decide
theorem test_illegal_parameters_fault : step { s0 with params := { p64 with opw := 48 } } = .fault .illegalParameters := rfl
theorem test_default_parameters_legal : State.reset.params.legal = true := by decide

/-! ### Decoding: one word per command, written out from 30_encoding.md R120, R121 -/

theorem test_decode_nop : decode 0b00000000000000000000000000000000 = .ok .nop := by decide
theorem test_decode_modmul : decode 0b00000000000000000000000000010000 = .ok .modmul := by decide
theorem test_decode_modexp : decode 0b00000000000000000000000000010001 = .ok .modexp := by decide
theorem test_decode_gcd : decode 0b00000000000000000000000000100000 = .ok .gcd := by decide
theorem test_decode_modinv : decode 0b00000000000000000000000000100001 = .ok .modinv := by decide
theorem test_decode_mrtest : decode 0b00000000000000000000000000110000 = .ok .mrtest := by decide
theorem test_decode_genprime : decode 0b00000000000000000000000000110001 = .ok .genprime := by decide
theorem test_decode_keygen : decode 0b00000000000000000000000001000000 = .ok .keygen := by decide
theorem test_decode_encEcb : decode 0b00000000000000000000000001010000 = .ok .encEcb := by decide
theorem test_decode_decEcb : decode 0b00000000000000000000000001010001 = .ok .decEcb := by decide
theorem test_decode_encCbc : decode 0b00000000000000000000000001010010 = .ok .encCbc := by decide
theorem test_decode_decCbc : decode 0b00000000000000000000000001010011 = .ok .decCbc := by decide
theorem test_decode_reserved : decode 0x00000110 = .error .reservedBitsSet := by decide
theorem test_decode_unassigned : decode 0x00000012 = .error .unassignedOpcode := by decide
theorem test_table_word : decodeTableWord 32 0x21 = some .modinv ∧ decodeTableWord 32 0x121 = none := by decide
theorem test_fetch_word : nextIs (step (State.reset.withFetchWord 32 0x30)) (fun s => statusOf s == 0x00300002) = true := by
  decide

/-! ### Commands (95_test_vectors.md; the row is named in each comment) -/

-- V1
theorem test_nop_status : nextIs (exec .nop s0) (fun s => statusOf s == 0x00000002) = true := by decide
-- V5: NOP clears ERR and ERRCODE
theorem test_nop_clears_error :
    nextIs (exec .nop (s0.illegal 0x110)) (fun s => statusOf s == 0x00000002) = true := by decide
-- V19: the product at full width
theorem test_modmul_full_width : nextIs (exec .modmul (loaded (2 ^ 64 - 1) (2 ^ 64 - 1) (2 ^ 61 - 1) 0))
    (fun s => s.W .r == 49 && statusOf s == 0x00100002) = true := by decide
-- V22
theorem test_modmul_zero_modulus :
    nextIs (exec .modmul (loaded 5 6 0 0)) (fun s => statusOf s == 0x00100706) = true := by decide
-- V11
theorem test_modexp_value : nextIs (exec .modexp (loaded 4 0 497 13)) (fun s => s.W .r == 445) = true := by decide
-- V9 and V10: 0^0 mod 7 and 5^0 mod 1
theorem test_modexp_zero_exponent : (nextIs (exec .modexp (loaded 0 0 7 0)) (fun s => s.W .r == 1) &&
    nextIs (exec .modexp (loaded 5 0 1 0)) (fun s => s.W .r == 0)) = true := by decide
-- V24
theorem test_gcd_value : nextIs (exec .gcd (loaded 48 18 0 0)) (fun s => s.W .r == 6) = true := by decide
-- V26 and V27: one operand 0
theorem test_gcd_zero : (nextIs (exec .gcd (loaded 0 5 0 0)) (fun s => s.W .r == 5) &&
    nextIs (exec .gcd (loaded 7 0 0 0)) (fun s => s.W .r == 7)) = true := by decide
-- V30: a negative coefficient is normalized
theorem test_modinv_normalized : nextIs (exec .modinv (loaded 17 0 3120 0)) (fun s => s.W .r == 2753) = true := by
  decide
-- V36 and V38: no inverse; modulus 0 first
theorem test_modinv_errors : (nextIs (exec .modinv (loaded 6 0 9 0)) (fun s => statusOf s == 0x00210106) &&
    nextIs (exec .modinv (loaded 3 0 0 0)) (fun s => statusOf s == 0x00210706)) = true := by decide
-- V45: 174 is a strong liar for 221
theorem test_mrtest_liar : nextIs (exec .mrtest { loaded 221 0 0 0 with mrRounds := 1, entropy := [174, 9] })
    (fun s => s.W .r == 1 && statusOf s == 0x0030000A && s.entropy == [9]) = true := by decide
-- V53: 9 with base 2
theorem test_mrtest_composite : nextIs (exec .mrtest { loaded 9 0 0 0 with mrRounds := 1, entropy := [2] })
    (fun s => s.W .r == 0 && statusOf s == 0x00300002) = true := by decide
-- V55
theorem test_genprime_value : nextIs (exec .genprime (tuned 8 1 2 0 [0x12, 2, 0x64, 2]))
    (fun s => s.W .r == 229 && statusOf s == 0x00310002) = true := by decide
-- V57
theorem test_genprime_limit : nextIs (exec .genprime (tuned 8 1 1 0 [0x12, 2]))
    (fun s => statusOf s == 0x00310606 && s.W .r == 0) = true := by decide
-- V61
theorem test_keygen_key : nextIs (exec .keygen (tuned 9 1 2 2 draws9)) (fun s =>
    s.W .p == 503 && s.W .q == 263 && s.W .n == 132289 && s.W .phi == 131524 && s.W .e == 17 &&
      s.W .d == 54157 && statusOf s == 0x00400002) = true := by decide
-- V62: bits = 2 always draws p = q = 3
theorem test_keygen_degenerate : nextIs (exec .keygen (tuned 2 1 1 2 [0, 1, 2, 3]))
    (fun s => statusOf s == 0x00400206 && s.W .n == 0) = true := by decide
-- V66
theorem test_encEcb_value : nextIs (exec .encEcb (message [0x48, 0x69, 0x21])) (fun s =>
    output s == bytes [0x01, 0xC9, 0xC5, 0x00, 0x29, 0x7B] && s.blockSize == 2 && statusOf s == 0x00500002) = true := by
  decide
-- V73: bitlen(N) = 8
theorem test_encEcb_small_modulus : nextIs (exec .encEcb (key9.setW .n 255))
    (fun s => statusOf s == 0x00500706 && s.blockSize == 0 && s.outLen == 0) = true := by decide
-- V78
theorem test_decEcb_value : nextIs (exec .decEcb (message [0x01, 0xC9, 0xC5, 0x00, 0x29, 0x7B])) (fun s =>
    output s == bytes [0x48, 0x69, 0x21] && statusOf s == 0x00510002) = true := by decide
-- V80 (not UTF-8, and with TXT_CHECK = 0)
theorem test_decEcb_text : (nextIs (exec .decEcb (message [0x01, 0x10, 0x69, 0x00, 0x45, 0xCC]))
      (fun s => statusOf s == 0x00510406) &&
    nextIs (exec .decEcb { message [0x01, 0x10, 0x69, 0x00, 0x45, 0xCC] with ctrl := { irqEn := false, txtCheck := false } })
      (fun s => output s == bytes [0xFF, 0xFE])) = true := by decide
-- V74: the mask is the ciphertext bytes of the block before
theorem test_encCbc_value : nextIs (exec .encCbc { message [0x48, 0x69, 0x21] with entropy := [0xA55A] }) (fun s =>
    output s == bytes [0xA5, 0x5A, 0x00, 0xF1, 0x36, 0x00, 0x25, 0xD5] && statusOf s == 0x00520002) = true := by decide
-- R57: no answer, so it waits
theorem test_encCbc_waits : nextIs (exec .encCbc key9)
    (fun s => statusOf s == 0x00520001 && s.drawPending == some (.bytes 2)) = true := by decide
-- V86
theorem test_decCbc_value : nextIs (exec .decCbc (message [0xA5, 0x5A, 0x00, 0xF1, 0x36, 0x00, 0x25, 0xD5]))
    (fun s => output s == bytes [0x48, 0x69, 0x21]) = true := by decide
-- V88 and V89: truncated; iv only
theorem test_decCbc_errors : (nextIs (exec .decCbc (message [0xA5, 0x5A, 0x00, 0xF1, 0x36, 0x00, 0x25]))
      (fun s => statusOf s == 0x00530406 && s.outLen == 0) &&
    nextIs (exec .decCbc (message [0xA5, 0x5A])) (fun s => statusOf s == 0x00530306)) = true := by decide

/-! ### Bus, busy and reset -/

-- V2: illegal word through the CMD register
theorem test_illegal_word : nextIs (s0.memWrite 0x004 32 0x00000110) (fun s => statusOf s == 0x00100906) = true := by
  decide
-- V4: CLR clears DONE, ERR and ERRCODE stay
theorem test_clear : nextIs ((s0.illegal 0x110).memWrite 0x008 32 0x12) (fun s => statusOf s == 0x00100904) = true := by
  decide
-- V6, V7
theorem test_constant_reads : (s0.memRead 0x004 32).response = some (.readOk 0) ∧
    (s0.memRead 0x000 32).response = some (.readOk 0x45430001) ∧
    (s0.memRead 0x02C 32).response = some (.readOk 64) := by decide
-- V8
theorem test_bad_transfers : (nextIs (s0.memWrite 0x008 16 0x12) (fun s => s.response == some .writeError) &&
    nextIs (s0.memWrite 0x005 32 0x12) (fun s => s.response == some .writeError)) = true := by decide
-- V93 (20_memory.md R87): word 1 is the upper half
theorem test_wide_word : nextIs (s0.memWrite 0x404 32 5) (fun s =>
    s.W .a == 5 * 2 ^ 32 && (s.memRead 0x404 32).response == some (.readOk 5)) = true := by decide
-- V94
theorem test_buffer_packing : nextIs (s0.memWrite 0x4000 32 0x00216948) (fun s =>
    s.mem == [(0x4000, 0x48), (0x4001, 0x69), (0x4002, 0x21), (0x4003, 0x00)]) = true := by decide
-- V95, V96
theorem test_busy_writes : (nextIs (busyState.memWrite 0x400 32 5) (fun s => s.W .a == 0 && s.status.ovr) &&
    nextIs (busyState.memWrite 0x00C 32 1) (fun s => s.ctrl.irqEn && !s.status.ovr)) = true := by decide
-- 95 program 1, step 4: BUSY = 1, LASTOP = 0x11
theorem test_command_start : nextIs (s0.memWrite 0x004 32 0x11) (fun s => statusOf s == 0x00110001) = true := by decide
-- 95 program 4, step 2: irq rises with DONE
theorem test_irq : nextIs ({ s0 with ctrl := { irqEn := true, txtCheck := true } }.memWrite 0x004 32 0x110)
    (fun s => s.irq) = true := by decide
-- V98 (reset while BUSY)
theorem test_reset : nextIs (step { busyState with inputs := [.rst true] }) (fun s =>
    statusOf s == 0 && !s.busy && s.primeBits == 512) = true := by decide
-- 30_encoding.md R127: LDW of 4 with OPW = 64 (95 program 1, step 1)
theorem test_script_ldw : Stmt.txns p64 (.ldw .a 4) = [.write 0x400 32 4, .write 0x404 32 0] := by decide
-- 95 program 2, step 7
theorem test_script_ldb : Stmt.txns p64 (.ldb .input [0x48, 0x69, 0x21]) = [.write 0x4000 32 0x00216948] := by decide
-- 95 program 2, steps 5 and 13: N = 132289 and 01 C9 C5 00 29 7B, whatever lies beyond OUT_LEN
theorem test_script_values : (Stmt.rdw .n).value [0x204C1, 0] = .number 132289 ∧
    (Stmt.rdb .output 6).value [0x00C5C901, 0xABCD7B29] = .bytes [0x01, 0xC9, 0xC5, 0x00, 0x29, 0x7B] := by decide
-- 95 program 1, steps 8 and 9: a WAIT polls while BUSY and ends with the last STATUS (30_encoding.md R127, R128)
theorem test_script_wait : (polled [.host, .host, .host]).todo = [.wait] ∧
    (polled [.host, .host, .world .core, .host]).results.map (·.value) = [.none, .word 0x00100002] := by decide
-- 60_exceptions.md R326: the last statement is answered but the block is BUSY; then IDLE, whatever else is to come
theorem test_script_end : (HostRun.start busyState []).ended = false ∧
    { s0 with inputs := [.rst true, .entropy 5] }.runEnded = true := by decide
-- 45_cipher.md R256: an overlong form, a surrogate and a four-byte sequence
theorem test_utf8 : utf8WellFormed [0xC0, 0x80] = false ∧ utf8WellFormed [0xED, 0xA0, 0x80] = false ∧
    utf8WellFormed [0xF0, 0x9F, 0x98, 0x80] = true ∧ utf8WellFormed [0xE2, 0x82] = false := by decide

/-! ### A witness for the hypotheses of each statement -/

/-- wideFits holds where every register fits. -/
theorem fits_of (s : State) (h : ([WideName.a, .b, .m, .x, .r, .p, .q, .n, .phi, .e, .d].all
    (fun k => decide (s.W k < 2 ^ s.params.opw))) = true) : s.wideFits := by
  intro k
  have := List.all_eq_true.1 h k (by cases k <;> simp)
  simpa using this

theorem witness_IllegalCommandWord :
    let s : State := { s0 with inputs := [.bus (.write (s0.params.base + 0x004) 32 0x110)] }
    s.params.legal = true ∧ s.rst = false ∧ s.run = none ∧
      s.inputs = .bus (.write (s.params.base + 0x004) 32 0x110) :: [] ∧ (0x110 : Word).toNat / 256 ≠ 0 ∧
      opcodeUnassigned ((0x54 : Word).toNat % 256) = true := by decide
theorem witness_NopCompletes :
    let s : State := { s0 with inputs := [.bus (.write (s0.params.base + 0x004) 32 0)] }
    s.params.legal = true ∧ s.rst = false ∧ s.run = none ∧
      s.inputs = .bus (.write (s.params.base + 0x004) 32 0x00000000) :: [] := by decide
theorem witness_CommandStart :
    let s : State := { s0 with inputs := [.bus (.write (s0.params.base + 0x004) 32 (encode .decCbc))] }
    s.params.legal = true ∧ s.rst = false ∧ s.run = none ∧ Instr.decCbc ≠ .nop ∧
      s.inputs = .bus (.write (s.params.base + 0x004) 32 (encode .decCbc)) :: [] := by decide
theorem witness_StepTakesEvent :
    busyState.params.legal = true ∧ busyState.rst = false ∧
      busyState.run = some { word := 0x10, txtCheck := true, answers := [] } ∧ decode 0x10 = .ok .modmul ∧
      busyState.inputs = [] ∧ { busyState with inputs := [.core] }.inputs = .core :: [] ∧ s0.run = none ∧
      (s0.params.base ≤ 0xFFFF ∧ 0xFFFF < s0.params.base + 0x10000) ∧ s0.params.base + 0x10000 ≤ 0x10000 ∧
      { s0 with inputs := [.bus (.read 0xFFFF 8)] }.inputs = .bus (.read 0xFFFF 8) :: [] ∧
      { s0 with inputs := [.bus (.write 0xFFFF 8 1)] }.inputs = .bus (.write 0xFFFF 8 1) :: [] ∧
      { s0 with inputs := [.entropy 7] }.inputs = .entropy 7 :: [] := by decide
theorem witness_NothingStops : s0.params.legal = true := by decide
theorem witness_ModmulResult : (loaded 7 9 10 0).wideFits ∧ (loaded 7 9 10 0).W .m ≠ 0 ∧
    (loaded 7 9 0 0).wideFits ∧ (loaded 7 9 0 0).W .m = 0 :=
  ⟨fits_of _ (by decide), by decide, fits_of _ (by decide), by decide⟩
theorem witness_ModexpResult : (loaded 4 0 497 13).wideFits ∧ (loaded 4 0 497 13).W .m ≠ 0 ∧
    (loaded 4 0 0 13).wideFits ∧ (loaded 4 0 0 13).W .m = 0 :=
  ⟨fits_of _ (by decide), by decide, fits_of _ (by decide), by decide⟩
theorem witness_GcdResult : (loaded 48 18 0 0).wideFits := fits_of _ (by decide)
theorem witness_ModinvResult : (loaded 17 0 3120 0).wideFits ∧ (loaded 17 0 0 0).W .m = 0 ∧
    ((loaded 6 0 9 0).W .m ≠ 0 ∧ Nat.gcd ((loaded 6 0 9 0).W .a % (loaded 6 0 9 0).W .m) ((loaded 6 0 9 0).W .m) ≠ 1) ∧
    ((loaded 17 0 3120 0).W .m ≠ 0 ∧
      Nat.gcd ((loaded 17 0 3120 0).W .a % (loaded 17 0 3120 0).W .m) ((loaded 17 0 3120 0).W .m) = 1) :=
  ⟨fits_of _ (by decide), by decide, by decide, by decide⟩
theorem witness_MillerRabinRound : 5 ≤ 221 ∧ 221 % 2 = 1 := by decide
theorem witness_PrimeAlwaysPasses : Nat.Prime 97 ∧ 1 ≤ [5].length := ⟨by norm_num, by decide⟩
theorem witness_MillerRabinDraws : (1 < 2 ∧ (4 ≤ 4 ∧ 4 % 2 = 0)) ∧
    5 ≤ 5 ∧ 5 % 2 = 1 ∧ 1 ≤ 1 ∧ mr 5 1 [2] = .ok true [] := by decide
theorem witness_MrtestResult :
    (tuned 8 0 1 1 []).params.legal = true ∧ (tuned 8 0 1 1 []).mrRounds = 0 ∧
    (tuned 8 1 1 1 [2]).params.legal = true ∧ (tuned 8 1 1 1 [2]).mrRounds ≠ 0 ∧
    (tuned 8 1 1 1 [2]).mrRounds.toNat ≤ (tuned 8 1 1 1 [2]).stream.length := by decide
/-- A = 3 and A = 4 need no answer (43_prime.md R204); A = 147 is rejected in the first of five rounds (R205). -/
theorem witness_MrtestResult_few :
    mr (((tuned 8 5 1 1 []).setW .a 3).W .a) 5 ((tuned 8 5 1 1 []).setW .a 3).stream = .ok true [] ∧
    mr (((tuned 8 5 1 1 []).setW .a 4).W .a) 5 ((tuned 8 5 1 1 []).setW .a 4).stream = .ok false [] ∧
    mr (((tuned 8 5 1 1 [2]).setW .a 147).W .a) 5 ((tuned 8 5 1 1 [2]).setW .a 147).stream = .ok false [] := by
  decide
theorem witness_GenprimeResult :
    let s := tuned 8 1 2 0 [0x12, 2, 0x64, 2]
    2 ≤ s.primeBits.toNat ∧ s.primeBits.toNat ≤ s.params.opw ∧ s.mrRounds ≠ 0 ∧
      primeFound s.primeBits.toNat s.mrRounds.toNat s.iterLimit.toNat s.stream 229 [] :=
  ⟨by decide, by decide, by decide, 1, by decide, 0x64, [2], ⟨0x12, [2, 0x64, 2], [0x64, 2], rfl, by decide, rfl⟩,
    by decide, by decide⟩
theorem witness_GenprimeErrors : (tuned 1 1 1 1 []).primeBits.toNat < 2 ∧
    (tuned 65 1 1 1 []).params.opw < (tuned 65 1 1 1 []).primeBits.toNat ∧
    (2 ≤ (tuned 64 0 1 1 []).primeBits.toNat ∧ (tuned 64 0 1 1 []).primeBits.toNat ≤ (tuned 64 0 1 1 []).params.opw ∧
      (tuned 64 0 1 1 []).mrRounds = 0) ∧
    (2 ≤ (tuned 2 1 0 1 []).primeBits.toNat ∧ (tuned 2 1 0 1 []).primeBits.toNat ≤ (tuned 2 1 0 1 []).params.opw ∧
      (tuned 2 1 0 1 []).mrRounds ≠ 0 ∧ (tuned 2 1 0 1 []).iterLimit = 0) := by decide
/-- A spent limit above 0: the one candidate, 0x93 = 147, is composite. -/
theorem witness_GenprimeErrors_spent :
    (tuned 8 1 1 1 [0x12, 2]).mrRounds ≠ 0 ∧ candidatesFail 8 1 1 (tuned 8 1 1 1 [0x12, 2]).stream [] ∧
      ∃ t, exec .genprime (tuned 8 1 1 1 [0x12, 2]) = .next t ∧ t.status.errcode = Err.iterationLimit.code :=
  ⟨by decide, ⟨0x12, [2], [], rfl, by decide, rfl⟩, _, next_after (by decide), by decide⟩
theorem witness_DrawBounds : genprime 8 1 2 [0x12, 2, 0x64, 2] = .ok 229 [] ∧
    genprime 8 1 1 [0x12, 2] = .err .iterationLimit [] ∧ 2 * (1 + 1) ≤ [0x12, 2, 0x64, 2].length ∧
    keygen 9 1 2 2 draws9 = .ok ⟨503, 263, 132289, 131524, 17, 54157⟩ [] ∧
    keygen 9 1 2 0 draws9 = .err .degenerateKey [2, 17] ∧ 2 * (2 + 0) * (1 + 1) + 0 ≤ draws9.length := by decide
theorem witness_KeygenResult :
    let s := tuned 9 1 2 2 draws9
    2 ≤ s.primeBits.toNat ∧ s.primeBits.toNat ≤ s.params.opw / 2 ∧ s.mrRounds.toNat ≠ 0 ∧
      keygen s.primeBits.toNat s.mrRounds.toNat s.iterLimit.toNat s.retryLimit.toNat s.stream =
        .ok ⟨503, 263, 132289, 131524, 17, 54157⟩ [] := by decide
/-- 44_keygen.md R237: 497 fails, 503 passes, 263 passes; 2 has a factor in common with phi = 131524, 17 has none. -/
theorem witness_KeygenResult_draws :
    primesFound 9 1 2 2 (tuned 9 1 2 2 draws9).stream 503 263 [2, 17] ∧
      exponentFound ((503 - 1) * (263 - 1)) 2 [2, 17] 17 [] :=
  ⟨⟨_, _, 0, by decide,
      ⟨1, by decide, 0x0F6, [2, 0x006, 3, 2, 17], ⟨0x0F0, _, _, rfl, by decide, rfl⟩, by decide, by decide⟩, rfl,
      ⟨0, by decide, 0x006, [3, 2, 17], rfl, by decide, by decide⟩, by decide⟩,
    ⟨1, by decide, 17, ⟨2, _, rfl, by decide, rfl⟩, by decide, by decide⟩⟩
theorem witness_KeygenKeyPair :
    ∃ t, exec .keygen (tuned 9 1 2 2 draws9) = .next t ∧ t.busy = false ∧ t.status.err = false :=
  ⟨_, next_after (by decide +kernel), by decide +kernel, by decide +kernel⟩
theorem witness_KeygenErrors : (tuned 1 1 1 1 []).primeBits.toNat < 2 ∧
    (tuned 33 1 1 1 []).params.opw / 2 < (tuned 33 1 1 1 []).primeBits.toNat ∧ (tuned 9 0 1 1 []).mrRounds.toNat = 0 ∧
    (2 ≤ (tuned 32 1 1 0 []).primeBits.toNat ∧
      (tuned 32 1 1 0 []).primeBits.toNat ≤ (tuned 32 1 1 0 []).params.opw / 2 ∧
      (tuned 32 1 1 0 []).mrRounds.toNat ≠ 0 ∧ (tuned 32 1 1 0 []).retryLimit.toNat = 0) ∧
    (after (exec .keygen (tuned 9 1 2 0 draws9))).busy = false := by decide
/-- With 8 bits and one round, 0x64 gives the prime 229, 0x70 the prime 241 and 0x12 the composite 147 (43_prime.md R211). -/
theorem found229 (rest : List Nat) : primeFound 8 1 1 (0x64 :: 2 :: rest) 229 rest :=
  ⟨0, by decide, 0x64, 2 :: rest, rfl, by decide, rfl⟩
theorem fails147 (rest : List Nat) : candidatesFail 8 1 1 (0x12 :: 2 :: rest) rest :=
  ⟨0x12, 2 :: rest, rest, rfl, rfl, rfl⟩
/-- p not found; q not found after one re-draw; q = p after one re-draw; two primes but no coprime e in one draw. -/
theorem witness_KeygenErrors_draws :
    candidatesFail 8 1 1 [0x12, 2] [] ∧
    (primeFound 8 1 1 [0x64, 2, 0x64, 2, 0x12, 2] 229 [0x64, 2, 0x12, 2] ∧
      primeRepeats 8 1 1 229 1 [0x64, 2, 0x12, 2] [0x12, 2] ∧ candidatesFail 8 1 1 [0x12, 2] []) ∧
    (primeFound 8 1 1 [0x64, 2, 0x64, 2, 0x64, 2] 229 [0x64, 2, 0x64, 2] ∧
      primeRepeats 8 1 1 229 (1 + 1) [0x64, 2, 0x64, 2] []) ∧
    primesFound 8 1 1 1 [0x64, 2, 0x70, 2, 2] 229 241 [2] ∧ exponentsFail ((229 - 1) * (241 - 1)) 1 [2] [] :=
  ⟨fails147 [], ⟨found229 _, ⟨_, found229 _, rfl⟩, fails147 []⟩, ⟨found229 _, _, found229 _, _, found229 _, rfl⟩,
    ⟨_, _, 0, by decide, found229 _, rfl, ⟨0, by decide, 0x70, [2, 2], rfl, by decide, rfl⟩, by decide⟩,
    ⟨2, [], rfl, by decide, rfl⟩⟩
theorem witness_BlocksFit : 9 ≤ bitlen 256 ∧ [(0xFF : Byte)].length = blockSizeOf 256 ∧ 255 < 256 := by decide
theorem witness_PadThenUnpad : 1 ≤ 300 ∧ padSize (List.replicate 45 (0 : Byte)).length 300 ≤ 255 ∧ padSize 0 255 ≤ 255 := by
  decide
theorem witness_UnpadChecks : (0 : Byte).toNat = 0 ∧ ([] : List Byte).length + 1 < (2 : Byte).toNat ∧
    1 ≤ (1 : Byte).toNat ∧ (1 : Byte).toNat ≤ ([] : List Byte).length + 1 := by decide
theorem witness_EncEcbResult :
    let s := message [0x48, 0x69, 0x21]
    s.params.legal = true ∧ 9 ≤ bitlen (s.W .n) ∧ s.inputLen ≤ s.params.bufBytes ∧
      padSize s.inputLen (blockSizeOf (s.W .n)) ≤ 255 ∧
      (s.inputLen / blockSizeOf (s.W .n) + 1) * (blockSizeOf (s.W .n) + 1) ≤ s.params.bufBytes := by decide
theorem witness_EncCbcResult :
    let s := { message [0x48, 0x69, 0x21] with entropy := [0xA55A] }
    s.params.legal = true ∧ 9 ≤ bitlen (s.W .n) ∧ s.inputLen ≤ s.params.bufBytes ∧
      padSize s.inputLen (blockSizeOf (s.W .n)) ≤ 255 ∧
      blockSizeOf (s.W .n) +
        (s.inputLen / blockSizeOf (s.W .n) + 1) * (blockSizeOf (s.W .n) + 1) ≤ s.params.bufBytes ∧
      s.stream = 0xA55A :: [] ∧ 0xA55A < 2 ^ (8 * blockSizeOf (s.W .n)) := by decide
/-- A block of OPW = 4096 with N = 2^2056, so bs = 257 and an empty message needs a pad byte of 257. -/
def wideKey : State :=
  { State.resetWith { base := 0, opw := 4096, bufBytes := 64 } with
    wide := { s0.wide with n := { val := 2 ^ 2056, written := 0 } } }
theorem witness_EncryptChecks : bitlen ((key9.setW .n 255).W .n) < 9 ∧
    (9 ≤ bitlen ((length key9 65).W .n) ∧ (length key9 65).params.bufBytes < (length key9 65).inputLen) ∧
    (9 ≤ bitlen ((length key9 42).W .n) ∧ (length key9 42).inputLen ≤ (length key9 42).params.bufBytes ∧
      padSize (length key9 42).inputLen (blockSizeOf ((length key9 42).W .n)) ≤ 255 ∧
      (length key9 42).params.bufBytes < ((length key9 42).inputLen / blockSizeOf ((length key9 42).W .n) + 1) *
        (blockSizeOf ((length key9 42).W .n) + 1)) ∧
    (9 ≤ bitlen ((length key9 40).W .n) ∧ (length key9 40).inputLen ≤ (length key9 40).params.bufBytes ∧
      padSize (length key9 40).inputLen (blockSizeOf ((length key9 40).W .n)) ≤ 255 ∧
      (length key9 40).params.bufBytes < blockSizeOf ((length key9 40).W .n) +
        ((length key9 40).inputLen / blockSizeOf ((length key9 40).W .n) + 1) *
          (blockSizeOf ((length key9 40).W .n) + 1)) := by decide
theorem witness_EncryptChecks_pad : 9 ≤ bitlen (wideKey.W .n) ∧ wideKey.inputLen ≤ wideKey.params.bufBytes ∧
    255 < padSize wideKey.inputLen (blockSizeOf (wideKey.W .n)) := by decide +kernel
theorem witness_DecEcbResult :
    let s := message [0x00, 0x45, 0xCC]
    s.params.legal = true ∧ 9 ≤ bitlen (s.W .n) ∧ s.inputLen ≤ s.params.bufBytes ∧
      s.inputLen % (blockSizeOf (s.W .n) + 1) = 0 ∧
      (∀ i < s.inputLen / (blockSizeOf (s.W .n) + 1),
        blockGood (s.W .n) (s.W .d) (blockSizeOf (s.W .n)) s.input i) ∧
      unpad (joined (blockSizeOf (s.W .n)) (s.inputLen / (blockSizeOf (s.W .n) + 1))
        (decryptedInt (s.W .n) (s.W .d) (blockSizeOf (s.W .n)) s.input)) = .ok [] ∧
      (s.txtSnapshot = true → utf8WellFormed [] = true) := by decide +kernel
/-- DEC_ECB's checks 1 to 4 (the block too large, then the value too large), each met by V73, V91, V81, V83, V84. -/
theorem witness_DecEcbChecks : bitlen ((key9.setW .n 255).W .n) < 9 ∧
    (length key9 65).params.bufBytes < (length key9 65).inputLen ∧
    (message [1, 0xC9, 0xC5, 0, 0x29]).inputLen % (2 + 1) ≠ 0 ∧
    blockSizeOf (key9.W .n) = 2 ∧ (message [2, 4, 0xC1]).inputLen % (2 + 1) = 0 ∧
    132289 ≤ blockInt (message [2, 4, 0xC1]).input (2 + 1) 0 ∧
    blockInt (message [2, 4, 0xC0]).input (2 + 1) 0 < 132289 ∧
    2 ^ (8 * 2) ≤ decryptedInt 132289 54157 2 (message [2, 4, 0xC0]).input 0 := by decide +kernel
/-- DEC_ECB's checks 5 and 6, met by V82 and V80. -/
theorem witness_DecEcbChecks_end :
    unpad (joined 2 0 (decryptedInt 132289 54157 2 (message []).input)) = .error .invalidPadding ∧
    (∀ i < 2, blockGood 132289 54157 2 (message [1, 0x10, 0x69, 0, 0x45, 0xCC]).input i) ∧
    unpad (joined 2 2 (decryptedInt 132289 54157 2 (message [1, 0x10, 0x69, 0, 0x45, 0xCC]).input)) =
      .ok [0xFF, 0xFE] ∧
    (message [1, 0x10, 0x69, 0, 0x45, 0xCC]).txtSnapshot = true ∧ utf8WellFormed [0xFF, 0xFE] = false := by
  decide +kernel
theorem witness_DecCbcResult :
    let s := message [0xA5, 0x5A, 0x01, 0x0B, 0x8B]
    s.params.legal = true ∧ 9 ≤ bitlen (s.W .n) ∧ s.inputLen ≤ s.params.bufBytes ∧ 2 ≤ s.inputLen ∧
      blockSizeOf (s.W .n) = 2 ∧ (s.inputLen - 2) % (2 + 1) = 0 ∧
      (∀ i < 1, blockGood (s.W .n) (s.W .d) 2 (s.input.drop 2) i) ∧
      unpad (joined 2 1 (unmaskedInt (s.W .n) (s.W .d) 2 (beInt (s.input.take 2)) (s.input.drop 2))) = .ok [] ∧
      (s.txtSnapshot = true → utf8WellFormed [] = true) := by decide +kernel
/-- DEC_CBC's checks 3 to 6, met by V90, V88, a block c = N, V84's block, V89, and V80's blocks under a zero iv chain. -/
theorem witness_DecCbcChecks : (message [0xA5]).inputLen < 2 ∧
    ((message [0xA5, 0x5A, 0, 0xF1, 0x36, 0, 0x25]).inputLen - 2) % (2 + 1) ≠ 0 ∧
    132289 ≤ blockInt ((message [0, 0, 2, 4, 0xC1]).input.drop 2) (2 + 1) 0 ∧
    blockInt ((message [0, 0, 2, 4, 0xC0]).input.drop 2) (2 + 1) 0 < 132289 ∧
    2 ^ (8 * 2) ≤ decryptedInt 132289 54157 2 ((message [0, 0, 2, 4, 0xC0]).input.drop 2) 0 ∧
    unpad (joined 2 0 (unmaskedInt 132289 54157 2 0xA55A ((message [0xA5, 0x5A]).input.drop 2))) =
      .error .invalidPadding ∧
    blockGood 132289 54157 2 ((message [0xFF, 0xFC, 0, 0x45, 0xCC]).input.drop 2) 0 ∧
    unpad (joined 2 1 (unmaskedInt 132289 54157 2 0xFF03 ((message [0xFF, 0x03, 0, 0x45, 0xCC]).input.drop 2))) =
      .ok [0xFD] ∧ utf8WellFormed [0xFD] = false := by decide +kernel
theorem witness_CipherErrorOutput : Instr.decEcb.isCipher = true ∧
    ∃ t, exec .decEcb (message []) = .next t ∧ t.status.err = true :=
  ⟨rfl, _, next_after (by decide), by decide⟩
theorem witness_RsaCorrect : Nat.Prime 503 ∧ Nat.Prime 263 ∧ 503 ≠ 263 ∧
    17 * 54157 % ((503 - 1) * (263 - 1)) = 1 ∧ 132288 < 503 * 263 := by norm_num
/-- The state after V67. -/
def encrypted : State := after (exec .encEcb key9)
theorem encrypted_next : exec .encEcb key9 = .next encrypted := next_after (by decide)
theorem witness_EcbRoundTrip :
    let u := message [0x00, 0x45, 0xCC]
    key9.params.legal = true ∧ key9.W .n = 503 * 263 ∧ key9.W .e * u.W .d % ((503 - 1) * (263 - 1)) = 1 ∧
      nextIs (exec .encEcb key9) (fun _ => true) = true ∧ encrypted.status.err = false ∧ u.params = key9.params ∧
      u.W .n = key9.W .n ∧ u.msgLen = encrypted.outLen ∧
      (∀ j < encrypted.outLen.toNat, Memory.read u.mem (inBase + j) = encrypted.outByte j) ∧
      (u.txtSnapshot = true → utf8WellFormed key9.input = true) := by decide +kernel
/-- The state after V76. -/
def chained : State := after (exec .encCbc { key9 with entropy := [0xA55A] })
theorem chained_next : exec .encCbc { key9 with entropy := [0xA55A] } = .next chained := next_after (by decide)
theorem witness_CbcRoundTrip :
    let s := { key9 with entropy := [0xA55A] }
    let u := message [0xA5, 0x5A, 0x01, 0x0B, 0x8B]
    s.params.legal = true ∧ s.W .n = 503 * 263 ∧ s.W .e * u.W .d % ((503 - 1) * (263 - 1)) = 1 ∧
      nextIs (exec .encCbc s) (fun _ => true) = true ∧ chained.busy = false ∧ chained.status.err = false ∧ u.params = s.params ∧
      u.W .n = s.W .n ∧ u.msgLen = chained.outLen ∧
      (∀ j < chained.outLen.toNat, Memory.read u.mem (inBase + j) = chained.outByte j) ∧
      (u.txtSnapshot = true → utf8WellFormed s.input = true) := by decide +kernel
theorem witness_WritesOnlyOnSuccess :
    (∃ t, exec .modmul s0 = .next t ∧ t.status.err = true) ∧ ∃ t, exec .genprime (tuned 8 1 1 1 []) = .next t ∧ t.busy = true :=
  ⟨⟨_, next_after (by decide), by decide⟩, _, next_after (by decide), by decide⟩
theorem witness_ErrorsAsListed : ∃ t, exec .modmul s0 = .next t ∧ t.status.err = true :=
  ⟨_, next_after (by decide), by decide⟩
theorem witness_DoneDrivesIrq : (∃ t, exec .gcd s0 = .next t ∧ t.busy = false) ∧
    (∃ t, exec .genprime (tuned 8 1 1 1 []) = .next t ∧ t.busy = true) ∧ s0.status.done = false ∧
    busyState.StatusInv ∧ busyState.busy = true ∧ Instr.gcd ≠ .nop ∧ s0.run = none ∧
    (0x2 : Word).getLsbD 1 = true ∧ (0x1 : Word).getLsbD 0 = true := by
  refine ⟨⟨_, next_after (by decide), by decide⟩, ⟨_, next_after (by decide), by decide⟩, rfl, ?_, rfl, by decide, rfl,
    by decide, by decide⟩
  refine ⟨⟨fun _ => ⟨rfl, rfl, rfl, rfl⟩, by decide⟩, ?_, ⟨by decide, ?_⟩, fun h => by cases h⟩
  · unfold State.errcodeAssigned; decide
  · intro r hr
    cases hr
    exact ⟨.modmul, by decide, by decide, by decide⟩
theorem witness_NonCipherFrame :
    Instr.keygen ∈ [Instr.nop, .modmul, .modexp, .gcd, .modinv, .mrtest, .genprime, .keygen] ∧
      ∃ t, exec .keygen (tuned 9 1 2 2 draws9) = .next t := ⟨by decide, _, next_after (by decide +kernel)⟩
theorem witness_CipherFrame : key9.params.legal = true ∧ Instr.encEcb ∈ [Instr.encEcb, .decEcb, .encCbc, .decCbc] ∧
    exec .encEcb key9 = .next encrypted := ⟨by decide, by decide, encrypted_next⟩
theorem witness_ResultsDependOnInputs :
    (loaded 7 9 10 0).SameInputs (loaded 7 9 10 3) .modmul ∧
      (∃ t, exec .modmul (loaded 7 9 10 0) = .next t) ∧ ∃ t, exec .modmul (loaded 7 9 10 3) = .next t := by
  refine ⟨?_, ⟨_, next_after (by decide)⟩, _, next_after (by decide)⟩
  unfold State.SameInputs
  decide
theorem witness_CtrlChangeWhileBusy : busyState.run = some { word := 0x10, txtCheck := true, answers := [] } ∧
    ∃ t, exec .modmul busyState = .next t := ⟨rfl, _, next_after (by decide)⟩
theorem witness_WaitingForEntropy : ∃ t, exec .keygen (tuned 9 1 2 2 [0x0F0]) = .next t ∧ t.busy = true :=
  ⟨_, next_after (by decide +kernel), by decide +kernel⟩
/-- The port silent from the start: ENC_CBC of a message of three bytes, MRTEST of 147; and after one candidate: GENPRIME, KEYGEN. -/
theorem witness_WaitingForEntropy_requests :
    (let s := message [0x48, 0x69, 0x21]
     9 ≤ bitlen (s.W .n) ∧ s.inputLen ≤ s.params.bufBytes ∧ padSize s.inputLen (blockSizeOf (s.W .n)) ≤ 255 ∧
      blockSizeOf (s.W .n) + (s.inputLen / blockSizeOf (s.W .n) + 1) * (blockSizeOf (s.W .n) + 1) ≤
        s.params.bufBytes ∧ s.stream = []) ∧
    ((tuned 8 1 1 1 []).mrRounds.toNat ≠ 0 ∧ (tuned 8 1 1 1 []).iterLimit.toNat ≠ 0 ∧
      (tuned 8 1 1 1 []).stream = [] ∧ 5 ≤ ((tuned 8 1 1 1 []).setW .a 147).W .a ∧
      ((tuned 8 1 1 1 []).setW .a 147).W .a % 2 = 1) ∧
    mr 147 1 [] = .waits (.range 2 145) ∧ genprime 8 1 1 [0x64] = .waits (.range 2 227) ∧
    keygen 8 1 1 1 [0x64] = .waits (.range 2 227) ∧
    (2 ≤ (tuned 8 1 1 1 []).primeBits.toNat ∧ (tuned 8 1 1 1 []).primeBits.toNat ≤ (tuned 8 1 1 1 []).params.opw / 2) := by
  decide
theorem witness_BusErrors : ((16 : Nat) ≠ 32 ∧ 0x005 % 4 ≠ 0) ∧
    (0x0034 % 4 = 0 ∧ 0x0034 < 0x10000 ∧ locate p64 0x0034 = none) ∧ locate p64 0x0030 = some (.ctrl .paramBuf) ∧
    locate p64 0x0404 = some (.wide .a 1) ∧ locate p64 0x0408 = none ∧ locate p64 0x19FC = none ∧
    locate p64 0x403C = some (.buf .input 60) ∧ locate p64 0x4040 = none ∧ locate p64 0x803C = some (.buf .output 60) ∧
    locate p64 0xC000 = none := by decide
theorem witness_ControlRegisterAccess : s0.run = none := rfl
theorem witness_WideWordAccess : s0.run = none ∧ s0.params.legal = true ∧ 1 < s0.params.opw / 32 ∧
    ((s0.setW .a 5).wide.get .a).written.getLsbD 1 = true ∧ (s0.wide.get .a).written.getLsbD 1 = false := by decide
theorem witness_BufferWordAccess : s0.run = none ∧ s0.params.legal = true ∧ 4 * 15 < s0.params.bufBytes ∧
    Memory.read (message [0x48]).mem (BufName.input.base + 4 * 0 + 0) = some 0x48 := by decide
theorem witness_BusyWrites : busyState.busy = true ∧ locate busyState.params 0x004 = some (.ctrl .cmd) ∧
    locate busyState.params 0x404 = some (.wide .a 1) ∧ locate busyState.params 0x8000 = some (.buf .output 0) := by decide
theorem witness_BusyReads : busyState.busy = true ∧ locate busyState.params 0x024 = some (.ctrl .outLen) ∧
    locate busyState.params 0x028 = some (.ctrl .blockSize) ∧ locate busyState.params 0x404 = some (.wide .a 1) ∧
    locate busyState.params 0x4000 = some (.buf .input 0) := by decide
theorem witness_ResetAborts :
    let s : State := { busyState with inputs := [.rst true] }
    s.params.legal = true ∧ s.inputs = .rst true :: [] ∧ { s0 with rst := true, inputs := [.core] }.rst = true ∧
      { s0 with rst := true, inputs := [.core] }.inputs = .core :: [] ∧
      { s0 with rst := true }.rst = true ∧ { s0 with rst := true }.inputs = [] ∧
      { s0 with rst := true, inputs := [.rst false] }.inputs = .rst false :: [] ∧
      s0.params.base ≤ 0xFFFF ∧ 0xFFFF < s0.params.base + 0x10000 := by decide
theorem witness_StepKeepsBuffers : s0.MemInv ∧ step s0 = .next s0 :=
  ⟨⟨List.Pairwise.nil, by intro c hc; cases hc⟩, rfl⟩
theorem witness_StepKeepsWideWidth : (loaded 7 9 10 0).wideFits ∧ step (loaded 7 9 10 0) = .next (loaded 7 9 10 0) :=
  ⟨fits_of _ (by decide), rfl⟩
theorem witness_StepKeepsStatus : s0.StatusInv ∧ step s0 = .next s0 := by
  refine ⟨⟨⟨by decide, by decide⟩, ?_, ⟨by decide, by intro r h; cases h⟩, by intro h; cases h⟩, rfl⟩
  unfold State.errcodeAssigned
  decide
theorem witness_StepKeepsParameters : step s0 = .next s0 := rfl

end Sys2Proof.Tests
end

section
/-! O60: the parameters are fixed at synthesis (10_state.md R53), so no step changes them. -/

namespace Sys2Proof.Machine

@[simp] theorem State.assertReset_params (s : State) : s.assertReset.params = s.params := rfl

@[simp] theorem State.storeCtrl_params (s : State) (r : CtrlReg) (v : Word) :
    (s.storeCtrl r v).params = s.params := by
  cases r <;> rfl

theorem Ended.params_eq {i : Instr} {u t : State} (h : Ended i u t) : t.params = u.params := by
  cases h with
  | failed e h => rw [h, State.raise_params]
  | wrote w v hc hw hv h => rw [h, State.finish_params]
  | output out hc h => rw [h, State.finish_params, State.setOutput_params]
  | waiting req hd h => rw [h, State.waitFor_params]

theorem exec_params {i : Instr} {s t : State} (h : exec i s = .next t) : t.params = s.params := by
  obtain ⟨u, hstart, hend, -⟩ := exec_cases h
  exact hend.params_eq.trans hstart.params

/-- Settles O60, by `step_keeps`: each single thing a step can do leaves the parameters as they are. -/
theorem stepKeepsParameters : Obligations.StepKeepsParameters := by
  intro s t h
  refine step_keeps (fun u => u.params = s.params) ?exec ?illegal ?drop ?launch ?response ?read ?inputs ?entropy
    ?assert ?release ?overrun ?ack ?ctrl ?wide ?buf s t rfl h
  case exec => exact fun i u v _ hu hv _ _ => (exec_params hv).trans hu
  -- Every other action is a named update or a record update, and the `_params` lemmas answer it.
  all_goals
    intros
    simpa

end Sys2Proof.Machine
end

section
/-! The invariants of the state, field by field: a state with the same fields meets the same invariant, and what the updates
the frozen laws leave out do to those fields (10_state.md R34, R40, R47; 70_reset_and_hazards.md R340). -/

namespace Sys2Proof.Machine

/-! ### Reset and the host's stores into RW control registers -/

@[simp] theorem State.resetWith_get (p : Params) (k : WideName) : (State.resetWith p).wide.get k = .reset := by
  cases k <;> rfl

theorem State.resetWith_fits (p : Params) : (State.resetWith p).wideFits := by
  intro k
  rw [State.W, State.resetWith_get]
  exact Nat.two_pow_pos _

@[simp] theorem State.storeCtrl_status (s : State) (r : CtrlReg) (v : Word) :
    (s.storeCtrl r v).status = s.status := by
  cases r <;> rfl

@[simp] theorem State.storeCtrl_wide (s : State) (r : CtrlReg) (v : Word) : (s.storeCtrl r v).wide = s.wide := by
  cases r <;> rfl

@[simp] theorem State.storeCtrl_mem (s : State) (r : CtrlReg) (v : Word) : (s.storeCtrl r v).mem = s.mem := by
  cases r <;> rfl

@[simp] theorem State.storeCtrl_run (s : State) (r : CtrlReg) (v : Word) : (s.storeCtrl r v).run = s.run := by
  cases r <;> rfl

@[simp] theorem State.storeCtrl_drawPending (s : State) (r : CtrlReg) (v : Word) :
    (s.storeCtrl r v).drawPending = s.drawPending := by
  cases r <;> rfl

@[simp] theorem State.storeCtrl_rst (s : State) (r : CtrlReg) (v : Word) : (s.storeCtrl r v).rst = s.rst := by
  cases r <;> rfl

/-! ### A state with the same fields meets the same invariant -/

theorem State.MemInv.of_eq {s t : State} (h : s.MemInv) (hm : t.mem = s.mem) (hp : t.params = s.params) :
    t.MemInv where
  wf := hm ▸ h.wf
  within := by simpa [State.memInBuffers, hm, hp] using h.within

theorem State.StatusInv.of_eq {s t : State} (h : s.StatusInv) (hs : t.status = s.status) (hr : t.run = s.run)
    (hd : t.drawPending = s.drawPending) (hrst : t.rst = s.rst) : t.StatusInv where
  flags := by simpa [State.flagsConsistent, State.busy, hs, hr] using h.flags
  errcode := by simpa [State.errcodeAssigned, hs] using h.errcode
  run := by simpa [State.runConsistent, State.busy, hs, hr, hd] using h.run
  resetIdle := by simpa [State.resetIdle, hr, hrst] using h.resetIdle

/-- An IDLE block with no draw pending meets the invariant as soon as ERR and ERRCODE agree. -/
theorem State.StatusInv.of_idle {t : State} (hr : t.run = none) (hd : t.drawPending = none)
    (he : t.status.err = true ↔ t.status.errcode ≠ 0) (hc : t.errcodeAssigned) : t.StatusInv where
  flags := ⟨by simp [State.busy, hr], he⟩
  errcode := hc
  run := ⟨fun h => absurd hd h, by simp [hr]⟩
  resetIdle := fun _ => hr

theorem State.resetWith_statusInv (p : Params) : (State.resetWith p).StatusInv := by
  refine .of_idle rfl rfl ?_ (Nat.zero_le 9)
  simp [State.resetWith]

end Sys2Proof.Machine
end

section
/-! O57: the buffers stay canonical and inside their BUF_BYTES bytes (10_state.md R47). Of the commands only a cipher command's
output could leave OUT_BUF, and R258's checks keep its length below BUF_BYTES. -/

namespace Sys2Proof.Machine

/-! ### The length of a cipher command's output (45_cipher.md R258, R271 to R277) -/

theorem prepend_eq_ok {a out : List Byte} {r : Except Err (List Byte)} (h : prepend a r = .ok out) :
    ∃ more, r = .ok more ∧ out = a ++ more := by
  cases r with
  | error e => cases h
  | ok more => cases h; exact ⟨more, rfl, rfl⟩

theorem encryptBlock_length {n e bs x : Nat} {cb : List Byte} (h : encryptBlock n e bs x = .ok cb) :
    cb.length = bs + 1 := by
  unfold encryptBlock at h
  split at h
  · cases h
  · cases h; simp

theorem encEcbBlocks_length {n e bs nb : Nat} {pm out : List Byte} (h : encEcbBlocks n e bs nb pm = .ok out) :
    out.length = nb * (bs + 1) := by
  induction nb generalizing pm out with
  | zero => cases h; simp
  | succ nb ih =>
    rw [encEcbBlocks] at h
    split at h
    next => cases h
    next cb hcb =>
      obtain ⟨more, hmore, rfl⟩ := prepend_eq_ok h
      rw [List.length_append, encryptBlock_length hcb, ih hmore]
      ring

theorem encCbcBlocks_length {n e bs nb : Nat} {prev pm out : List Byte}
    (h : encCbcBlocks n e bs nb prev pm = .ok out) : out.length = nb * (bs + 1) := by
  induction nb generalizing prev pm out with
  | zero => cases h; simp
  | succ nb ih =>
    rw [encCbcBlocks] at h
    split at h
    next => cases h
    next cb hcb =>
      obtain ⟨more, hmore, rfl⟩ := prepend_eq_ok h
      rw [List.length_append, encryptBlock_length hcb, ih hmore]
      ring

theorem decEcbBlocks_length {n d bs nb : Nat} {s out : List Byte} (h : decEcbBlocks n d bs nb s = .ok out) :
    out.length = nb * bs := by
  induction nb generalizing s out with
  | zero => cases h; simp
  | succ nb ih =>
    rw [decEcbBlocks] at h
    split at h
    next => cases h
    next y _ =>
      obtain ⟨more, hmore, rfl⟩ := prepend_eq_ok h
      rw [List.length_append, beBytes_length, ih hmore]
      ring

theorem decCbcBlocks_length {n d bs nb : Nat} {prev s out : List Byte}
    (h : decCbcBlocks n d bs nb prev s = .ok out) : out.length = nb * bs := by
  induction nb generalizing prev s out with
  | zero => cases h; simp
  | succ nb ih =>
    rw [decCbcBlocks] at h
    split at h
    next => cases h
    next y _ =>
      obtain ⟨more, hmore, rfl⟩ := prepend_eq_ok h
      rw [List.length_append, beBytes_length, ih hmore]
      ring

theorem unpad_length_le {s msg : List Byte} (h : unpad s = .ok msg) : msg.length ≤ s.length := by
  unfold unpad at h
  split at h
  next => cases h
  next =>
    split at h
    · cases h
    · cases h; simp

theorem checkText_eq_ok {txt : Bool} {msg out : List Byte} (h : checkText txt msg = .ok out) : out = msg := by
  unfold checkText at h
  split at h
  · cases h
  · cases h; rfl

theorem finishText_length_le {txt : Bool} {padded out : List Byte} (h : finishText txt padded = .ok out) :
    out.length ≤ padded.length := by
  unfold finishText at h
  split at h
  next => cases h
  next msg hmsg => exact checkText_eq_ok h ▸ unpad_length_le hmsg

/-- Every check of R250 and R258 passes. -/
theorem encryptError_eq_none_iff {buf n len outLen : Nat} :
    encryptError buf n len outLen = none ↔
      9 ≤ bitlen n ∧ len ≤ buf ∧ padSize len (blockSizeOf n) ≤ 255 ∧ outLen ≤ buf := by
  unfold encryptError
  split_ifs <;> simp <;> omega

theorem decEcbError_eq_none {buf n len : Nat} (h : decEcbError buf n len = none) : len ≤ buf := by
  unfold decEcbError at h
  split_ifs at h
  omega

theorem decCbcError_eq_none {buf n len : Nat} (h : decCbcError buf n len = none) :
    blockSizeOf n ≤ len ∧ len ≤ buf := by
  unfold decCbcError at h
  split_ifs at h
  omega

theorem encEcbResult_length_le {s : State} {out : List Byte} (h : encEcbResult s = .ok out) :
    out.length ≤ s.params.bufBytes := by
  unfold encEcbResult at h
  dsimp only at h
  split at h
  next => cases h
  next hchecks =>
    obtain ⟨_, _, _, hout⟩ := encryptError_eq_none_iff.1 hchecks
    rw [encEcbBlocks_length h]
    exact hout

/-- Blocks that keep bs of their bs + 1 bytes make no more bytes than they came from. -/
theorem div_succ_mul_le (len bs : Nat) : len / (bs + 1) * bs ≤ len :=
  (Nat.mul_le_mul_left _ (Nat.le_succ bs)).trans (Nat.div_mul_le_self len (bs + 1))

theorem decEcbResult_length_le {s : State} {out : List Byte} (h : decEcbResult s = .ok out) :
    out.length ≤ s.params.bufBytes := by
  unfold decEcbResult at h
  dsimp only at h
  split at h
  next => cases h
  next hchecks =>
    split at h
    next => cases h
    next padded hpadded =>
      calc out.length ≤ padded.length := finishText_length_le h
        _ = s.inputLen / (blockSizeOf (s.W .n) + 1) * blockSizeOf (s.W .n) := decEcbBlocks_length hpadded
        _ ≤ s.inputLen := div_succ_mul_le _ _
        _ ≤ s.params.bufBytes := decEcbError_eq_none hchecks

theorem decCbcResult_length_le {s : State} {out : List Byte} (h : decCbcResult s = .ok out) :
    out.length ≤ s.params.bufBytes := by
  unfold decCbcResult at h
  dsimp only at h
  split at h
  next => cases h
  next hchecks =>
    split at h
    next => cases h
    next padded hpadded =>
      calc out.length ≤ padded.length := finishText_length_le h
        _ = (s.inputLen - blockSizeOf (s.W .n)) / (blockSizeOf (s.W .n) + 1) * blockSizeOf (s.W .n) :=
          decCbcBlocks_length hpadded
        _ ≤ s.inputLen - blockSizeOf (s.W .n) := div_succ_mul_le _ _
        _ ≤ s.inputLen := Nat.sub_le _ _
        _ ≤ s.params.bufBytes := (decCbcError_eq_none hchecks).2

theorem Drawn.ofExcept_eq_ok {α : Type} {r : Except Err α} {a : α} {rest mid : List Nat}
    (h : Drawn.ofExcept r mid = .ok a rest) : r = .ok a := by
  cases r with
  | error e => cases h
  | ok b => cases h; rfl

theorem encCbcResult_length_le {s : State} {out : List Byte} {rest : List Nat} (h : encCbcResult s = .ok out rest) :
    out.length ≤ s.params.bufBytes := by
  unfold encCbcResult at h
  dsimp only at h
  split at h
  next => cases h
  next hchecks =>
    obtain ⟨_, _, _, hout⟩ := encryptError_eq_none_iff.1 hchecks
    obtain ⟨iv, mid, _, hiv⟩ := Drawn.andThen_eq_ok h
    obtain ⟨more, hmore, rfl⟩ := prepend_eq_ok (Drawn.ofExcept_eq_ok hiv)
    rw [List.length_append, beBytes_length, encCbcBlocks_length hmore]
    exact hout

/-! ### What a command does to the buffers -/

/-- t's buffers are s's, but for OUT_BUF's window, which may have been dropped (45_cipher.md R257) or hold an output of
at most n bytes (R271). -/
inductive BufMove (n : Nat) (s t : State) : Prop
  | same (h : t.mem = s.mem)
  | dropped (h : t.mem = s.dropOutput.mem)
  | stored (out : List Byte) (hn : out.length ≤ n) (h : t.mem = (s.setOutput out).mem)

theorem State.raise_bufMove (n : Nat) (s : State) (i : Instr) (e : Err) : BufMove n s (s.raise i e) := by
  cases hc : i.isCipher with
  | true => exact .dropped (by simp [State.raise_mem, hc])
  | false => exact .same (by simp [State.raise_mem, hc])

theorem BufMove.congr_left {n : Nat} {s u t : State} (hu : u.mem = s.mem) (h : BufMove n u t) : BufMove n s t := by
  cases h with
  | same h => exact .same (h.trans hu)
  | dropped h => exact .dropped (by rw [h, State.dropOutput_mem, State.dropOutput_mem, hu])
  | stored out hn h => exact .stored out hn (by rw [h, State.setOutput_mem, State.setOutput_mem, hu])

theorem State.settle_bufMove {n : Nat} {s t : State} {i : Instr} {res : Except Err (List Byte)}
    (h : s.settle i res (fun out u => u.setOutput out) = .next t)
    (hn : ∀ out, res = .ok out → out.length ≤ n) : BufMove n s t := by
  rcases State.settle_cases h with ⟨e, _, rfl⟩ | ⟨out, hout, rfl⟩
  · exact s.raise_bufMove n i e
  · exact .stored out (hn out hout) rfl

theorem State.settleDrawn_bufMove {n : Nat} {s t : State} {i : Instr} {res : Drawn (List Byte)}
    (h : s.settleDrawn i res (fun out u => u.setOutput out) = .next t)
    (hn : ∀ out rest, res = .ok out rest → out.length ≤ n) : BufMove n s t := by
  rcases State.settleDrawn_cases h with ⟨e, rest, _, rfl⟩ | ⟨out, rest, hout, rfl⟩ | ⟨req, _, rfl⟩
  · exact .congr_left (s.withEntropy_mem rest) ((s.withEntropy rest).raise_bufMove n i e)
  · exact .stored out (hn out rest hout) rfl
  · exact .same rfl

/-- A command that is no cipher command leaves the buffers. -/
theorem Ended.mem_eq {i : Instr} {u t : State} (hc : i.isCipher = false) (h : Ended i u t) : t.mem = u.mem := by
  cases h with
  | failed e h => simp [h, State.raise_mem, hc]
  | wrote w v _ _ _ h => rw [h, State.finish_mem]
  | output out hc' h => rw [hc] at hc'; cases hc'
  | waiting req hd h => rw [h, State.waitFor_mem]

theorem exec_mem_eq {i : Instr} {s t : State} (hc : i.isCipher = false) (h : exec i s = .next t) : t.mem = s.mem := by
  obtain ⟨u, hstart, hend, -⟩ := exec_cases h
  exact (hend.mem_eq hc).trans hstart.mem

/-- What any command does to the buffers: its output, if any, has at most BUF_BYTES bytes. -/
theorem exec_bufMove {i : Instr} {s t : State} (h : exec i s = .next t) : BufMove s.params.bufBytes s t := by
  cases hc : i.isCipher with
  | false => exact .same (exec_mem_eq hc h)
  | true =>
    cases i with
    | encEcb =>
      exact .congr_left (s.startCipher_mem _)
        (State.settle_bufMove (exec_encEcb_eq s ▸ h) fun _ => encEcbResult_length_le)
    | decEcb =>
      exact .congr_left (s.startCipher_mem _)
        (State.settle_bufMove (exec_decEcb_eq s ▸ h) fun _ => decEcbResult_length_le)
    | encCbc =>
      exact .congr_left (s.startCipher_mem _)
        (State.settleDrawn_bufMove (exec_encCbc_eq s ▸ h) fun _ _ => encCbcResult_length_le)
    | decCbc =>
      exact .congr_left (s.startCipher_mem _)
        (State.settle_bufMove (exec_decCbc_eq s ▸ h) fun _ => decCbcResult_length_le)
    | _ => cases hc

/-! ### The invariant -/

/-- A string written inside a buffer keeps the buffers' invariant. -/
theorem State.MemInv.writeBytes {s : State} (h : s.MemInv) (k : BufName) (j : Nat) (bs : List Byte)
    (hj : j + bs.length ≤ s.params.bufBytes) {t : State} (hm : t.mem = Memory.writeBytes s.mem (k.base + j) bs)
    (hp : t.params = s.params) : t.MemInv where
  wf := hm ▸ Memory.writeBytes_wf _ _ h.wf
  within := by
    intro c hc
    rw [hp]
    rw [hm] at hc
    rcases Memory.mem_writeBytes hc with hc | hc
    · cases k <;> simp only [BufName.base] at hc <;> omega
    · exact h.within c hc

theorem State.MemInv.dropOutput {s : State} (h : s.MemInv) : s.dropOutput.MemInv where
  wf := Memory.erase_wf _ _ h.wf
  within := fun c hc => h.within c (Memory.mem_erase hc)

theorem State.MemInv.of_bufMove {s t : State} (h : s.MemInv) (hp : t.params = s.params)
    (hmove : BufMove s.params.bufBytes s t) : t.MemInv := by
  cases hmove with
  | same hm => exact h.of_eq hm hp
  | dropped hm => exact h.dropOutput.of_eq hm hp
  | stored out hn hm => exact h.dropOutput.writeBytes .output 0 out (by simpa using hn) hm hp

/-- Settles O57, by `step_keeps`: only a command and a host store of a buffer word touch the buffers. -/
theorem stepKeepsBuffers : Obligations.StepKeepsBuffers := by
  refine step_keeps State.MemInv ?exec ?illegal ?drop ?launch ?response ?read ?inputs ?entropy ?assert ?release
    ?overrun ?ack ?ctrl ?wide ?buf
  case exec => exact fun i s t _ hs h _ _ => hs.of_bufMove (exec_params h) (exec_bufMove h)
  case assert => exact fun s _ => ⟨List.Pairwise.nil, by intro c hc; cases hc⟩
  case ctrl => exact fun s r v hs => hs.of_eq (s.storeCtrl_mem r v) (s.storeCtrl_params r v)
  case buf =>
    intro s k j v hl hs hj hlt
    have hbuf := (Params.buf_le hl).2
    exact hs.writeBytes k j _ (by simp only [List.length_cons, List.length_nil]; omega) rfl rfl
  -- Every other action leaves the buffers and the parameters.
  all_goals
    intros
    have hs := ‹State.MemInv _›
    exact hs.of_eq rfl rfl

end Sys2Proof.Machine
end

section
/-! O58: each wide register stays below 2^OPW (10_state.md R40). A command's store truncates (log 18), and a host write
replaces one of the OPW/32 words. -/

namespace Sys2Proof.Machine

/-- A value below 2^opw stays below it when one of its 32-bit words is replaced (20_memory.md R87). -/
theorem replaceWord_lt {v i opw : Nat} (w : Word) (hv : v < 2 ^ opw) (hi : i < opw / 32) :
    replaceWord v i w < 2 ^ opw := by
  have hsplit : 2 ^ opw = 2 ^ (opw - 32 * (i + 1)) * 2 ^ (32 * (i + 1)) := by
    rw [← pow_add]; congr 1; omega
  have hhigh : v / 2 ^ (32 * (i + 1)) < 2 ^ (opw - 32 * (i + 1)) :=
    Nat.div_lt_of_lt_mul (by rwa [Nat.mul_comm, ← hsplit])
  have hlow : v % 2 ^ (32 * i) < 2 ^ (32 * i) := Nat.mod_lt _ (Nat.two_pow_pos _)
  have hword : w.toNat * 2 ^ (32 * i) + v % 2 ^ (32 * i) < 2 ^ (32 * (i + 1)) := by
    calc w.toNat * 2 ^ (32 * i) + v % 2 ^ (32 * i) < (w.toNat + 1) * 2 ^ (32 * i) := by
          rw [Nat.add_mul, Nat.one_mul]; omega
      _ ≤ 2 ^ 32 * 2 ^ (32 * i) := Nat.mul_le_mul_right _ w.isLt
      _ = 2 ^ (32 * (i + 1)) := by rw [← pow_add]; congr 1; omega
  calc replaceWord v i w < (v / 2 ^ (32 * (i + 1)) + 1) * 2 ^ (32 * (i + 1)) := by
        rw [replaceWord, Nat.add_mul, Nat.one_mul]; omega
    _ ≤ 2 ^ (opw - 32 * (i + 1)) * 2 ^ (32 * (i + 1)) := Nat.mul_le_mul_right _ hhigh
    _ = 2 ^ opw := hsplit.symm

theorem State.setWideWord_fits {s : State} (k : WideName) {i : Nat} (w : Word) (hi : i < s.params.wideWords)
    (h : s.wideFits) : (s.setWideWord k i w).wideFits := by
  intro j
  by_cases hj : j = k
  · subst hj
    simpa [State.W, State.setWideWord] using replaceWord_lt w (h j) hi
  · simpa [State.W, State.setWideWord, hj] using h j

theorem commitVerdict_fits (v : Bool) {s : State} (h : s.wideFits) : (commitVerdict v s).wideFits :=
  State.setW_fits .r _ h

theorem commitKey_fits (k : Key) {s : State} (h : s.wideFits) : (commitKey k s).wideFits :=
  State.setW_fits .d _ <| State.setW_fits .e _ <| State.setW_fits .phi _ <| State.setW_fits .n _ <|
    State.setW_fits .q _ <| State.setW_fits .p _ h

theorem State.settle_fits {α : Type} {s t : State} {i : Instr} {res : Except Err α} {commit : α → State → State}
    (h : s.settle i res commit = .next t) (hs : s.wideFits)
    (hcommit : ∀ a u, u.wideFits → (commit a u).wideFits) : t.wideFits := by
  rcases State.settle_cases h with ⟨e, _, rfl⟩ | ⟨a, _, rfl⟩
  · exact State.wideFits_of_eq (s.raise_wide i e) (s.raise_params i e) hs
  · exact State.wideFits_of_eq rfl rfl (hcommit a s hs)

theorem State.settleDrawn_fits {α : Type} {s t : State} {i : Instr} {res : Drawn α} {commit : α → State → State}
    (h : s.settleDrawn i res commit = .next t) (hs : s.wideFits)
    (hcommit : ∀ a u, u.wideFits → (commit a u).wideFits) : t.wideFits := by
  rcases State.settleDrawn_cases h with ⟨e, rest, _, rfl⟩ | ⟨a, rest, _, rfl⟩ | ⟨req, _, rfl⟩
  · exact State.wideFits_of_eq ((s.withEntropy rest).raise_wide i e) ((s.withEntropy rest).raise_params i e) hs
  · exact State.wideFits_of_eq rfl rfl (hcommit a (s.withEntropy rest) hs)
  · exact State.wideFits_of_eq rfl rfl hs

theorem exec_fits {i : Instr} {s t : State} (hs : s.wideFits) (h : exec i s = .next t) : t.wideFits := by
  have hsetR : ∀ (v : Nat) (u : State), u.wideFits → (u.setW .r v).wideFits := fun v _ => State.setW_fits .r v
  have hstart : ∀ j, (s.accept j).wideFits := fun _ => hs
  have hcipher : ∀ j, (s.startCipher j).wideFits := fun _ => hs
  have hsetOutput : ∀ (out : List Byte) (u : State), u.wideFits → (u.setOutput out).wideFits := fun _ _ hu => hu
  cases i with
  | nop => cases h; exact hs
  | modmul => exact State.settle_fits (exec_modmul_eq s ▸ h) (hstart _) hsetR
  | modexp => exact State.settle_fits (exec_modexp_eq s ▸ h) (hstart _) hsetR
  | gcd => exact State.settle_fits (exec_gcd_eq s ▸ h) (hstart _) hsetR
  | modinv => exact State.settle_fits (exec_modinv_eq s ▸ h) (hstart _) hsetR
  | mrtest => exact State.settleDrawn_fits (exec_mrtest_eq s ▸ h) (hstart _) (fun v _ => commitVerdict_fits v)
  | genprime => exact State.settleDrawn_fits (exec_genprime_eq s ▸ h) (hstart _) hsetR
  | keygen => exact State.settleDrawn_fits (exec_keygen_eq s ▸ h) (hstart _) (fun k _ => commitKey_fits k)
  | encEcb => exact State.settle_fits (exec_encEcb_eq s ▸ h) (hcipher _) hsetOutput
  | decEcb => exact State.settle_fits (exec_decEcb_eq s ▸ h) (hcipher _) hsetOutput
  | encCbc => exact State.settleDrawn_fits (exec_encCbc_eq s ▸ h) (hcipher _) hsetOutput
  | decCbc => exact State.settle_fits (exec_decCbc_eq s ▸ h) (hcipher _) hsetOutput

/-- Settles O58, by `step_keeps`: only a command and a host store of a wide word touch the wide registers. -/
theorem stepKeepsWideWidth : Obligations.StepKeepsWideWidth := by
  refine step_keeps State.wideFits ?exec ?illegal ?drop ?launch ?response ?read ?inputs ?entropy ?assert ?release
    ?overrun ?ack ?ctrl ?wide ?buf
  case exec => exact fun i s t _ hs h _ _ => exec_fits hs h
  case assert => exact fun s _ => State.resetWith_fits s.params
  case ctrl => exact fun s r v => State.wideFits_of_eq (s.storeCtrl_wide r v) (s.storeCtrl_params r v)
  case wide => exact fun s k i v _ hs hi => State.setWideWord_fits k v hi hs
  -- Every other action leaves the wide registers and the parameters.
  all_goals
    intros
    assumption

end Sys2Proof.Machine
end

section
/-! O59: STATUS and the command state machine stay consistent (10_state.md R34, R57; 60_exceptions.md R300). A command ends
IDLE with the flags of an epilogue, or waits with the flags of its start. -/

namespace Sys2Proof.Machine

theorem Err.code_ne_zero (e : Err) : e.code ≠ 0 := by cases e <;> decide

theorem Err.code_le_nine (e : Err) : e.code.toNat ≤ 9 := by cases e <;> decide

theorem decode_encode (i : Instr) : decode (encode i) = .ok i := by cases i <;> rfl

/-- A block that has just reported an error is consistent. -/
theorem State.StatusInv.of_failed {t : State} {st : Status} {e : Err} (hr : t.run = none) (hd : t.drawPending = none)
    (hs : t.status = st.failed e) : t.StatusInv := by
  refine .of_idle hr hd ?_ ?_
  · rw [hs]
    exact ⟨fun _ => e.code_ne_zero, fun _ => rfl⟩
  · simpa [State.errcodeAssigned, hs] using e.code_le_nine

/-- A block that has just reported a success is consistent. -/
theorem State.StatusInv.of_finished {t : State} {st : Status} (hr : t.run = none) (hd : t.drawPending = none)
    (hs : t.status = st.finished) : t.StatusInv :=
  .of_idle hr hd (by simp [hs]) (by simp [State.errcodeAssigned, hs])

/-- A block that runs a command other than NOP with the flags of its start is consistent. -/
theorem State.StatusInv.of_started {t : State} {st : Status} {i : Instr} {r : Running} (hr : t.run = some r)
    (hdec : decode r.word = .ok i) (hi : i ≠ .nop) (hs : t.status = st.started i.opcode) (hrst : t.rst = false) :
    t.StatusInv where
  flags := by simp [State.flagsConsistent, hs]
  errcode := by simp [State.errcodeAssigned, hs]
  run := by
    refine ⟨fun _ => by simp [State.busy, hr], fun r' hr' => ⟨i, ?_, hi, by simp [hs]⟩⟩
    obtain rfl : r = r' := Option.some.inj (hr.symm.trans hr')
    exact hdec
  resetIdle := fun h => absurd (hrst.symm.trans h) (by simp)

theorem exec_statusInv {i : Instr} {s t : State} (hs : s.StatusInv) (hb : s.busy = true ∨ i = .nop)
    (h : exec i s = .next t) : t.StatusInv := by
  obtain ⟨u, hstart, hend, -⟩ := exec_cases h
  cases hend with
  | failed e h =>
    subst h
    exact .of_failed (u.raise_run i e) (u.raise_drawPending i e) (u.raise_status i e)
  | wrote w v _ _ _ h =>
    subst h
    exact .of_finished rfl rfl rfl
  | output out _ h =>
    subst h
    exact .of_finished rfl rfl rfl
  | waiting req hd h =>
    subst h
    have hi : i ≠ .nop := by rintro rfl; cases hd
    have hrun : s.run ≠ none := by simpa [State.busy, Option.isSome_iff_ne_none] using hb.resolve_right hi
    have hrst : s.rst = false := Bool.eq_false_of_not_eq_true (mt hs.resetIdle hrun)
    exact .of_started (u.waitFor_run i req) (decode_encode i) hi hstart.status (hstart.rst.trans hrst)

theorem State.StatusInv.overrun {s : State} (h : s.StatusInv) (r : Response) :
    ({ s.respond r with status := s.status.overrun } : State).StatusInv :=
  ⟨h.flags, h.errcode, h.run, h.resetIdle⟩

/-- An acknowledgement only clears DONE and OVR, so the invariant stays. -/
theorem State.StatusInv.acknowledge {s : State} (h : s.StatusInv) (v : Word) : (s.acknowledge v).StatusInv where
  flags := by
    obtain ⟨hbusy, herr⟩ := h.flags
    refine ⟨fun hb => ?_, herr⟩
    obtain ⟨hdone, hrest⟩ := hbusy hb
    exact ⟨by simp [Status.acknowledged, hdone], hrest⟩
  errcode := h.errcode
  run := h.run
  resetIdle := h.resetIdle

/-- Settles O59, by `step_keeps`: the states that commands, illegal words and starts lead to are consistent by their flags,
and the host's writes to STATUS and CTRL touch no flag the invariant ties to BUSY, but DONE, which they clear. -/
theorem stepKeepsStatus : Obligations.StepKeepsStatus := by
  refine step_keeps State.StatusInv ?exec ?illegal ?drop ?launch ?response ?read ?inputs ?entropy ?assert ?release
    ?overrun ?ack ?ctrl ?wide ?buf
  case exec => exact fun i s t _ hs h hb _ => exec_statusInv hs hb h
  case illegal =>
    intro s v hs hb
    have hrun : s.run = none := by simpa [State.busy] using hb
    have hdraw : s.drawPending = none := by
      by_contra hd
      exact absurd (hs.run.1 hd) (by simp [hb])
    exact .of_failed hrun hdraw rfl
  case drop => exact fun s r _ _ _ => .of_failed rfl rfl rfl
  case launch => exact fun s i v _ _ hrst hdec hi => .of_started rfl hdec hi rfl hrst
  case assert =>
    intro s _
    have hreset := State.resetWith_statusInv s.params
    exact .of_idle rfl rfl hreset.flags.2 hreset.errcode
  case release => exact fun s hs => ⟨hs.flags, hs.errcode, hs.run, by intro h; cases h⟩
  case overrun => exact fun s r hs => hs.overrun r
  case ack => exact fun s v hs => hs.acknowledge v
  case ctrl => exact fun s r v hs => hs.of_eq (by simp) (by simp) (by simp) (by simp)
  -- Every other action leaves STATUS, the state machine and the reset pin.
  all_goals
    intros
    have hs := ‹State.StatusInv _›
    exact hs.of_eq rfl rfl rfl rfl

end Sys2Proof.Machine
end

section
/-! The frame of a command's end (10_state.md R42, R47, R48; 40_control.md R140 to R147): O39, O42 and O43, each read off the
four ways a command ends (`exec_cases`). -/

namespace Sys2Proof.Machine

/-! ### What every command leaves, and the flags it ends with -/

theorem State.SameConfig.trans {s u t : State} (h : t.SameConfig u) (h' : u.SameConfig s) : t.SameConfig s := by
  unfold State.SameConfig at *
  simp_all

theorem Started.sameConfig {i : Instr} {s u : State} (h : Started i s u) : u.SameConfig s :=
  ⟨h.params, h.ctrl, h.mrRounds, h.primeBits, h.iterLimit, h.retryLimit, h.msgLen, h.rst, h.response, h.inputs⟩

/-- The fields every command's end leaves as its start set them. -/
structure EndKeeps (u t : State) : Prop where
  config : t.SameConfig u
  ovr : t.status.ovr = u.status.ovr
  lastop : t.status.lastop = u.status.lastop
  blockSize : t.blockSize = u.blockSize
  free : t.free = u.free

theorem Ended.keeps {i : Instr} {u t : State} (h : Ended i u t) : EndKeeps u t := by
  cases h with
  | failed e h => constructor <;> simp [h, State.SameConfig]
  | wrote w v _ _ _ h => constructor <;> simp [h, State.SameConfig]
  | output out _ h => constructor <;> simp [h, State.SameConfig]
  | waiting req _ h => constructor <;> simp [h, State.SameConfig]

theorem Ended.entropy {i : Instr} {u t : State} (hd : i.draws = false) (h : Ended i u t) : t.entropy = u.entropy := by
  cases h with
  | failed e h => simp [h]
  | wrote w v _ _ _ h => simp [h]
  | output out _ h => simp [h]
  | waiting req hd' h => rw [hd] at hd'; cases hd'

theorem Ended.outLen {i : Instr} {u t : State} (hc : i.isCipher = false) (h : Ended i u t) : t.outLen = u.outLen := by
  cases h with
  | failed e h => simp [h, State.raise_outLen, hc]
  | wrote w v _ _ _ h => simp [h]
  | output out hc' h => rw [hc] at hc'; cases hc'
  | waiting req _ h => simp [h]

/-- DONE is 1 at every end of a command and 0 while it waits (40_control.md R140, R145, R146). -/
theorem Ended.done {i : Instr} {s u t : State} (hs : Started i s u) (h : Ended i u t) : t.status.done = !t.busy := by
  cases h with
  | failed e h => simp [h]
  | wrote w v _ _ _ h => simp [h]
  | output out _ h => simp [h]
  | waiting req _ h => simp [h, hs.status]

/-- Only a command that is no cipher command, and only its success, writes wide registers, and only its own. -/
theorem Ended.wide_get {i : Instr} {u t : State} {k : WideName} (hk : k ∉ i.writes) (h : Ended i u t) :
    t.wide.get k = u.wide.get k := by
  cases h with
  | failed e h => simp [h]
  | wrote w v _ hw _ h => subst h; exact hw k hk
  | output out _ h => simp [h]
  | waiting req _ h => simp [h]

theorem Ended.wide_eq {i : Instr} {u t : State} (hx : i.isCipher = true ∨ t.status.err = true ∨ t.busy = true)
    (h : Ended i u t) : t.wide = u.wide := by
  cases h with
  | failed e h => simp [h]
  | wrote w v hc _ _ h =>
    subst h
    rcases hx with hx | hx | hx
    · rw [hc] at hx; cases hx
    · cases hx
    · cases hx
  | output out _ h => simp [h]
  | waiting req _ h => simp [h]

/-- A cipher command leaves RESULT 0 (45_cipher.md R257). -/
theorem Ended.result {i : Instr} {s u t : State} (hc : i.isCipher = true) (hs : Started i s u) (h : Ended i u t) :
    t.status.result = false := by
  cases h with
  | failed e h => simp [h]
  | wrote w v hc' _ _ h => rw [hc] at hc'; cases hc'
  | output out _ h => simp [h, hs.status]
  | waiting req _ h => simp [h, hs.status]

/-! ### The same, from a command's execution -/

/-- The part of the frame that holds of every command. -/
structure ExecFrame (i : Instr) (s t : State) : Prop where
  config : t.SameConfig s
  ovr : t.status.ovr = s.status.ovr
  lastop : t.status.lastop = i.opcode
  entropy : i.draws = false → t.entropy = s.entropy

theorem exec_frame {i : Instr} {s t : State} (h : exec i s = .next t) : ExecFrame i s t := by
  obtain ⟨u, hstart, hend, -⟩ := exec_cases h
  exact {
    config := hend.keeps.config.trans hstart.sameConfig
    ovr := by rw [hend.keeps.ovr, hstart.status, Status.started_ovr]
    lastop := by rw [hend.keeps.lastop, hstart.status, Status.started_lastop]
    entropy := fun hd => (hend.entropy hd).trans (hstart.entropy hd) }

theorem exec_done {i : Instr} {s t : State} (h : exec i s = .next t) : t.status.done = !t.busy := by
  obtain ⟨u, hstart, hend, -⟩ := exec_cases h
  exact hend.done hstart

theorem exec_wide_eq {i : Instr} {s t : State} (hx : i.isCipher = true ∨ t.status.err = true ∨ t.busy = true)
    (h : exec i s = .next t) : t.wide = s.wide := by
  obtain ⟨u, hstart, hend, -⟩ := exec_cases h
  exact (hend.wide_eq hx).trans hstart.wide

/-- Settles O39: of the four ways a command ends only a success writes wide registers. -/
theorem writesOnlyOnSuccess : Obligations.WritesOnlyOnSuccess :=
  fun _ _ _ h hx => exec_wide_eq (.inr hx) h

/-- Settles O42: a command that is no cipher command ends without touching the buffers, OUT_LEN or BLOCK_SIZE. -/
theorem nonCipherFrame : Obligations.NonCipherFrame := by
  intro i s t hi h
  have hc : i.isCipher = false := by
    simp only [List.mem_cons, List.not_mem_nil, or_false] at hi
    rcases hi with rfl | rfl | rfl | rfl | rfl | rfl | rfl | rfl <;> rfl
  have hframe := exec_frame h
  have hmem := exec_mem_eq hc h
  obtain ⟨u, hstart, hend, -⟩ := exec_cases h
  have hblock : u.blockSize = s.blockSize := by simpa [hc] using hstart.blockSize
  refine ⟨hframe.config, hframe.ovr, hframe.lastop, fun k hk => ?_, (hend.outLen hc).trans hstart.outLen,
    hend.keeps.blockSize.trans hblock, fun a => by rw [hmem], hend.keeps.free.trans (hstart.free hc), hframe.entropy⟩
  rw [hend.wide_get hk, hstart.wide]

/-- A move of at most BUF_BYTES bytes of output leaves every byte outside OUT_BUF's window (20_memory.md R84). -/
theorem BufMove.read_outside {n a : Nat} {s t : State} (hn : n ≤ bufWindow)
    (ha : ¬ (outBase ≤ a ∧ a < outBase + bufWindow)) (h : BufMove n s t) :
    Memory.read t.mem a = Memory.read s.mem a := by
  cases h with
  | same h => rw [h]
  | dropped h => rw [h, State.dropOutput_mem, Memory.read_erase, if_neg ha]
  | stored out hout h => rw [h, State.setOutput_read, if_neg (by omega), if_neg ha]

/-- Settles O43: a cipher command moves OUT_BUF only, since its output is no longer than BUF_BYTES. -/
theorem cipherFrame : Obligations.CipherFrame := by
  intro i s t hl hi h
  have hc : i.isCipher = true := by
    simp only [List.mem_cons, List.not_mem_nil, or_false] at hi
    rcases hi with rfl | rfl | rfl | rfl <;> rfl
  have hframe := exec_frame h
  have hbuf : s.params.bufBytes ≤ bufWindow := (Params.buf_le hl).1
  obtain ⟨u, hstart, hend, -⟩ := exec_cases h
  exact ⟨hframe.config, hframe.ovr, hframe.lastop, hend.result hc hstart, exec_wide_eq (.inl hc) h,
    fun a ha => (exec_bufMove h).read_outside hbuf ha, hframe.entropy⟩

end Sys2Proof.Machine
end

section
/-! O46: which command waits for the entropy port, and for which draw (10_state.md R57; 60_exceptions.md R318, R319). A command
waits iff its result does, and its result reads nothing that a wait changes. -/

namespace Sys2Proof.Machine

/-- Command i, executed in s, is left without an answer for the draw req. -/
def State.Awaits (s : State) (i : Instr) (req : DrawReq) : Prop :=
  match i with
  | .mrtest => mrtestResult s = .waits req
  | .genprime => genprimeResult s = .waits req
  | .keygen => keygenResult s = .waits req
  | .encCbc => encCbcResult s = .waits req
  | .nop | .modmul | .modexp | .gcd | .modinv | .encEcb | .decEcb | .decCbc => False

theorem State.settleDrawn_busy {α : Type} {s t : State} {i : Instr} {res : Drawn α} {commit : α → State → State}
    (h : s.settleDrawn i res commit = .next t) (hb : t.busy = true) :
    ∃ req, res = .waits req ∧ t.drawPending = some req := by
  rcases State.settleDrawn_cases h with ⟨e, rest, _, rfl⟩ | ⟨a, rest, _, rfl⟩ | ⟨req, hreq, rfl⟩
  · simp at hb
  · simp at hb
  · exact ⟨req, hreq, rfl⟩

theorem exec_draws_of_busy {i : Instr} {s t : State} (h : exec i s = .next t) (hb : t.busy = true) :
    i.draws = true := by
  obtain ⟨u, -, hend, -⟩ := exec_cases h
  cases hend with
  | failed e h => simp [h] at hb
  | wrote w v _ _ _ h => simp [h] at hb
  | output out _ h => simp [h] at hb
  | waiting req hd h => exact hd

/-- A command that is left BUSY awaits the pending draw. -/
theorem awaits_of_exec_busy {i : Instr} {s t : State} (h : exec i s = .next t) (hb : t.busy = true) :
    ∃ req, s.Awaits i req ∧ t.drawPending = some req := by
  have hd := exec_draws_of_busy h hb
  cases i with
  | mrtest => exact State.settleDrawn_busy (exec_mrtest_eq s ▸ h) hb
  | genprime => exact State.settleDrawn_busy (exec_genprime_eq s ▸ h) hb
  | keygen => exact State.settleDrawn_busy (exec_keygen_eq s ▸ h) hb
  | encCbc => exact State.settleDrawn_busy (exec_encCbc_eq s ▸ h) hb
  | _ => cases hd

/-- t runs i and waits for the draw req. -/
def State.WaitsFor (t : State) (i : Instr) (req : DrawReq) : Prop :=
  t.busy = true ∧ t.drawPending = some req ∧ ∃ r, t.run = some r ∧ decode r.word = .ok i

theorem State.waitFor_waitsFor (s : State) (i : Instr) (req : DrawReq) : (s.waitFor i req).WaitsFor i req :=
  ⟨rfl, rfl, _, rfl, decode_encode i⟩

theorem State.settleDrawn_waits {α : Type} {s : State} {i : Instr} {res : Drawn α} {commit : α → State → State}
    {req : DrawReq} (h : res = .waits req) : ∃ t, s.settleDrawn i res commit = .next t ∧ t.WaitsFor i req :=
  ⟨s.waitFor i req, by rw [h, State.settleDrawn], s.waitFor_waitsFor i req⟩

/-- A command that awaits a draw is left BUSY with it pending. -/
theorem State.Awaits.exec_waits {i : Instr} {s : State} {req : DrawReq} (h : s.Awaits i req) :
    ∃ t, exec i s = .next t ∧ t.WaitsFor i req := by
  cases i with
  | mrtest => rw [exec_mrtest_eq]; exact State.settleDrawn_waits h
  | genprime => rw [exec_genprime_eq]; exact State.settleDrawn_waits h
  | keygen => rw [exec_keygen_eq]; exact State.settleDrawn_waits h
  | encCbc => rw [exec_encCbc_eq]; exact State.settleDrawn_waits h
  | _ => cases h

theorem Drawn.ofExcept_ne_waits {α : Type} (r : Except Err α) (rest : List Nat) (req : DrawReq) :
    Drawn.ofExcept r rest ≠ .waits req := by
  cases r <;> simp [Drawn.ofExcept]

/-- ENC_CBC waits, for its iv, iff its checks pass and there is no answer (45_cipher.md R261). -/
theorem encCbcResult_eq_waits_iff {s : State} {req : DrawReq} :
    encCbcResult s = .waits req ↔
      encryptError s.params.bufBytes (s.W .n) s.inputLen (cbcOutLen s.inputLen (blockSizeOf (s.W .n))) = none ∧
        s.stream = [] ∧ req = .bytes (blockSizeOf (s.W .n)) := by
  unfold encCbcResult
  dsimp only
  split
  next e he => simp [he]
  next hchecks =>
    cases s.stream with
    | nil => simp [hchecks, eq_comm]
    | cons v rest => simp [Drawn.ofExcept_ne_waits]

/-- Whether a command awaits a draw depends on the configuration, the wide registers and the answers only. -/
theorem State.Awaits.of_same {i : Instr} {s t : State} {req : DrawReq} (h : s.Awaits i req) (hc : t.SameConfig s)
    (hw : t.wide = s.wide) (hs : t.stream = s.stream) : t.Awaits i req := by
  obtain ⟨hparams, -, hrounds, hbits, hiter, hretry, hlen, -, -, -⟩ := hc
  have hW : ∀ k, t.W k = s.W k := fun k => by rw [State.W, State.W, hw]
  cases i with
  | mrtest =>
    have hres : mrtestResult t = mrtestResult s := by simp only [mrtestResult, hrounds, hW, hs]
    exact hres.trans h
  | genprime =>
    have hres : genprimeResult t = genprimeResult s := by
      simp only [genprimeResult, hparams, hrounds, hbits, hiter, hs]
    exact hres.trans h
  | keygen =>
    have hres : keygenResult t = keygenResult s := by
      simp only [keygenResult, hparams, hrounds, hbits, hiter, hretry, hs]
    exact hres.trans h
  | encCbc =>
    have hinput : t.inputLen = s.inputLen := by rw [State.inputLen, State.inputLen, hlen]
    refine encCbcResult_eq_waits_iff.2 ?_
    rw [hparams, hW, hinput, hs]
    exact encCbcResult_eq_waits_iff.1 h
  | _ => cases h

/-! ### What a waiting command has left -/

/-- A command left BUSY has set the flags of its start, and kept the answers it drew (log 10) with those before. -/
theorem exec_busy {i : Instr} {s t : State} (h : exec i s = .next t) (hb : t.busy = true) :
    t.stream = s.stream ∧ t.mem = s.mem ∧ t.outLen = s.outLen ∧ t.status = s.status.started i.opcode := by
  obtain ⟨u, hstart, hend, hentropy⟩ := exec_cases h
  have hstream : u.stream = s.stream := by rw [State.stream, State.stream, hstart.run, hentropy hb]
  cases hend with
  | failed e h => simp [h] at hb
  | wrote w v _ _ _ h => simp [h] at hb
  | output out _ h => simp [h] at hb
  | waiting req _ h =>
    subst h
    exact ⟨(u.waitFor_stream i req).trans hstream, hstart.mem, hstart.outLen, hstart.status⟩

/-! ### Which draw each command awaits -/

/-- Miller-Rabin's first draw (43_prime.md R202). -/
theorem mr_nil_eq_waits {n k : Nat} (h5 : 5 ≤ n) (hodd : n % 2 = 1) (hk : k ≠ 0) :
    mr n k [] = .waits (.range 2 (n - 2)) := by
  obtain ⟨k, rfl⟩ := Nat.exists_eq_succ_of_ne_zero hk
  unfold mr
  rw [if_neg (by omega), if_neg (by omega), if_neg (by omega)]
  rfl

/-- The sampler's first draw (43_prime.md R211). -/
theorem genprime_nil_eq_waits {bits k limit : Nat} (h : limit ≠ 0) :
    genprime bits k limit [] = .waits (.bits bits) := by
  obtain ⟨limit, rfl⟩ := Nat.exists_eq_succ_of_ne_zero h
  rfl

/-- The key generator waits where its first prime does (44_keygen.md R230). -/
theorem keygen_eq_waits_of_genprime {bits k limit retry : Nat} {ans : List Nat} {req : DrawReq}
    (h : genprime bits k limit ans = .waits req) : keygen bits k limit retry ans = .waits req := by
  rw [keygen, h, Drawn.andThen_waits]

theorem State.mrRounds_ne_zero {s : State} (hk : s.mrRounds.toNat ≠ 0) : s.mrRounds ≠ 0 :=
  fun h => hk (by simp [h])

theorem mrtestResult_of_legal {s : State} (hk : s.mrRounds.toNat ≠ 0) :
    mrtestResult s = mr (s.W .a) s.mrRounds.toNat s.stream :=
  if_neg (State.mrRounds_ne_zero hk)

theorem genprimeResult_of_legal {s : State} (h2 : 2 ≤ s.primeBits.toNat) (hw : s.primeBits.toNat ≤ s.params.opw)
    (hk : s.mrRounds.toNat ≠ 0) :
    genprimeResult s = genprime s.primeBits.toNat s.mrRounds.toNat s.iterLimit.toNat s.stream := by
  rw [genprimeResult, if_neg (by omega), if_neg (State.mrRounds_ne_zero hk)]

theorem keygenResult_of_legal {s : State} (h2 : 2 ≤ s.primeBits.toNat) (hw : s.primeBits.toNat ≤ s.params.opw / 2)
    (hk : s.mrRounds.toNat ≠ 0) :
    keygenResult s =
      keygen s.primeBits.toNat s.mrRounds.toNat s.iterLimit.toNat s.retryLimit.toNat s.stream := by
  rw [keygenResult, if_neg (by omega), if_neg (State.mrRounds_ne_zero hk)]

/-- Settles O46: a waiting command is one that awaits a draw, and it still awaits that draw in the state it waits in. -/
theorem waitingForEntropy : Obligations.WaitingForEntropy := by
  refine ⟨fun i s t h hb => ?_, fun s => ?_⟩
  · obtain ⟨hstream, hmem, houtLen, hstatus⟩ := exec_busy h hb
    obtain ⟨req, hawaits, hreq⟩ := awaits_of_exec_busy h hb
    have hwide := exec_wide_eq (.inr (.inr hb)) h
    obtain ⟨u, hu, hbusy, hpending, -⟩ := (hawaits.of_same (exec_frame h).config hwide hstream).exec_waits
    exact ⟨exec_draws_of_busy h hb, by simp [hreq], hstream, hwide, hmem, houtLen, hstatus, u, hu, hbusy,
      hpending.trans hreq.symm⟩
  · have waits : ∀ {i : Instr} {req : DrawReq}, s.Awaits i req → ∃ t, exec i s = .next t ∧ t.WaitsFor i req :=
      State.Awaits.exec_waits
    refine ⟨fun h9 hlen hpad hout hnil => ?encCbc, fun hk => ⟨fun req hreq => ?mr, fun h5 hodd hnil => ?mrNil⟩,
      fun h2 hw hk => ⟨fun req hreq => ?gen, fun hlim hnil => ?genNil⟩,
      fun h2 hw hk => ⟨fun req hreq => ?key, fun hlim hnil => ?keyNil⟩⟩
    case encCbc =>
      have hchecks := encryptError_eq_none_iff.2 ⟨h9, hlen, hpad, hout⟩
      exact waits (i := .encCbc) (encCbcResult_eq_waits_iff.2 ⟨hchecks, hnil, rfl⟩)
    case mr => exact waits (i := .mrtest) ((mrtestResult_of_legal hk).trans hreq)
    case mrNil =>
      exact waits (i := .mrtest) ((mrtestResult_of_legal hk).trans (hnil ▸ mr_nil_eq_waits h5 hodd hk))
    case gen => exact waits (i := .genprime) ((genprimeResult_of_legal h2 hw hk).trans hreq)
    case genNil =>
      exact waits (i := .genprime) ((genprimeResult_of_legal h2 hw hk).trans (hnil ▸ genprime_nil_eq_waits hlim))
    case key => exact waits (i := .keygen) ((keygenResult_of_legal h2 hw hk).trans hreq)
    case keyNil =>
      exact waits (i := .keygen) ((keygenResult_of_legal h2 hw hk).trans
        (keygen_eq_waits_of_genprime (hnil ▸ genprime_nil_eq_waits hlim)))

end Sys2Proof.Machine
end

section
/-! The control registers at the bus port (10_state.md R30 to R39, R50 to R53; 20_memory.md R90, R91, R95): O41, O48 and O49. -/

namespace Sys2Proof.Machine

/-! ### Writes -/

/-- A STATUS write is never dropped (20_memory.md R95). -/
theorem State.memWrite_status (s : State) (v : Word) :
    s.memWrite CtrlReg.status.offset 32 v = .next ((s.respond .writeOk).acknowledge v) := by
  simp [State.memWrite_ctrl, Loc.droppedWhenBusy, State.storeLoc]

/-- A CTRL write is never dropped (20_memory.md R95). -/
theorem State.memWrite_ctrlReg (s : State) (v : Word) :
    s.memWrite CtrlReg.ctrl.offset 32 v = .next ((s.respond .writeOk).storeCtrl .ctrl v) := by
  simp [State.memWrite_ctrl, Loc.droppedWhenBusy, State.storeLoc]

/-- An IDLE block stores a write to any control register but CMD and STATUS. -/
theorem State.memWrite_idle {s : State} {r : CtrlReg} (v : Word) (hrun : s.run = none) (hcmd : r ≠ .cmd)
    (hstatus : r ≠ .status) :
    s.memWrite r.offset 32 v = .next ((s.respond .writeOk).storeCtrl r v) := by
  have hbusy : s.busy = false := by simp [State.busy, hrun]
  rw [State.memWrite_ctrl, hbusy, Bool.false_and, if_neg Bool.false_ne_true]
  cases r with
  | cmd => exact absurd rfl hcmd
  | status => exact absurd rfl hstatus
  | _ => rfl

/-- A CMD write of a command other than NOP starts it (40_control.md R140). -/
theorem State.startCommand_encode (s : State) {i : Instr} (hi : i ≠ .nop) :
    s.startCommand (encode i) = .next (s.launch i (encode i)) := by
  rw [State.startCommand, decode_encode]
  cases i with
  | nop => exact absurd rfl hi
  | _ => rfl

theorem State.memWrite_cmd_idle {s : State} {i : Instr} (hrun : s.run = none) (hi : i ≠ .nop) :
    s.memWrite CtrlReg.cmd.offset 32 (encode i) = .next ((s.respond .writeOk).launch i (encode i)) := by
  have hbusy : s.busy = false := by simp [State.busy, hrun]
  rw [State.memWrite_ctrl, hbusy, Bool.false_and, if_neg Bool.false_ne_true, State.storeLoc,
    State.startCommand_encode _ hi]

/-! ### `irq` (60_exceptions.md R312) -/

theorem State.irq_eq_false_of_done {s : State} (h : s.status.done = false) : s.irq = false := by
  rw [State.irq, h, Bool.and_false]

/-- Settles O41: `irq` follows DONE, which `exec_done` gives at a command's end and the flags of each host write after it. -/
theorem doneDrivesIrq : Obligations.DoneDrivesIrq := by
  refine ⟨fun i s t h => ⟨fun hb => ?idle, fun hb => ?waiting⟩, fun s => ⟨State.irq_eq_false_of_done,
    fun hs hb => ?busy, fun i hi hrun => ?start, fun v hv => ?ack, fun v => ?ctrl⟩⟩
  case idle =>
    have hdone : t.status.done = true := by rw [exec_done h, hb, Bool.not_false]
    obtain ⟨-, hctrl, -⟩ := (exec_frame h).config
    exact ⟨hdone, by rw [State.irq, hctrl, hdone, Bool.and_true]⟩
  case waiting => exact State.irq_eq_false_of_done (by rw [exec_done h, hb, Bool.not_true])
  case busy => exact State.irq_eq_false_of_done (hs.flags.1 hb).1
  case start =>
    exact ⟨_, State.memWrite_cmd_idle hrun hi, State.launch_busy _ i _, State.irq_eq_false_of_done rfl⟩
  case ack =>
    refine ⟨_, s.memWrite_status v, State.irq_eq_false_of_done ?_⟩
    simp [Status.acknowledged, hv]
  case ctrl => exact ⟨_, s.memWrite_ctrlReg v, rfl⟩

/-! ### Reads -/

/-- A read of an IDLE block's control register gives its 32-bit view. -/
theorem State.memRead_idle {s : State} (r : CtrlReg) (hrun : s.run = none) :
    s.memRead r.offset 32 = s.respondRead (.readOk (s.ctrlWord r)) := by
  have hbusy : s.busy = false := by simp [State.busy, hrun]
  rw [State.memRead_ctrl, State.readData, hbusy, Bool.false_and, if_neg Bool.false_ne_true]

/-- The implemented bits of CTRL are its two lowest (10_state.md R35). -/
theorem Ctrl.word_ofWord (v : Word) : (Ctrl.ofWord v).word = v &&& 0x3 := by
  apply BitVec.eq_of_getLsbD_eq
  intro k _
  simp only [Ctrl.ofWord, Ctrl.word, BitVec.getLsbD_append, BitVec.getLsbD_and]
  match k with
  | 0 => simp
  | 1 => simp
  | k + 2 =>
    have hmask : (3#32).getLsbD (k + 2) = false := by
      have hlt : 3 < 2 ^ (k + 2) := by have := Nat.two_pow_pos k; rw [pow_add]; omega
      rw [BitVec.getLsbD_ofNat, Nat.testBit_lt_two_pow hlt, Bool.and_false]
    simp [hmask]

/-- A 16-bit field reads back as the low half of the word written (10_state.md R36, R37). -/
theorem setWidth_setWidth_eq_and (v : Word) : (v.setWidth 16).setWidth 32 = v &&& 0xFFFF := by
  apply BitVec.eq_of_toNat_eq
  have hlow : v.toNat &&& 65535 = v.toNat % 65536 := Nat.and_two_pow_sub_one_eq_mod v.toNat 16
  have hmask : (0xFFFF : Word).toNat = 65535 := rfl
  rw [BitVec.toNat_setWidth, BitVec.toNat_setWidth, BitVec.toNat_and, hmask, hlow]
  omega

/-- W1C as a choice per bit (20_memory.md R91). -/
theorem Status.acknowledged_eq (st : Status) (v : Word) :
    st.acknowledged v =
      { st with
        done := if v.getLsbD 1 then false else st.done
        ovr := if v.getLsbD 4 then false else st.ovr } := by
  unfold Status.acknowledged
  cases v.getLsbD 1 <;> cases v.getLsbD 4 <;> simp

/-- An IDLE block's RW register reads back the implemented bits written. -/
theorem State.memWrite_readBack {s : State} {r : CtrlReg} {v w : Word} (hrun : s.run = none) (hcmd : r ≠ .cmd)
    (hstatus : r ≠ .status) (hw : ∀ u : State, (u.storeCtrl r v).ctrlWord r = w) :
    ∃ t, s.memWrite r.offset 32 v = .next t ∧ (t.memRead r.offset 32).response = some (.readOk w) := by
  refine ⟨_, State.memWrite_idle v hrun hcmd hstatus, ?_⟩
  rw [State.memRead_idle r (by rw [State.storeCtrl_run, State.respond_run, hrun]), State.respondRead_response, hw]

/-- Settles O48: an IDLE block's read is `memRead_idle`, its write `memWrite_idle`, and a RO register stores nothing. -/
theorem controlRegisterAccess : Obligations.ControlRegisterAccess := by
  intro s v hrun
  have hread : ∀ r, s.memRead r.offset 32 = s.respondRead (.readOk (s.ctrlWord r)) :=
    fun r => State.memRead_idle r hrun
  have hwrite : ∀ r, r ≠ .cmd → r ≠ .status →
      s.memWrite r.offset 32 v = .next ((s.respond .writeOk).storeCtrl r v) :=
    fun r => State.memWrite_idle v hrun
  refine ⟨?reads, ?readOnly, s.memWrite_ctrlReg v, hwrite .mrRounds (by decide) (by decide),
    hwrite .primeBits (by decide) (by decide), hwrite .iterLimit (by decide) (by decide),
    hwrite .retryLimit (by decide) (by decide), hwrite .msgLen (by decide) (by decide), ?readBack, ?status⟩
  case reads =>
    simp only [List.forall_mem_cons, List.not_mem_nil, IsEmpty.forall_iff, implies_true, and_true]
    exact ⟨hread _, hread _, hread _, hread _, hread _, hread _, hread _, hread _, hread _, hread _, hread _, hread _⟩
  case readOnly =>
    simp only [List.forall_mem_cons, List.not_mem_nil, IsEmpty.forall_iff, implies_true, and_true]
    exact ⟨hwrite _ (by decide) (by decide), hwrite _ (by decide) (by decide), hwrite _ (by decide) (by decide),
      hwrite _ (by decide) (by decide), hwrite _ (by decide) (by decide)⟩
  case readBack =>
    simp only [List.forall_mem_cons, List.not_mem_nil, IsEmpty.forall_iff, implies_true, and_true]
    exact ⟨State.memWrite_readBack hrun (by decide) (by decide) fun _ => Ctrl.word_ofWord v,
      State.memWrite_readBack hrun (by decide) (by decide) fun _ => setWidth_setWidth_eq_and v,
      State.memWrite_readBack hrun (by decide) (by decide) fun _ => setWidth_setWidth_eq_and v,
      State.memWrite_readBack hrun (by decide) (by decide) fun _ => BitVec.and_allOnes.symm,
      State.memWrite_readBack hrun (by decide) (by decide) fun _ => BitVec.and_allOnes.symm,
      State.memWrite_readBack hrun (by decide) (by decide) fun _ => BitVec.and_allOnes.symm⟩
  case status =>
    rw [State.memWrite_status, State.acknowledge, State.respond_status, Status.acknowledged_eq]
    rfl

/-- Settles O49: each field is read off the concatenation that makes the word. -/
theorem statusWordLayout : Obligations.StatusWordLayout := by
  intro s
  refine ⟨?read, ?busy, ?done, ?err, ?result, ?ovr, ?rsvd5, ?errcode, ?rsvd12, ?lastop, ?rsvd24⟩
  case read =>
    rw [State.memRead_ctrl, State.readData_status]
    rfl
  case busy | done | err | result | ovr =>
    simp only [Status.word, BitVec.getLsbD_append]
    simp
  case rsvd5 | errcode | rsvd12 | lastop =>
    simp (disch := decide) only [Status.word, BitVec.extractLsb'_append_eq_of_le]
    exact BitVec.extractLsb'_append_eq_right
  case rsvd24 =>
    simp (disch := decide) only [Status.word, BitVec.extractLsb'_append_eq_of_le]
    exact BitVec.extractLsb'_eq_self

end Sys2Proof.Machine
end

section
/-! The state after reset (10_state.md R61; 70_reset_and_hazards.md R340): O54 and O56. -/

namespace Sys2Proof.Machine

/-- No word of a wide register holds a defined value after reset (10_state.md R46). -/
theorem WideReg.reset_word (i : Nat) : WideReg.reset.word i = none := by
  simp [WideReg.word, WideReg.reset]

/-- Settles O54: the table's values are those of `resetWith`, and each of its wide registers is `WideReg.reset`. -/
theorem resetTable : Obligations.ResetTable := by
  intro p
  have hstatus : Status.word { done := false, err := false, result := false, ovr := false, errcode := 0, lastop := 0 }
      false = 0 := by decide
  have hctrl : Ctrl.word { irqEn := false, txtCheck := true } = 2 := by decide
  refine ⟨rfl, hstatus, hctrl, rfl, rfl, rfl, rfl, rfl, rfl, rfl, rfl, rfl, rfl, rfl, rfl, fun k i => ?_, rfl⟩
  rw [State.resetWith_get, WideReg.reset_word]

/-- Settles O56: no byte is listed, every wide register holds 0 (log 3), and the block is IDLE with ERR = ERRCODE = 0. -/
theorem resetMeetsInvariants : Obligations.ResetMeetsInvariants :=
  ⟨by decide, ⟨State.reset_memory_wf, by intro c hc; cases hc⟩, State.resetWith_fits _, State.resetWith_statusInv _⟩

end Sys2Proof.Machine
end

section
/-! O44 and O45: a command's result reads the command's inputs and nothing else (20_memory.md R97; 40_control.md R144), and
while it runs CTRL is not among them (70_reset_and_hazards.md R351). From equal results the commands end alike. -/

namespace Sys2Proof.Machine

/-! ### The result of a command is a function of its inputs -/

theorem Memory.bytes_congr {m1 m2 : Memory} {a k : Nat} (free : Nat)
    (h : ∀ j < k, Memory.read m1 (a + j) = Memory.read m2 (a + j)) :
    Memory.bytes m1 free a k = Memory.bytes m2 free a k := by
  refine List.ext_getElem? fun j => ?_
  rcases lt_or_ge j k with hj | hj
  · rw [Memory.bytes_getElem? _ _ _ _ _ hj, Memory.bytes_getElem? _ _ _ _ _ hj, h j hj]
  · rw [List.getElem?_eq_none (by simpa using hj), List.getElem?_eq_none (by simpa using hj)]

namespace State.SameInputs

variable {i : Instr} {s1 s2 : State}

theorem params (h : s1.SameInputs s2 i) : s1.params = s2.params := h.1

theorem W (h : s1.SameInputs s2 i) : ∀ k ∈ i.reads, s1.W k = s2.W k := h.2.1

theorem mrRounds (h : s1.SameInputs s2 i) : s1.mrRounds = s2.mrRounds := by
  obtain ⟨-, -, hrounds, -⟩ := h
  exact hrounds

theorem inputLen (h : s1.SameInputs s2 i) : s1.inputLen = s2.inputLen := by
  obtain ⟨-, -, -, -, -, -, hmsg, -⟩ := h
  rw [State.inputLen, State.inputLen, hmsg]

theorem txtSnapshot (h : s1.SameInputs s2 i) : s1.txtSnapshot = s2.txtSnapshot := by
  obtain ⟨-, -, -, -, -, -, -, htxt, -⟩ := h
  exact htxt

theorem input (h : s1.SameInputs s2 i) : s1.input = s2.input := by
  have hlen := h.inputLen
  obtain ⟨hparams, -, -, -, -, -, -, -, hfree, hbytes, -⟩ := h
  rw [hparams] at hbytes
  rw [State.input, State.input, hlen, hfree, hparams]
  exact Memory.bytes_congr _ fun j hj => hbytes j (by omega)

theorem stream (h : s1.SameInputs s2 i) (hd : i.draws = true) : s1.stream = s2.stream := by
  obtain ⟨-, -, -, -, -, -, -, -, -, -, hstream⟩ := h
  exact hstream hd

theorem modmulResult (h : s1.SameInputs s2 .modmul) : modmulResult s1 = modmulResult s2 := by
  simp only [Machine.modmulResult, h.W .a (by decide), h.W .b (by decide), h.W .m (by decide)]

theorem modexpResult (h : s1.SameInputs s2 .modexp) : modexpResult s1 = modexpResult s2 := by
  simp only [Machine.modexpResult, h.W .a (by decide), h.W .x (by decide), h.W .m (by decide)]

theorem gcdResult (h : s1.SameInputs s2 .gcd) : gcdResult s1 = gcdResult s2 := by
  simp only [Machine.gcdResult, h.W .a (by decide), h.W .b (by decide)]

theorem modinvResult (h : s1.SameInputs s2 .modinv) : modinvResult s1 = modinvResult s2 := by
  simp only [Machine.modinvResult, h.W .a (by decide), h.W .m (by decide)]

theorem mrtestResult (h : s1.SameInputs s2 .mrtest) : mrtestResult s1 = mrtestResult s2 := by
  simp only [Machine.mrtestResult, h.mrRounds, h.W .a (by decide), h.stream rfl]

theorem genprimeResult (h : s1.SameInputs s2 .genprime) : genprimeResult s1 = genprimeResult s2 := by
  have hstream := h.stream rfl
  obtain ⟨hparams, -, hrounds, hbits, hiter, -⟩ := h
  simp only [Machine.genprimeResult, hparams, hrounds, hbits, hiter, hstream]

theorem keygenResult (h : s1.SameInputs s2 .keygen) : keygenResult s1 = keygenResult s2 := by
  have hstream := h.stream rfl
  obtain ⟨hparams, -, hrounds, hbits, hiter, hretry, -⟩ := h
  simp only [Machine.keygenResult, hparams, hrounds, hbits, hiter, hretry, hstream]

theorem encEcbResult (h : s1.SameInputs s2 .encEcb) : encEcbResult s1 = encEcbResult s2 := by
  simp only [Machine.encEcbResult, h.params, h.W .n (by decide), h.W .e (by decide), h.inputLen, h.input]

theorem decEcbResult (h : s1.SameInputs s2 .decEcb) : decEcbResult s1 = decEcbResult s2 := by
  simp only [Machine.decEcbResult, h.params, h.W .n (by decide), h.W .d (by decide), h.inputLen, h.input, h.txtSnapshot]

theorem encCbcResult (h : s1.SameInputs s2 .encCbc) : encCbcResult s1 = encCbcResult s2 := by
  simp only [Machine.encCbcResult, h.params, h.W .n (by decide), h.W .e (by decide), h.inputLen, h.input, h.stream rfl]

theorem decCbcResult (h : s1.SameInputs s2 .decCbc) : decCbcResult s1 = decCbcResult s2 := by
  simp only [Machine.decCbcResult, h.params, h.W .n (by decide), h.W .d (by decide), h.inputLen, h.input, h.txtSnapshot]

end State.SameInputs

/-! ### Equal results end alike -/

/-- The flags of STATUS a command sets: all but OVR. -/
structure SameFlags (st1 st2 : Status) : Prop where
  done : st1.done = st2.done
  err : st1.err = st2.err
  result : st1.result = st2.result
  errcode : st1.errcode = st2.errcode
  lastop : st1.lastop = st2.lastop

theorem SameFlags.started (st1 st2 : Status) (op : BitVec 8) : SameFlags (st1.started op) (st2.started op) :=
  ⟨rfl, rfl, rfl, rfl, rfl⟩

theorem SameFlags.finished {st1 st2 : Status} (h : SameFlags st1 st2) : SameFlags st1.finished st2.finished :=
  ⟨rfl, rfl, h.result, rfl, h.lastop⟩

theorem SameFlags.failed {st1 st2 : Status} (h : SameFlags st1 st2) (e : Err) :
    SameFlags (st1.failed e) (st2.failed e) :=
  ⟨rfl, rfl, rfl, rfl, h.lastop⟩

/-- Two states agree on what command i's end reads: the width, the start's flags and, of a cipher command, BLOCK_SIZE. -/
structure SameStart (i : Instr) (u1 u2 : State) : Prop where
  params : u1.params = u2.params
  flags : SameFlags u1.status u2.status
  blockSize : i.isCipher = true → u1.blockSize = u2.blockSize

/-- Two states agree on what command i gives: flags, destination registers and, of a cipher command, the output. -/
structure SameEnd (i : Instr) (t1 t2 : State) : Prop where
  flags : SameFlags t1.status t2.status
  W : t1.status.err = false → ∀ k ∈ i.writes, t1.W k = t2.W k
  output : i.isCipher = true →
    t1.outLen = t2.outLen ∧ t1.blockSize = t2.blockSize ∧ ∀ j < bufWindow, t1.outByte j = t2.outByte j

theorem SameStart.accept {i : Instr} {s1 s2 : State} (h : s1.SameInputs s2 i) (hc : i.isCipher = false) :
    SameStart i (s1.accept i) (s2.accept i) :=
  ⟨h.params, .started _ _ _, fun hc' => by rw [hc] at hc'; cases hc'⟩

theorem SameStart.startCipher {i : Instr} {s1 s2 : State} (h : s1.SameInputs s2 i) (hn : .n ∈ i.reads) :
    SameStart i (s1.startCipher i) (s2.startCipher i) :=
  ⟨h.params, .started _ _ _, fun _ => by rw [State.startCipher_blockSize, State.startCipher_blockSize, h.W .n hn]⟩

theorem SameStart.withEntropy {i : Instr} {u1 u2 : State} (h : SameStart i u1 u2) (rest : List Nat) :
    SameStart i (u1.withEntropy rest) (u2.withEntropy rest) :=
  ⟨h.params, h.flags, h.blockSize⟩

/-- An error ends alike: a cipher command's output is dropped whole (45_cipher.md R257). -/
theorem SameStart.raise {i : Instr} {u1 u2 : State} (h : SameStart i u1 u2) (e : Err) :
    SameEnd i (u1.raise i e) (u2.raise i e) where
  flags := by simpa using h.flags.failed e
  W := by simp
  output hc := by
    refine ⟨by simp [State.raise_outLen, hc], by simpa using h.blockSize hc, fun j hj => ?_⟩
    have hout : outBase ≤ outBase + j ∧ outBase + j < outBase + bufWindow := by omega
    rw [State.outByte, State.outByte, State.raise_read, State.raise_read, if_pos ⟨hc, hout⟩, if_pos ⟨hc, hout⟩]

theorem State.setW_W_congr {u1 u2 : State} (hp : u1.params = u2.params) (k : WideName) (v : Nat) :
    (u1.setW k v).W k = (u2.setW k v).W k := by
  simp [State.W, hp]

theorem SameStart.setW {i : Instr} {u1 u2 : State} (h : SameStart i u1 u2) (hc : i.isCipher = false)
    (hw : i.writes = [.r]) (v : Nat) : SameEnd i (u1.setW .r v).finish (u2.setW .r v).finish where
  flags := h.flags.finished
  W _ k hk := by
    obtain rfl : k = .r := by simpa [hw] using hk
    exact State.setW_W_congr h.params .r v
  output hc' := by rw [hc] at hc'; cases hc'

theorem SameStart.commitVerdict {u1 u2 : State} (h : SameStart .mrtest u1 u2) (v : Bool) :
    SameEnd .mrtest (commitVerdict v u1).finish (commitVerdict v u2).finish where
  flags := ⟨rfl, rfl, rfl, rfl, h.flags.lastop⟩
  W := (h.setW rfl rfl _).W
  output hc := by cases hc

theorem SameStart.commitKey {u1 u2 : State} (h : SameStart .keygen u1 u2) (key : Key) :
    SameEnd .keygen (commitKey key u1).finish (commitKey key u2).finish where
  flags := h.flags.finished
  W _ k hk := by
    simp only [Instr.writes, List.mem_cons, List.not_mem_nil, or_false] at hk
    rcases hk with rfl | rfl | rfl | rfl | rfl | rfl <;> simp [Machine.commitKey, State.W, h.params]
  output hc := by cases hc

/-- A cipher command has no destination register (30_encoding.md R121). -/
theorem writes_eq_nil_of_isCipher {i : Instr} (hc : i.isCipher = true) : i.writes = [] := by
  cases i with
  | encEcb | decEcb | encCbc | decCbc => rfl
  | _ => cases hc

theorem SameStart.setOutput {i : Instr} {u1 u2 : State} (h : SameStart i u1 u2) (hc : i.isCipher = true)
    (out : List Byte) : SameEnd i (u1.setOutput out).finish (u2.setOutput out).finish where
  flags := h.flags.finished
  W _ k hk := by rw [writes_eq_nil_of_isCipher hc] at hk; cases hk
  output _ := by
    refine ⟨rfl, h.blockSize hc, fun j hj => ?_⟩
    have hout : outBase ≤ outBase + j ∧ outBase + j < outBase + bufWindow := by omega
    simp only [State.outByte, State.finish_mem, State.setOutput_read, if_pos hout]

theorem State.settle_same {α : Type} {i : Instr} {u1 u2 t1 t2 : State} {res1 res2 : Except Err α}
    {commit : α → State → State} (hres : res1 = res2) (hu : SameStart i u1 u2)
    (hcommit : ∀ a, SameEnd i (commit a u1).finish (commit a u2).finish)
    (h1 : u1.settle i res1 commit = .next t1) (h2 : u2.settle i res2 commit = .next t2) :
    t1.busy = t2.busy ∧ (t1.busy = false → SameEnd i t1 t2) := by
  subst hres
  cases res1 with
  | error e =>
    cases h1; cases h2
    exact ⟨by simp, fun _ => hu.raise e⟩
  | ok a =>
    cases h1; cases h2
    exact ⟨rfl, fun _ => hcommit a⟩

theorem State.settleDrawn_same {α : Type} {i : Instr} {u1 u2 t1 t2 : State} {res1 res2 : Drawn α}
    {commit : α → State → State} (hres : res1 = res2) (hu : SameStart i u1 u2)
    (hcommit : ∀ a {v1 v2 : State}, SameStart i v1 v2 → SameEnd i (commit a v1).finish (commit a v2).finish)
    (h1 : u1.settleDrawn i res1 commit = .next t1) (h2 : u2.settleDrawn i res2 commit = .next t2) :
    t1.busy = t2.busy ∧ (t1.busy = false → SameEnd i t1 t2) := by
  subst hres
  cases res1 with
  | err e rest =>
    cases h1; cases h2
    exact ⟨by simp, fun _ => (hu.withEntropy rest).raise e⟩
  | ok a rest =>
    cases h1; cases h2
    exact ⟨rfl, fun _ => hcommit a (hu.withEntropy rest)⟩
  | waits req =>
    cases h1; cases h2
    exact ⟨rfl, fun hb => by cases hb⟩

theorem exec_same {i : Instr} {s1 s2 t1 t2 : State} (h : s1.SameInputs s2 i) (h1 : exec i s1 = .next t1)
    (h2 : exec i s2 = .next t2) : t1.busy = t2.busy ∧ (t1.busy = false → SameEnd i t1 t2) := by
  cases i with
  | nop =>
    cases h1; cases h2
    refine ⟨rfl, fun _ => ⟨⟨rfl, rfl, rfl, rfl, rfl⟩, fun _ k hk => ?_, fun hc => ?_⟩⟩
    · cases hk
    · cases hc
  | modmul =>
    rw [exec_modmul_eq] at h1 h2
    have hu := SameStart.accept h rfl
    exact State.settle_same h.modmulResult hu (hu.setW rfl rfl) h1 h2
  | modexp =>
    rw [exec_modexp_eq] at h1 h2
    have hu := SameStart.accept h rfl
    exact State.settle_same h.modexpResult hu (hu.setW rfl rfl) h1 h2
  | gcd =>
    rw [exec_gcd_eq] at h1 h2
    have hu := SameStart.accept h rfl
    exact State.settle_same h.gcdResult hu (hu.setW rfl rfl) h1 h2
  | modinv =>
    rw [exec_modinv_eq] at h1 h2
    have hu := SameStart.accept h rfl
    exact State.settle_same h.modinvResult hu (hu.setW rfl rfl) h1 h2
  | mrtest =>
    rw [exec_mrtest_eq] at h1 h2
    exact State.settleDrawn_same h.mrtestResult (SameStart.accept h rfl) (fun v _ _ hv => hv.commitVerdict v) h1 h2
  | genprime =>
    rw [exec_genprime_eq] at h1 h2
    exact State.settleDrawn_same h.genprimeResult (SameStart.accept h rfl) (fun p _ _ hv => hv.setW rfl rfl p) h1 h2
  | keygen =>
    rw [exec_keygen_eq] at h1 h2
    exact State.settleDrawn_same h.keygenResult (SameStart.accept h rfl) (fun key _ _ hv => hv.commitKey key) h1 h2
  | encEcb =>
    rw [exec_encEcb_eq] at h1 h2
    have hu := SameStart.startCipher h (by decide)
    exact State.settle_same h.encEcbResult hu (hu.setOutput rfl) h1 h2
  | decEcb =>
    rw [exec_decEcb_eq] at h1 h2
    have hu := SameStart.startCipher h (by decide)
    exact State.settle_same h.decEcbResult hu (hu.setOutput rfl) h1 h2
  | encCbc =>
    rw [exec_encCbc_eq] at h1 h2
    exact State.settleDrawn_same h.encCbcResult (SameStart.startCipher h (by decide))
      (fun out _ _ hv => hv.setOutput rfl out) h1 h2
  | decCbc =>
    rw [exec_decCbc_eq] at h1 h2
    have hu := SameStart.startCipher h (by decide)
    exact State.settle_same h.decCbcResult hu (hu.setOutput rfl) h1 h2

/-- Settles O44: equal inputs give equal results, and equal results end alike. -/
theorem resultsDependOnInputs : Obligations.ResultsDependOnInputs := by
  intro i s1 s2 t1 t2 h h1 h2
  obtain ⟨hbusy, hend⟩ := exec_same h h1 h2
  refine ⟨hbusy, fun hb => ?_⟩
  obtain ⟨hflags, hW, houtput⟩ := hend hb
  exact ⟨hflags.done, hflags.err, hflags.result, hflags.errcode, hflags.lastop, hW, houtput⟩

/-! ### CTRL while a command runs -/

/-- A running command's inputs hold the CTRL.TXT_CHECK of its start, so a change of CTRL is none of them. -/
theorem State.sameInputs_ctrl {s : State} {r : Running} (hrun : s.run = some r) (c : Ctrl) (i : Instr) :
    State.SameInputs { s with ctrl := c } s i := by
  have htxt : State.txtSnapshot { s with ctrl := c } = s.txtSnapshot := by simp only [State.txtSnapshot, hrun]
  exact ⟨rfl, fun _ _ => rfl, rfl, rfl, rfl, rfl, rfl, htxt, rfl, fun _ _ => rfl, fun _ => rfl⟩

theorem State.raise_ctrl_update (u : State) (i : Instr) (e : Err) (c : Ctrl) :
    State.raise { u with ctrl := c } i e = { u.raise i e with ctrl := c } := by
  unfold State.raise
  split <;> rfl

theorem State.settle_ctrl_update {α : Type} {i : Instr} {u t : State} {res res' : Except Err α}
    {commit : α → State → State} {c : Ctrl} (hres : res' = res)
    (hcommit : ∀ a v, commit a { v with ctrl := c } = { commit a v with ctrl := c })
    (h : u.settle i res commit = .next t) :
    State.settle { u with ctrl := c } i res' commit = .next { t with ctrl := c } := by
  subst hres
  rcases State.settle_cases h with ⟨e, rfl, rfl⟩ | ⟨a, rfl, rfl⟩
  · rw [State.settle, State.raise_ctrl_update]
  · rw [State.settle, hcommit]
    rfl

theorem State.settleDrawn_ctrl_update {α : Type} {i : Instr} {u t : State} {r : Running} {res res' : Drawn α}
    {commit : α → State → State} {c : Ctrl} (hres : res' = res)
    (hcommit : ∀ a v, commit a { v with ctrl := c } = { commit a v with ctrl := c })
    (h : u.settleDrawn i res commit = .next t) (hrun : u.run = some r) :
    State.settleDrawn { u with ctrl := c } i res' commit = .next { t with ctrl := c } := by
  subst hres
  rcases State.settleDrawn_cases h with ⟨e, rest, rfl, rfl⟩ | ⟨a, rest, rfl, rfl⟩ | ⟨req, rfl, rfl⟩
  · rw [State.settleDrawn, ← State.raise_ctrl_update]
    rfl
  · exact congrArg (fun v => Host.Outcome.next v.finish) (hcommit a (u.withEntropy rest))
  · simp only [State.settleDrawn, State.waitFor, State.txtSnapshot, hrun, State.stream]

/-- Settles O45: the result is the same, and each end of a command leaves CTRL to the host. -/
theorem ctrlChangeWhileBusy : Obligations.CtrlChangeWhileBusy := by
  intro i s t r c hrun h
  have hin := State.sameInputs_ctrl hrun c i
  cases i with
  | nop => cases h; rfl
  | modmul =>
    rw [exec_modmul_eq] at h ⊢
    exact State.settle_ctrl_update hin.modmulResult (fun _ _ => rfl) h
  | modexp =>
    rw [exec_modexp_eq] at h ⊢
    exact State.settle_ctrl_update hin.modexpResult (fun _ _ => rfl) h
  | gcd =>
    rw [exec_gcd_eq] at h ⊢
    exact State.settle_ctrl_update hin.gcdResult (fun _ _ => rfl) h
  | modinv =>
    rw [exec_modinv_eq] at h ⊢
    exact State.settle_ctrl_update hin.modinvResult (fun _ _ => rfl) h
  | mrtest =>
    rw [exec_mrtest_eq] at h ⊢
    exact State.settleDrawn_ctrl_update hin.mrtestResult (fun _ _ => rfl) h hrun
  | genprime =>
    rw [exec_genprime_eq] at h ⊢
    exact State.settleDrawn_ctrl_update hin.genprimeResult (fun _ _ => rfl) h hrun
  | keygen =>
    rw [exec_keygen_eq] at h ⊢
    exact State.settleDrawn_ctrl_update hin.keygenResult (fun _ _ => rfl) h hrun
  | encEcb =>
    rw [exec_encEcb_eq] at h ⊢
    exact State.settle_ctrl_update hin.encEcbResult (fun _ _ => rfl) h
  | decEcb =>
    rw [exec_decEcb_eq] at h ⊢
    exact State.settle_ctrl_update hin.decEcbResult (fun _ _ => rfl) h
  | encCbc =>
    rw [exec_encCbc_eq] at h ⊢
    exact State.settleDrawn_ctrl_update hin.encCbcResult (fun _ _ => rfl) h hrun
  | decCbc =>
    rw [exec_decCbc_eq] at h ⊢
    exact State.settle_ctrl_update hin.decCbcResult (fun _ _ => rfl) h

end Sys2Proof.Machine
end

section
/-! The bus target port off the control registers (20_memory.md R84 to R88, R95, R96): O47, O50, O51, O52 and O53. -/

namespace Sys2Proof.Machine

/-! ### An access by its location -/

theorem transferOk_eq_false_iff {size off : Nat} : transferOk size off = false ↔ size ≠ 32 ∨ off % 4 ≠ 0 := by
  simp only [transferOk, Bool.and_eq_false_iff, beq_eq_false_iff_ne]

theorem transferOk_of_aligned {off : Nat} (h : off % 4 = 0) : transferOk 32 off = true := by
  simp [transferOk, h]

theorem State.memRead_of_locate {s : State} {off : Nat} {l : Loc} (hok : transferOk 32 off = true)
    (hl : locate s.params off = some l) : s.memRead off 32 = s.respondRead (.readOk (s.readData l)) := by
  rw [State.memRead, if_pos hok, hl]

theorem State.memWrite_of_locate {s : State} {off : Nat} {l : Loc} (v : Word) (hok : transferOk 32 off = true)
    (hl : locate s.params off = some l) :
    s.memWrite off 32 v =
      if s.busy && l.droppedWhenBusy then .next { s.respond .writeOk with status := s.status.overrun }
      else (s.respond .writeOk).storeLoc l v := by
  rw [State.memWrite, if_pos hok, hl]

/-- A read gets ERROR where the port takes no such transfer or nothing is implemented (20_memory.md R85, R86). -/
theorem State.memRead_error {s : State} {off size : Nat}
    (h : transferOk size off = false ∨ locate s.params off = none) :
    s.memRead off size = s.respondRead (.readError (Config.freeWord s.free)) := by
  unfold State.memRead
  rcases h with h | h
  · rw [if_neg (by simp [h])]
  · rw [h, ite_self]

/-- A write gets ERROR where the port takes no such transfer or nothing is implemented (20_memory.md R85, R86). -/
theorem State.memWrite_error {s : State} {off size : Nat} (v : Word)
    (h : transferOk size off = false ∨ locate s.params off = none) :
    s.memWrite off size v = .next (s.respond .writeError) := by
  unfold State.memWrite
  rcases h with h | h
  · rw [if_neg (by simp [h])]
  · rw [h, ite_self]

/-! ### Which offsets are implemented (20_memory.md R84, R85) -/

/-- The control registers fill the words below 0x34 (10_state.md R30). -/
theorem ctrlRegAt_eq_none_iff {off : Nat} (h : off % 4 = 0) : ctrlRegAt off = none ↔ 0x34 ≤ off := by
  unfold ctrlRegAt
  split
  case h_14 =>
    simp only [imp_false] at *
    simp
    omega
  all_goals simp

theorem wideAt_eq_none_iff {i : Nat} : wideAt i = none ↔ 11 ≤ i := by
  unfold wideAt
  split
  case h_12 =>
    simp only [imp_false] at *
    simp
    omega
  all_goals simp

theorem locate_ctrl_eq_none_iff (p : Params) {off : Nat} (h4 : off % 4 = 0) (h : off < 0x400) :
    locate p off = none ↔ 0x34 ≤ off := by
  rw [locate, wideBase, if_pos h, Option.map_eq_none_iff, ctrlRegAt_eq_none_iff h4]

theorem locate_wide_eq_none_iff (p : Params) {off : Nat} (h : 0x400 ≤ off) (h' : off < 0x4000) :
    locate p off = none ↔ 0x1A00 ≤ off ∨ p.opw / 32 ≤ off % 0x200 / 4 := by
  have hword : (off - 0x400) % 0x200 / 4 = off % 0x200 / 4 := by omega
  rw [locate, wideBase, if_neg (by omega), inBase, if_pos h', wideWindow]
  cases hk : wideAt ((off - 0x400) / 0x200) with
  | none =>
    have hoff : 0x1A00 ≤ off := by have := wideAt_eq_none_iff.1 hk; omega
    simp [hoff]
  | some k =>
    have hoff : ¬ 0x1A00 ≤ off := fun hle => by
      rw [wideAt_eq_none_iff.2 (by omega)] at hk
      cases hk
    simp [hoff, hword, Params.wideWords]

theorem locate_buf_eq_none_iff (p : Params) {off : Nat} (h : 0x4000 ≤ off) :
    locate p off = none ↔
      0xC000 ≤ off ∨ (off ≤ 0x7FFF ∧ p.bufBytes ≤ off - 0x4000) ∨ (0x8000 ≤ off ∧ p.bufBytes ≤ off - 0x8000) := by
  rw [locate, wideBase, inBase, outBase, bufWindow, if_neg (by omega), if_neg (by omega)]
  split_ifs <;> simp <;> omega

/-- Settles O47: both errors leave only the response, and the unimplemented offsets are found range by range. -/
theorem busErrors : Obligations.BusErrors := by
  refine ⟨fun s off size v h => ?transfer, fun s off v h4 h => ⟨?ranges, fun hnone => ?unimplemented⟩⟩
  case transfer =>
    have hbad := transferOk_eq_false_iff.2 h
    exact ⟨State.memWrite_error v (.inl hbad), State.memRead_error (.inl hbad)⟩
  case unimplemented => exact ⟨State.memWrite_error v (.inr hnone), State.memRead_error (.inr hnone)⟩
  case ranges =>
    rcases lt_or_ge off 0x400 with hctrl | hwide
    · rw [locate_ctrl_eq_none_iff _ h4 hctrl]
      omega
    · rcases lt_or_ge off 0x4000 with hwide' | hbuf
      · rw [locate_wide_eq_none_iff _ hwide hwide']
        omega
      · rw [locate_buf_eq_none_iff _ hbuf]
        omega

/-! ### The words of a wide register (20_memory.md R87) -/

/-- The word and the words below it fill exactly the places below the next word. -/
theorem word_add_mod_lt (v i : Nat) (w : Word) :
    w.toNat * 2 ^ (32 * i) + v % 2 ^ (32 * i) < 2 ^ (32 * (i + 1)) := by
  have hlow : v % 2 ^ (32 * i) < 2 ^ (32 * i) := Nat.mod_lt _ (Nat.two_pow_pos _)
  calc w.toNat * 2 ^ (32 * i) + v % 2 ^ (32 * i) < (w.toNat + 1) * 2 ^ (32 * i) := by
        rw [Nat.add_mul, Nat.one_mul]; omega
    _ ≤ 2 ^ 32 * 2 ^ (32 * i) := Nat.mul_le_mul_right _ w.isLt
    _ = 2 ^ (32 * (i + 1)) := by rw [← pow_add]; congr 1; omega

/-- Replacing word i leaves the words above it. -/
theorem replaceWord_div (v i : Nat) (w : Word) :
    replaceWord v i w / 2 ^ (32 * (i + 1)) = v / 2 ^ (32 * (i + 1)) := by
  rw [replaceWord, Nat.add_assoc, Nat.mul_comm, Nat.mul_add_div (Nat.two_pow_pos _),
    Nat.div_eq_of_lt (word_add_mod_lt v i w), Nat.add_zero]

/-- Replacing word i leaves the words below it. -/
theorem replaceWord_mod (v i : Nat) (w : Word) : replaceWord v i w % 2 ^ (32 * i) = v % 2 ^ (32 * i) := by
  have hpow : 2 ^ (32 * (i + 1)) = 2 ^ 32 * 2 ^ (32 * i) := by rw [← pow_add]; congr 1; omega
  rw [replaceWord, hpow, ← Nat.mul_assoc, ← Nat.add_mul, Nat.mul_add_mod', Nat.mod_mod]

/-- Word i is the one put there. -/
theorem replaceWord_word_same (v i : Nat) (w : Word) : replaceWord v i w / 2 ^ (32 * i) % 2 ^ 32 = w.toNat := by
  have hpow : 2 ^ (32 * (i + 1)) = 2 ^ (32 * i) * 2 ^ 32 := pow_add 2 (32 * i) 32
  rw [← Nat.mod_mul_right_div_self, ← hpow, replaceWord, Nat.add_assoc, Nat.mul_add_mod',
    Nat.mod_eq_of_lt (word_add_mod_lt v i w), Nat.add_comm, Nat.add_mul_div_right _ _ (Nat.two_pow_pos _),
    Nat.mod_div_self, Nat.zero_add]

/-- Every other word is as before. -/
theorem replaceWord_word_other (v : Nat) {i j : Nat} (w : Word) (h : j ≠ i) :
    replaceWord v i w / 2 ^ (32 * j) % 2 ^ 32 = v / 2 ^ (32 * j) % 2 ^ 32 := by
  rcases Nat.lt_or_gt_of_ne h with hlt | hgt
  · have hdvd : 2 ^ (32 * j) * 2 ^ 32 ∣ 2 ^ (32 * i) := by
      rw [← pow_add]
      exact pow_dvd_pow 2 (by omega)
    rw [← Nat.mod_mul_right_div_self, ← Nat.mod_mul_right_div_self v, ← Nat.mod_mod_of_dvd _ hdvd, replaceWord_mod,
      Nat.mod_mod_of_dvd _ hdvd]
  · have hpow : 2 ^ (32 * j) = 2 ^ (32 * (i + 1)) * 2 ^ (32 * (j - (i + 1))) := by rw [← pow_add]; congr 1; omega
    rw [hpow, ← Nat.div_div_eq_div_mul, ← Nat.div_div_eq_div_mul, replaceWord_div]

/-- A host write of word i as the register holds it after. -/
def WideReg.putWord (r : WideReg) (i : Nat) (v : Word) : WideReg :=
  { val := replaceWord r.val i v, written := r.written ||| (1#128 <<< i) }

theorem State.setWideWord_get (s : State) (k : WideName) (i : Nat) (v : Word) :
    (s.setWideWord k i v).wide.get k = (s.wide.get k).putWord i v := WideFile.get_set_same _ k _

theorem WideReg.putWord_written (r : WideReg) {i j : Nat} (v : Word) (hj : j < 128) :
    (r.putWord i v).written.getLsbD j = (decide (j = i) || r.written.getLsbD j) := by
  have hbit : (1#128 <<< i).getLsbD j = decide (j = i) := by
    rw [BitVec.getLsbD_shiftLeft, BitVec.getLsbD_one]
    by_cases hji : j = i
    · simp [hji, hji ▸ hj]
    · simp [hji]; omega
  rw [WideReg.putWord, BitVec.getLsbD_or, hbit, Bool.or_comm]

/-- A written word is read back. -/
theorem WideReg.putWord_word (r : WideReg) {i : Nat} (v : Word) (hi : i < 128) : (r.putWord i v).word i = some v := by
  have hwritten : (r.putWord i v).written.getLsbD i = true := by simp [WideReg.putWord_written r v hi]
  have hval : BitVec.ofNat 32 ((r.putWord i v).val / 2 ^ (32 * i)) = v :=
    BitVec.eq_of_toNat_eq (replaceWord_word_same r.val i v)
  rw [WideReg.word, if_pos hwritten, hval]

/-- A read of word i of an IDLE block's wide register. -/
theorem State.memRead_wide {s : State} (k : WideName) {i : Nat} (hb : s.busy = false) (hl : s.params.legal = true)
    (hi : i < s.params.opw / 32) :
    s.memRead (k.offset + 4 * i) 32 =
      s.respondRead (.readOk (((s.wide.get k).word i).getD (Config.freeWord s.free))) := by
  obtain ⟨hloc, hok⟩ := locate_wide s.params k i hi (Params.opw_le hl).2.1
  rw [State.memRead_of_locate hok hloc, State.readData, hb, if_neg Bool.false_ne_true]

/-- A write of word i of an IDLE block's wide register. -/
theorem State.memWrite_wide {s : State} (k : WideName) {i : Nat} (v : Word) (hb : s.busy = false)
    (hl : s.params.legal = true) (hi : i < s.params.opw / 32) :
    s.memWrite (k.offset + 4 * i) 32 v = .next ((s.respond .writeOk).setWideWord k i v) := by
  obtain ⟨hloc, hok⟩ := locate_wide s.params k i hi (Params.opw_le hl).2.1
  rw [State.memWrite_of_locate v hok hloc, hb, Bool.false_and, if_neg Bool.false_ne_true, State.storeLoc]

theorem State.setWideWord_readBack {s : State} (k : WideName) {i : Nat} (v : Word) (hb : s.busy = false)
    (hl : s.params.legal = true) (hi : i < s.params.opw / 32) :
    ((s.setWideWord k i v).memRead (k.offset + 4 * i) 32).response = some (.readOk v) := by
  have hi128 : i < 128 := by have := (Params.opw_le hl).2.1; omega
  rw [State.memRead_wide (s := s.setWideWord k i v) k hb hl hi, State.respondRead_response, State.setWideWord_get,
    WideReg.putWord_word _ v hi128, Option.getD_some]

/-- Settles O50: a read gives `word` and a write leaves `putWord`. -/
theorem wideWordAccess : Obligations.WideWordAccess := by
  intro s k i v hrun hlegal hi
  have hbusy : s.busy = false := by simp [State.busy, hrun]
  refine ⟨fun hw => ?written, fun hw => ?unwritten, (s.wide.get k).putWord i v,
    State.memWrite_wide k v hbusy hlegal hi, replaceWord_word_same _ i v, fun j => replaceWord_word_other _ v,
    fun j => WideReg.putWord_written _ v, WideFile.get_set_same _ k _, fun k' => WideFile.get_set_other _ _, ?readBack⟩
  case written =>
    rw [State.memRead_wide k hbusy hlegal hi, WideReg.word, if_pos hw]
    rfl
  case unwritten =>
    rw [State.memRead_wide k hbusy hlegal hi, WideReg.word, if_neg (by simp [hw])]
    rfl
  case readBack => exact State.setWideWord_readBack (s := s.respond .writeOk) k v hbusy hlegal hi

/-! ### The words of a buffer (20_memory.md R88) -/

/-- A read of the word at byte 4w of an IDLE block's buffer. -/
theorem State.memRead_buf {s : State} (b : BufName) {w : Nat} (hb : s.busy = false) (hl : s.params.legal = true)
    (hw : 4 * w < s.params.bufBytes) :
    s.memRead (b.base + 4 * w) 32 = s.respondRead (.readOk (packWord (s.bufByte b (4 * w) 0)
      (s.bufByte b (4 * w + 1) 1) (s.bufByte b (4 * w + 2) 2) (s.bufByte b (4 * w + 3) 3))) := by
  obtain ⟨hloc, hok⟩ := locate_buf s.params b w hw (Params.buf_le hl).1
  rw [State.memRead_of_locate hok hloc, State.readData, hb, if_neg Bool.false_ne_true]

/-- A write of the word at byte 4w of an IDLE block's buffer. -/
theorem State.memWrite_buf {s : State} (b : BufName) {w : Nat} (v : Word) (hb : s.busy = false)
    (hl : s.params.legal = true) (hw : 4 * w < s.params.bufBytes) :
    s.memWrite (b.base + 4 * w) 32 v = .next ((s.respond .writeOk).storeBuf b (4 * w) v) := by
  obtain ⟨hloc, hok⟩ := locate_buf s.params b w hw (Params.buf_le hl).1
  rw [State.memWrite_of_locate v hok hloc, hb, Bool.false_and, if_neg Bool.false_ne_true, State.storeLoc]

/-- A host store of a word puts its byte k at the k-th of four offsets. -/
theorem State.storeBuf_read_inside (s : State) (b : BufName) (j : Nat) (v : Word) {k : Nat} (hk : k < 4) :
    Memory.read (s.storeBuf b j v).mem (b.base + j + k) = some (wordByte v k) := by
  rw [State.storeBuf_mem, Memory.read_writeBytes, if_pos (by simp; omega), Nat.add_sub_cancel_left]
  interval_cases k <;> rfl

/-- A host store of a word leaves every byte but its four. -/
theorem State.storeBuf_read_outside (s : State) (b : BufName) (j : Nat) (v : Word) {a : Nat}
    (ha : ¬ (b.base + j ≤ a ∧ a < b.base + j + 4)) :
    Memory.read (s.storeBuf b j v).mem a = Memory.read s.mem a := by
  rw [State.storeBuf_mem, Memory.read_writeBytes]
  exact if_neg ha

/-- A byte that holds a value reads as it, whatever free values stand ready. -/
theorem State.bufByte_of_read {s : State} {b : BufName} {j k skip : Nat} {x : Byte}
    (h : Memory.read s.mem (b.base + j + k) = some x) : s.bufByte b (j + k) skip = x := by
  rw [State.bufByte, ← Nat.add_assoc, h, Option.getD_some]

theorem State.storeBuf_readBack {s : State} (b : BufName) {w : Nat} (v : Word) (hb : s.busy = false)
    (hl : s.params.legal = true) (hw : 4 * w < s.params.bufBytes) :
    ((s.storeBuf b (4 * w) v).memRead (b.base + 4 * w) 32).response = some (.readOk v) := by
  have hbyte : ∀ k < 4, (s.storeBuf b (4 * w) v).bufByte b (4 * w + k) k = wordByte v k :=
    fun k hk => State.bufByte_of_read (s.storeBuf_read_inside b (4 * w) v hk)
  have hfirst := hbyte 0 (by decide)
  rw [Nat.add_zero] at hfirst
  rw [State.memRead_buf (s := s.storeBuf b (4 * w) v) b hb hl hw, State.respondRead_response, hfirst,
    hbyte 1 (by decide), hbyte 2 (by decide), hbyte 3 (by decide), packWord_wordByte]

/-- Settles O51: a read packs the four bytes and a write is `storeBuf`. -/
theorem bufferWordAccess : Obligations.BufferWordAccess := by
  intro s b w v hrun hlegal hw
  have hbusy : s.busy = false := by simp [State.busy, hrun]
  have hstored := fun k (hk : k < 4) => s.storeBuf_read_inside b (4 * w) v hk
  refine ⟨⟨_, State.memRead_buf b hbusy hlegal hw, fun k hk x hx => ?byte⟩, (s.storeBuf b (4 * w) v).mem,
    State.memWrite_buf b v hbusy hlegal hw, hstored, fun a => s.storeBuf_read_outside b (4 * w) v, ?readBack⟩
  case byte =>
    obtain ⟨h0, h1, h2, h3⟩ := wordByte_packWord (s.bufByte b (4 * w) 0) (s.bufByte b (4 * w + 1) 1)
      (s.bufByte b (4 * w + 2) 2) (s.bufByte b (4 * w + 3) 3)
    have hread : ∀ skip, s.bufByte b (4 * w + k) skip = x := fun _ => State.bufByte_of_read hx
    interval_cases k
    · exact h0.trans (hread 0)
    · exact h1.trans (hread 1)
    · exact h2.trans (hread 2)
    · exact h3.trans (hread 3)
  case readBack => exact State.storeBuf_readBack (s := s.respond .writeOk) b v hbusy hlegal hw

/-! ### The host while BUSY (20_memory.md R95, R96) -/

/-- A write to a RO register is ignored, BUSY or IDLE (20_memory.md R91, R95). -/
theorem State.memWrite_readOnly (s : State) {r : CtrlReg} (v : Word) (hr : r.readOnly = true) :
    s.memWrite r.offset 32 v = .next (s.respond .writeOk) := by
  have hkept : (Loc.ctrl r).droppedWhenBusy = false := by simp [Loc.droppedWhenBusy, hr]
  rw [State.memWrite_ctrl, hkept, Bool.and_false, if_neg Bool.false_ne_true]
  cases r with
  | id | outLen | blockSize | paramOpw | paramBuf => rfl
  | _ => cases hr

/-- Settles O52: the location decides whether a write is dropped; STATUS, CTRL and RO registers never drop one. -/
theorem busyWrites : Obligations.BusyWrites := by
  intro s v hbusy
  refine ⟨fun off l h4 hloc hl => ?dropped, s.memWrite_ctrlReg v, ?status, ?readOnly⟩
  case dropped =>
    have hdrop : l.droppedWhenBusy = true := by
      rcases hl with hl | ⟨k, i, rfl⟩ | ⟨b, j, rfl⟩
      · simp only [List.mem_cons, List.not_mem_nil, or_false] at hl
        rcases hl with rfl | rfl | rfl | rfl | rfl | rfl <;> rfl
      · rfl
      · rfl
    rw [State.memWrite_of_locate v (transferOk_of_aligned h4) hloc, hbusy, hdrop, Bool.true_and, if_pos rfl]
    rfl
  case status =>
    rw [State.memWrite_status, State.acknowledge, State.respond_status, Status.acknowledged_eq]
    rfl
  case readOnly =>
    have hro : ∀ r ∈ [CtrlReg.id, .outLen, .blockSize, .paramOpw, .paramBuf], r.readOnly = true := by decide
    exact fun r hr => s.memWrite_readOnly v (hro r hr)

/-- A BUSY block's read of a control register other than OUT_LEN and BLOCK_SIZE gives its 32-bit view. -/
theorem State.memRead_ctrl_of_ne (s : State) {r : CtrlReg} (hout : r ≠ .outLen) (hblock : r ≠ .blockSize) :
    s.memRead r.offset 32 = s.respondRead (.readOk (s.ctrlWord r)) := by
  rw [State.memRead_ctrl, State.readData, if_neg (by simp [hout, hblock])]

/-- Settles O53: the location decides whether a read is UNSPECIFIED. -/
theorem busyReads : Obligations.BusyReads := by
  intro s hbusy
  refine ⟨fun off l h4 hloc hl => ?unspecified, ?current⟩
  case unspecified =>
    have hdata : s.readData l = Config.freeWord s.free := by
      rcases hl with rfl | rfl | ⟨k, i, rfl⟩ | ⟨b, j, rfl⟩ <;> simp [State.readData, hbusy]
    rw [State.memRead_of_locate (transferOk_of_aligned h4) hloc, hdata]
    rfl
  case current =>
    have hread : ∀ {r : CtrlReg}, r ≠ .outLen → r ≠ .blockSize →
        s.memRead r.offset 32 = s.respondRead (.readOk (s.ctrlWord r)) := s.memRead_ctrl_of_ne
    have hstatus : s.ctrlWord .status = s.status.word true := by rw [State.ctrlWord, hbusy]
    simp only [List.forall_mem_cons, List.not_mem_nil, IsEmpty.forall_iff, implies_true, and_true]
    exact ⟨hread (by decide) (by decide), hread (by decide) (by decide), hstatus ▸ hread (by decide) (by decide),
      hread (by decide) (by decide), hread (by decide) (by decide), hread (by decide) (by decide),
      hread (by decide) (by decide), hread (by decide) (by decide), hread (by decide) (by decide),
      hread (by decide) (by decide), hread (by decide) (by decide)⟩

end Sys2Proof.Machine
end

section
/-! O1, O2 and O3: the command word read as a number (30_encoding.md R120 to R125). RSVD is its quotient and OPCODE its
remainder by 256, so "decodes to i" and "is the word of i" come down to the same two equations. -/

namespace Sys2Proof

/-! ### The fields of a command word (30_encoding.md R120) -/

@[simp] theorem wordOpcode_toNat (v : Word) : (wordOpcode v).toNat = v.toNat % 256 := by
  rw [wordOpcode, BitVec.extractLsb'_toNat, Nat.shiftRight_zero]

@[simp] theorem wordRsvd_toNat (v : Word) : (wordRsvd v).toNat = v.toNat / 256 := by
  rw [wordRsvd, BitVec.extractLsb'_toNat, Nat.shiftRight_eq_div_pow]
  exact Nat.mod_eq_of_lt (Nat.div_lt_of_lt_mul v.isLt)

theorem wordRsvd_eq_zero_iff (v : Word) : wordRsvd v = 0 ↔ v.toNat / 256 = 0 := by
  rw [← BitVec.toNat_inj, wordRsvd_toNat]
  rfl

theorem wordOpcode_eq_iff (v : Word) (op : BitVec 8) : wordOpcode v = op ↔ v.toNat % 256 = op.toNat := by
  rw [← BitVec.toNat_inj, wordOpcode_toNat]

@[simp] theorem encode_toNat (i : Instr) : (encode i).toNat = i.opcode.toNat :=
  BitVec.toNat_setWidth_of_le (by decide)

theorem eq_encode_iff {v : Word} {i : Instr} :
    v = encode i ↔ v.toNat / 256 = 0 ∧ v.toNat % 256 = i.opcode.toNat := by
  have hop : i.opcode.toNat < 256 := i.opcode.isLt
  rw [← BitVec.toNat_inj, encode_toNat]
  omega

/-! ### The opcode map (30_encoding.md R121) -/

theorem decodeOpcode_opcode (i : Instr) : decodeOpcode i.opcode = some i := by cases i <;> rfl

/-- The opcode map is injective and is read backwards by `decodeOpcode`. -/
theorem decodeOpcode_eq_some_iff {op : BitVec 8} {i : Instr} : decodeOpcode op = some i ↔ op = i.opcode := by
  constructor
  · intro h
    unfold decodeOpcode at h
    -- One case per row of the map, where `op` has the row's number, and the last one for every other number.
    split at h <;> cases h <;> exact BitVec.eq_of_toNat_eq ‹_›
  · rintro rfl
    exact decodeOpcode_opcode i

theorem mem_opcodes_iff {n : Nat} :
    n ∈ [0x00, 0x10, 0x11, 0x20, 0x21, 0x30, 0x31, 0x40, 0x50, 0x51, 0x52, 0x53] ↔ ∃ i : Instr, n = i.opcode.toNat := by
  constructor
  · intro h
    simp only [List.mem_cons, List.not_mem_nil, or_false] at h
    rcases h with rfl | rfl | rfl | rfl | rfl | rfl | rfl | rfl | rfl | rfl | rfl | rfl
    exacts [⟨.nop, rfl⟩, ⟨.modmul, rfl⟩, ⟨.modexp, rfl⟩, ⟨.gcd, rfl⟩, ⟨.modinv, rfl⟩, ⟨.mrtest, rfl⟩, ⟨.genprime, rfl⟩,
      ⟨.keygen, rfl⟩, ⟨.encEcb, rfl⟩, ⟨.decEcb, rfl⟩, ⟨.encCbc, rfl⟩, ⟨.decCbc, rfl⟩]
  · rintro ⟨i, rfl⟩
    cases i <;> decide

/-! ### Decoding (30_encoding.md R123) -/

theorem decode_eq_ok_iff_fields {v : Word} {i : Instr} :
    decode v = .ok i ↔ wordRsvd v = 0 ∧ decodeOpcode (wordOpcode v) = some i := by
  unfold decode
  by_cases hr : wordRsvd v = 0
  · rw [if_neg (not_not_intro hr)]
    cases decodeOpcode (wordOpcode v) <;> simp [hr]
  · rw [if_pos hr]
    exact iff_of_false nofun fun h => hr h.1

theorem decode_eq_ok_iff {v : Word} {i : Instr} :
    decode v = .ok i ↔ v.toNat / 256 = 0 ∧ v.toNat % 256 = i.opcode.toNat := by
  rw [decode_eq_ok_iff_fields, wordRsvd_eq_zero_iff, decodeOpcode_eq_some_iff, wordOpcode_eq_iff]

/-- Settles O3: both sides say RSVD = 0 and OPCODE = the command's. -/
theorem decodeIffEncoded : Obligations.DecodeIffEncoded :=
  fun _ _ => decode_eq_ok_iff.trans eq_encode_iff.symm

/-- Settles O2: the twelve values are the opcodes of the commands. -/
theorem decodeExactlyLegalWords : Obligations.DecodeExactlyLegalWords := by
  intro v
  simp only [decode_eq_ok_iff, exists_and_left, mem_opcodes_iff]

/-- Settles O1: the legal words are the commands' own (O3), and the two illegal ones are evaluated. -/
theorem decodeListedWords : Obligations.DecodeListedWords := by
  have hword {v : Word} {i : Instr} (h : v = encode i) : decode v = .ok i := (decodeIffEncoded v i).mpr h
  exact ⟨hword rfl, hword rfl, hword rfl, hword rfl, hword rfl, hword rfl, hword rfl, rfl, rfl⟩

end Sys2Proof
end

section
/-! O4, O5, O6 and O7: what a step is (40_control.md R140, R141, R150; 20_memory.md R80, R81, R90, R91; 60_exceptions.md R318).
Each event has its equation; a CMD write while IDLE is `startCommand`, which answers by what its word decodes to. -/

namespace Sys2Proof.Machine

/-! ### The step by its event (log 1) -/

theorem step_eq_coreMove {s : State} (hl : s.params.legal = true) (hin : s.inputs = []) : step s = s.coreMove := by
  rw [step, State.advance, if_pos hl, hin]

theorem step_eq_handle {s : State} {e : Event} {rest : List Event} (hl : s.params.legal = true)
    (hin : s.inputs = e :: rest) : step s = { s with inputs := rest }.handle e := by
  rw [step, State.advance, if_pos hl, hin]

theorem State.coreMove_idle {s : State} (hrun : s.run = none) : s.coreMove = .next s := by
  rw [State.coreMove, hrun, ite_self]

theorem State.coreMove_running {s : State} {r : Running} {i : Instr} (hrst : s.rst = false) (hrun : s.run = some r)
    (hdec : decode r.word = .ok i) : s.coreMove = exec i s := by
  simp only [State.coreMove, hrst, hrun, hdec, Bool.false_eq_true, if_false]

/-! ### Bus transactions by their address (20_memory.md R80, R81) -/

theorem offsetOf_inside {p : Params} {addr : Nat} (hlo : p.base ≤ addr) (hhi : addr < p.base + 0x10000) :
    offsetOf p addr = some (addr - p.base) :=
  if_pos ⟨hlo, hhi⟩

theorem offsetOf_outside {p : Params} {addr : Nat} (h : addr < p.base ∨ p.base + 0x10000 ≤ addr) :
    offsetOf p addr = none :=
  if_neg (by omega)

theorem State.transact_read {s : State} {addr off : Nat} (size : Nat) (hrst : s.rst = false)
    (hoff : offsetOf s.params addr = some off) : s.transact (.read addr size) = .next (s.memRead off size) := by
  simp only [State.transact, hoff, hrst, Bool.false_eq_true, if_false]

theorem State.transact_write {s : State} {addr off : Nat} (size : Nat) (v : Word) (hrst : s.rst = false)
    (hoff : offsetOf s.params addr = some off) : s.transact (.write addr size v) = s.memWrite off size v := by
  simp only [State.transact, hoff, hrst, Bool.false_eq_true, if_false]

theorem State.transact_read_outside {s : State} {addr : Nat} (size : Nat) (hoff : offsetOf s.params addr = none) :
    s.transact (.read addr size) = .next { s with response := none } := by
  rw [State.transact, hoff]

theorem State.transact_write_outside {s : State} {addr : Nat} (size : Nat) (v : Word)
    (hoff : offsetOf s.params addr = none) :
    s.transact (.write addr size v) = .next { s with response := none } := by
  rw [State.transact, hoff]

/-- Settles O7: one equation per event, and the core's move by whether the block is IDLE. -/
theorem stepTakesEvent : Obligations.StepTakesEvent := by
  intro s hl hrst
  refine ⟨fun r i hrun hdec => ⟨fun hin => ?runs, fun rest hin => ?runsByEvent⟩,
    fun hrun => ⟨fun hin => ?rests, fun rest hin => ?restsByEvent⟩,
    fun addr size v rest => ⟨fun hlo hhi => ⟨fun hin => ?read, fun hin => ?write⟩, fun hout hin => ?outside⟩,
    fun answer rest hin => step_eq_handle hl hin⟩
  case runs => exact (step_eq_coreMove hl hin).trans (State.coreMove_running hrst hrun hdec)
  case runsByEvent => exact (step_eq_handle hl hin).trans (State.coreMove_running hrst hrun hdec)
  case rests => exact (step_eq_coreMove hl hin).trans (State.coreMove_idle hrun)
  case restsByEvent => exact (step_eq_handle hl hin).trans (State.coreMove_idle hrun)
  case read => exact (step_eq_handle hl hin).trans (State.transact_read size hrst (offsetOf_inside hlo hhi))
  case write => exact (step_eq_handle hl hin).trans (State.transact_write size v hrst (offsetOf_inside hlo hhi))
  case outside =>
    rcases hin with hin | hin
    · exact (step_eq_handle hl hin).trans (State.transact_read_outside size (offsetOf_outside hout))
    · exact (step_eq_handle hl hin).trans (State.transact_write_outside size v (offsetOf_outside hout))

/-! ### A CMD write while IDLE (40_control.md R140, R141, R150) -/

/-- An IDLE block starts whatever word is written to CMD. -/
theorem State.memWrite_cmd {s : State} (v : Word) (hrun : s.run = none) :
    s.memWrite CtrlReg.cmd.offset 32 v = (s.respond .writeOk).startCommand v := by
  have hbusy : s.busy = false := by rw [State.busy, hrun, Option.isSome_none]
  rw [State.memWrite_ctrl, hbusy, Bool.false_and, if_neg Bool.false_ne_true, State.storeLoc]

/-- The step of a CMD write while IDLE, by O7's equation for a write in the window. -/
theorem step_cmdWrite {s : State} {v : Word} {rest : List Event} (hl : s.params.legal = true) (hrst : s.rst = false)
    (hrun : s.run = none) (hin : s.inputs = .bus (.write (s.params.base + 0x004) 32 v) :: rest) :
    step s = ({ s with inputs := rest }.respond .writeOk).startCommand v := by
  obtain ⟨-, -, hbus, -⟩ := stepTakesEvent s hl hrst
  obtain ⟨hwindow, -⟩ := hbus (s.params.base + 0x004) 32 v rest
  obtain ⟨-, hwrite⟩ := hwindow (by omega) (by omega)
  rw [hwrite hin, Nat.add_sub_cancel_left]
  exact State.memWrite_cmd v hrun

theorem opcodeUnassigned_opcode (i : Instr) : opcodeUnassigned i.opcode.toNat = false := by cases i <;> rfl

/-- R124's two kinds of illegal word decode to no command, since a command's word has RSVD = 0 and an assigned OPCODE. -/
theorem decode_eq_error_of_illegal {v : Word}
    (h : v.toNat / 256 ≠ 0 ∨ opcodeUnassigned (v.toNat % 256) = true) : ∃ e, decode v = .error e := by
  cases hdec : decode v with
  | error e => exact ⟨e, rfl⟩
  | ok i =>
    obtain ⟨hrsvd, hop⟩ := decode_eq_ok_iff.1 hdec
    simp [hrsvd, hop, opcodeUnassigned_opcode] at h

theorem State.startCommand_illegal (s : State) {v : Word} {e : DecodeError} (h : decode v = .error e) :
    s.startCommand v = .next (s.illegal v) := by
  rw [State.startCommand, h]

/-- Settles O4: the word decodes to no command, and the flags are those of a start and then of E_ILLEGAL_COMMAND. -/
theorem illegalCommandWord : Obligations.IllegalCommandWord := by
  intro s v rest hl hrst hrun hin hv
  obtain ⟨e, hdec⟩ := decode_eq_error_of_illegal hv
  exact (step_cmdWrite hl hrst hrun hin).trans (State.startCommand_illegal _ hdec)

/-- Settles O6: a command other than NOP is launched, with the flags of its start. -/
theorem commandStart : Obligations.CommandStart := by
  intro s i rest hl hrst hrun hi hin
  exact (step_cmdWrite hl hrst hrun hin).trans (State.startCommand_encode _ hi)

/-- NOP's word runs NOP in the step of its CMD write (40_control.md R150). -/
theorem State.startCommand_nop (s : State) : s.startCommand 0x00000000 = exec .nop s := rfl

/-- Settles O5: NOP's start and success epilogue set every flag but OVR, and an IDLE block stays IDLE through them. -/
theorem nopCompletes : Obligations.NopCompletes := by
  refine ⟨exec_nop_eq, fun s rest hl hrst hrun hin => ?_⟩
  rw [step_cmdWrite hl hrst hrun hin, State.startCommand_nop, exec_nop_eq, hrun]
  rfl

end Sys2Proof.Machine
end

section
/-! O9, O10 and O36: the modular multiplier and the exponentiation engine (41_modarith.md). First the two ends of a command
that writes R, or raises its error, in the words of the statements. -/

namespace Sys2Proof.Machine

/-! ### The ends of a command that writes R (40_control.md R145, R146) -/

/-- The success epilogue, where the start's RESULT 0 still stands. -/
theorem State.finish_completed {i : Instr} {s u : State} (hst : u.status = s.status.started i.opcode) :
    u.finish.Completed i s :=
  ⟨rfl, rfl, by rw [State.finish_status, hst]; rfl⟩

theorem Started.raise_failedWith {i : Instr} {s u : State} (h : Started i s u) (e : Err) :
    (u.raise i e).FailedWith i e s :=
  ⟨u.raise_run i e, u.raise_drawPending i e, by rw [State.raise_status, h.status]; rfl⟩

theorem Started.raise_wide {i : Instr} {s u : State} (h : Started i s u) (e : Err) : (u.raise i e).wide = s.wide :=
  (u.raise_wide i e).trans h.wide

/-- A started command that commits v to R: R holds v, untruncated, and no other wide register has moved. -/
theorem Started.commit_r {i : Instr} {s u : State} {v : Nat} (h : Started i s u) (hv : v < 2 ^ s.params.opw) :
    (u.setW .r v).finish.W .r = v ∧ (u.setW .r v).finish.Completed i s ∧
      ∀ k, k ≠ .r → (u.setW .r v).finish.wide.get k = s.wide.get k := by
  refine ⟨u.setW_W_same .r v (by rwa [h.params]), State.finish_completed (u := u.setW .r v) h.status, fun k hk => ?_⟩
  rw [State.finish_wide, State.setW_wide, WideFile.get_set_other _ _ hk, h.wide]

section
variable {i : Instr} {s : State} {res : Except Err Nat}
  (hexec : exec i s = (s.accept i).settle i res (fun v t => t.setW .r v)) (hc : i.isCipher = false)
include hexec hc

/-- A command that draws nothing and computes a value that fits ends with that value in R. -/
theorem exec_commits_r {v : Nat} (hres : res = .ok v) (hv : v < 2 ^ s.params.opw) :
    ∃ t, exec i s = .next t ∧ t.W .r = v ∧ t.Completed i s ∧ ∀ k, k ≠ .r → t.wide.get k = s.wide.get k :=
  ⟨_, by rw [hexec, hres, State.settle], (started_accept i s hc).commit_r hv⟩

/-- A command that draws nothing and finds an error ends with that error, its wide registers as they were. -/
theorem exec_raises {e : Err} (hres : res = .error e) :
    ∃ t, exec i s = .next t ∧ t.FailedWith i e s ∧ t.wide = s.wide :=
  have hstart := started_accept i s hc
  ⟨_, by rw [hexec, hres, State.settle], hstart.raise_failedWith e, hstart.raise_wide e⟩

end

/-! ### MODMUL and MODEXP (41_modarith.md R160 to R165) -/

theorem modmulResult_of_ne_zero {s : State} (hm : s.W .m ≠ 0) :
    modmulResult s = .ok (s.W .a * s.W .b % s.W .m) := if_neg hm

theorem modmulResult_of_zero {s : State} (hm : s.W .m = 0) : modmulResult s = .error .badOperand := if_pos hm

theorem modexpResult_of_ne_zero {s : State} (hm : s.W .m ≠ 0) :
    modexpResult s = .ok (s.W .a ^ s.W .x % s.W .m) := by
  rw [modexpResult, if_neg hm, modexp_eq _ _ _ hm]

theorem modexpResult_of_zero {s : State} (hm : s.W .m = 0) : modexpResult s = .error .badOperand := if_pos hm

/-- A residue modulo M fits the registers, since M does. -/
theorem State.wideFits.mod_lt {s : State} (hfits : s.wideFits) {k : WideName} (hk : s.W k ≠ 0) (v : Nat) :
    v % s.W k < 2 ^ s.params.opw :=
  (Nat.mod_lt v (Nat.pos_of_ne_zero hk)).trans (hfits k)

/-- Settles O9: the product is taken at full width, and its residue modulo M fits R. -/
theorem ModArith.modmulResult : Obligations.ModmulResult := by
  intro s hfits
  refine ⟨fun hm => ?_, fun hm => ?_⟩
  · exact exec_commits_r (exec_modmul_eq s) rfl (modmulResult_of_ne_zero hm) (hfits.mod_lt hm _)
  · exact exec_raises (exec_modmul_eq s) rfl (modmulResult_of_zero hm)

/-- Settles O10: the engine's loop computes the power's residue (`modexp_eq`), which fits R. -/
theorem ModArith.modexpResult : Obligations.ModexpResult := by
  intro s hfits
  refine ⟨fun hm => ?_, fun hm => ?_⟩
  · exact exec_commits_r (exec_modexp_eq s) rfl (modexpResult_of_ne_zero hm) (hfits.mod_lt hm _)
  · exact exec_raises (exec_modexp_eq s) rfl (modexpResult_of_zero hm)

/-! ### RSA (41_modarith.md R167) -/

/-- Exponentiations by e and then by d are one exponentiation by e·d. -/
theorem modexp_modexp (m e d n : Nat) (hn : n ≠ 0) : modexp (modexp m e n) d n = m ^ (e * d) % n := by
  rw [modexp_eq _ _ _ hn, modexp_eq _ _ _ hn, ← Nat.pow_mod, pow_mul]

/-- Fermat's little theorem for an exponent that is 1 modulo a multiple of p - 1, the multiples of p included. -/
theorem pow_modEq_self {p k x : Nat} (hp : p.Prime) (hk : p - 1 ∣ k) (hx : x % k = 1) (m : Nat) :
    m ^ x ≡ m [MOD p] := by
  have hpos : 1 ≤ x := hx ▸ Nat.mod_le x k
  have hdvd : p - 1 ∣ x - 1 := hk.trans (hx ▸ Nat.dvd_sub_mod x)
  have hfermat := Int.ModEq.pow_eq_pow hp hdvd hpos one_pos m
  rw [pow_one] at hfermat
  exact_mod_cast hfermat

/-- Settles O36: m^(e·d) is m modulo p and modulo q, hence modulo p·q, and m is below p·q. -/
theorem rsaCorrect : Obligations.RsaCorrect := by
  intro p q e d m hp hq hpq hed hm
  have hmodp : m ^ (e * d) ≡ m [MOD p] := pow_modEq_self hp (Nat.dvd_mul_right _ _) hed m
  have hmodq : m ^ (e * d) ≡ m [MOD q] := pow_modEq_self hq (Nat.dvd_mul_left _ _) hed m
  have hcop : p.Coprime q := (Nat.coprime_primes hp hq).2 hpq
  have hmod : m ^ (e * d) ≡ m [MOD p * q] := (Nat.modEq_and_modEq_iff_modEq_mul hcop).1 ⟨hmodp, hmodq⟩
  calc modexp (modexp m e (p * q)) d (p * q)
      = m ^ (e * d) % (p * q) := modexp_modexp m e d _ (Nat.mul_ne_zero hp.ne_zero hq.ne_zero)
    _ = m % (p * q) := hmod
    _ = m := Nat.mod_eq_of_lt hm

end Sys2Proof.Machine
end

section
/-! O11 and O12: the extended Euclidean unit (42_euclid.md). What its loop computes is `egcd_fst` and `modinv_spec`; here its
results are put in the statements' words, and shown to fit R. -/

namespace Sys2Proof.Machine

/-! ### GCD (42_euclid.md R180) -/

theorem gcdResult_eq (s : State) : gcdResult s = .ok (Nat.gcd (s.W .a) (s.W .b)) := by
  rw [gcdResult, egcd_fst]

/-- The divisor of two registers fits a third: it is at most the first, or the second where the first is 0. -/
theorem State.wideFits.gcd_lt {s : State} (hfits : s.wideFits) (j k : WideName) :
    Nat.gcd (s.W j) (s.W k) < 2 ^ s.params.opw := by
  rcases Nat.eq_zero_or_pos (s.W j) with hj | hj
  · rw [hj, Nat.gcd_zero_left]
    exact hfits k
  · exact (Nat.gcd_le_left _ hj).trans_lt (hfits j)

/-- Settles O11: the loop's first result is the greatest common divisor, which fits R. -/
theorem Euclid.gcdResult : Obligations.GcdResult :=
  fun s hfits => exec_commits_r (exec_gcd_eq s) rfl (gcdResult_eq s) (hfits.gcd_lt .a .b)

/-! ### MODINV (42_euclid.md R183, R185) -/

/-- R185 reduces A modulo M before its test; the unit does not, and finds the same divisor. -/
theorem gcd_mod_left (a m : Nat) : Nat.gcd (a % m) m = Nat.gcd a m := (Nat.mod_modEq a m).gcd_eq

theorem modinvResult_of_zero {s : State} (hm : s.W .m = 0) : modinvResult s = .error .badOperand := if_pos hm

theorem modinvResult_of_gcd_ne_one {s : State} (hm : s.W .m ≠ 0) (hg : Nat.gcd (s.W .a) (s.W .m) ≠ 1) :
    modinvResult s = .error .noInverse := by
  rw [modinvResult, if_neg hm, egcd_fst, if_pos hg]

theorem modinvResult_of_gcd_eq_one {s : State} (hm : s.W .m ≠ 0) (hg : Nat.gcd (s.W .a) (s.W .m) = 1) :
    modinvResult s = .ok (modinv (s.W .a) (s.W .m)) := by
  rw [modinvResult, if_neg hm, egcd_fst, if_neg (not_not_intro hg)]

/-- Settles O12: the checks in their order, and then the normalized coefficient of A, which is below M and so fits R. -/
theorem Euclid.modinvResult : Obligations.ModinvResult := by
  intro s hfits
  rw [gcd_mod_left]
  refine ⟨fun hm => ?badOperand, fun hm hg => ?noInverse, fun hm hg => ?inverse⟩
  case badOperand => exact exec_raises (exec_modinv_eq s) rfl (modinvResult_of_zero hm)
  case noInverse => exact exec_raises (exec_modinv_eq s) rfl (modinvResult_of_gcd_ne_one hm hg)
  case inverse =>
    obtain ⟨hlt, hinv⟩ := modinv_spec (s.W .a) (s.W .m) hm hg
    obtain ⟨t, hexec, hR, hcompleted, hframe⟩ :=
      exec_commits_r (exec_modinv_eq s) rfl (modinvResult_of_gcd_eq_one hm hg) (hlt.trans (hfits .m))
    rw [← hR] at hlt hinv
    exact ⟨t, hexec, hlt, hinv, hcompleted, hframe⟩

end Sys2Proof.Machine
end

section
/-! O13: what one round of the Miller-Rabin test accepts; and that it accepts every base of a prime, which O14 needs
(43_prime.md R202, R206). -/

namespace Sys2Proof.Machine

/-! ### The decomposition n − 1 = 2^r·s -/

/-- The loop keeps 2^r·s, and a fuel of s turns is enough to make s odd. -/
theorem splitTwos_spec (fuel r s : Nat) (hs : s ≠ 0) (hf : s ≤ fuel) :
    2 ^ (splitTwos fuel r s).1 * (splitTwos fuel r s).2 = 2 ^ r * s ∧ (splitTwos fuel r s).2 % 2 = 1 := by
  induction fuel generalizing r s with
  | zero => omega
  | succ fuel ih =>
    rw [splitTwos]
    split
    next heven =>
      obtain ⟨hprod, hodd⟩ := ih (r + 1) (s / 2) (by omega) (by omega)
      refine ⟨hprod.trans ?_, hodd⟩
      rw [pow_succ, mul_assoc, Nat.mul_div_cancel' (Nat.dvd_of_mod_eq_zero heven)]
    next hodd => exact ⟨rfl, Nat.mod_two_ne_zero.1 hodd⟩

theorem decompose_spec {n : Nat} (h : 2 ≤ n) :
    n - 1 = 2 ^ (decompose n).1 * (decompose n).2 ∧ (decompose n).2 % 2 = 1 := by
  obtain ⟨hprod, hodd⟩ := splitTwos_spec (n - 1) 0 (n - 1) (by omega) le_rfl
  exact ⟨by rw [decompose, hprod, pow_zero, one_mul], hodd⟩

/-- n − 1 is even, so that the odd s is not all of it. -/
theorem one_le_decompose_fst {n : Nat} (h : 2 ≤ n) (hn : n % 2 = 1) : 1 ≤ (decompose n).1 := by
  obtain ⟨hprod, hodd⟩ := decompose_spec h
  refine Nat.one_le_iff_ne_zero.2 fun h0 => ?_
  rw [h0, pow_zero, one_mul] at hprod
  omega

/-! ### One round (R202) -/

/-- The i-th squaring is the power with exponent 2^(i+1). -/
theorem squaresReach_iff (n j x : Nat) :
    squaresReach n j x = true ↔ ∃ i < j, x ^ 2 ^ (i + 1) % n = n - 1 := by
  induction j generalizing x with
  | zero => simp [squaresReach]
  | succ j ih =>
    have hsq : ∀ i, mulmod x x n ^ 2 ^ (i + 1) % n = x ^ 2 ^ (i + 1 + 1) % n := fun i => by
      rw [mulmod, ← Nat.pow_mod, ← pow_two, ← pow_mul, ← pow_succ']
    have hfirst : mulmod x x n = x ^ 2 ^ (0 + 1) % n := by rw [mulmod, zero_add, pow_one, pow_two]
    simp only [squaresReach, Bool.if_true_left, Bool.or_eq_true, decide_eq_true_eq, ih, hsq,
      Nat.exists_lt_succ_left]
    rw [hfirst]

theorem roundPasses_iff {n r : Nat} (s a : Nat) (hn : n ≠ 0) (hr : 1 ≤ r) :
    roundPasses n r s a = true ↔ a ^ s % n = 1 ∨ ∃ j < r, a ^ (2 ^ j * s) % n = n - 1 := by
  obtain ⟨r, rfl⟩ := Nat.exists_eq_add_of_le' hr
  have hpow : ∀ i, (a ^ s % n) ^ 2 ^ (i + 1) % n = a ^ (2 ^ (i + 1) * s) % n := fun i => by
    rw [← Nat.pow_mod, ← pow_mul, mul_comm s]
  simp only [roundPasses, modexp_eq _ _ _ hn, Bool.if_true_left, Bool.or_eq_true, decide_eq_true_eq,
    squaresReach_iff, hpow, Nat.exists_lt_succ_left, Nat.add_sub_cancel, pow_zero, one_mul, or_assoc]

/-- Settles O13: the loop's invariant gives the decomposition, and the squarings are powers of the base. -/
theorem millerRabinRound : Obligations.MillerRabinRound := by
  intro n a h5 hn
  have h2 : 2 ≤ n := by omega
  obtain ⟨hprod, hodd⟩ := decompose_spec h2
  have hr := one_le_decompose_fst h2 hn
  exact ⟨hprod, hodd, hr, roundPasses_iff _ a (by omega) hr⟩

/-! ### A prime passes every round (R206) -/

/-- Without zero divisors 1 and −1 are the only square roots of 1, so repeated squaring comes to 1 through −1 or starts
at 1. -/
theorem eq_one_or_pow_two_pow_eq_neg_one {R : Type*} [Ring R] [NoZeroDivisors R] {x : R} {r : Nat}
    (h : x ^ 2 ^ r = 1) : x = 1 ∨ ∃ j < r, x ^ 2 ^ j = -1 := by
  induction r with
  | zero => exact .inl (by rwa [pow_zero, pow_one] at h)
  | succ r ih =>
    rw [pow_succ, pow_mul, sq_eq_one_iff] at h
    rcases h with h | h
    · exact (ih h).imp_right fun ⟨j, hj, hneg⟩ => ⟨j, by omega, hneg⟩
    · exact .inr ⟨r, r.lt_succ_self, h⟩

theorem roundPasses_of_prime {n a : Nat} (hp : n.Prime) (hn : n % 2 = 1) (ha : ¬ n ∣ a) :
    roundPasses n (decompose n).1 (decompose n).2 a = true := by
  have h2 := hp.two_le
  obtain ⟨hprod, -⟩ := decompose_spec h2
  have : Fact n.Prime := ⟨hp⟩
  have hfermat : ((a : ZMod n) ^ (decompose n).2) ^ 2 ^ (decompose n).1 = 1 := by
    rw [← pow_mul, mul_comm, ← hprod]
    exact ZMod.pow_card_sub_one_eq_one (mt (ZMod.natCast_eq_zero_iff a n).1 ha)
  rw [roundPasses_iff _ a hp.ne_zero (one_le_decompose_fst h2 hn)]
  refine (eq_one_or_pow_two_pow_eq_neg_one hfermat).imp (fun h => ?_) (fun ⟨j, hj, h⟩ => ⟨j, hj, ?_⟩)
  · have hcast : ((a ^ (decompose n).2 : Nat) : ZMod n) = (1 : Nat) := by exact_mod_cast h
    rwa [ZMod.natCast_eq_natCast_iff', Nat.mod_eq_of_lt hp.one_lt] at hcast
  · have hcast : ((a ^ (2 ^ j * (decompose n).2) : Nat) : ZMod n) = (n - 1 : Nat) := by
      rw [Nat.cast_pred hp.pos, ZMod.natCast_self, zero_sub, ← h, mul_comm, pow_mul, Nat.cast_pow, Nat.cast_pow]
    rwa [ZMod.natCast_eq_natCast_iff', Nat.mod_eq_of_lt (Nat.sub_lt hp.pos one_pos)] at hcast

/-! ### The verdict, case by case (R202, R204) -/

theorem mr_of_lt_two {n : Nat} (k : Nat) (ans : List Nat) (h : n < 2) : mr n k ans = .ok false ans := if_pos h

theorem mr_of_two_or_three {n : Nat} (k : Nat) (ans : List Nat) (h : n = 2 ∨ n = 3) : mr n k ans = .ok true ans := by
  rw [mr, if_neg (by omega), if_pos h]

theorem mr_of_even {n : Nat} (k : Nat) (ans : List Nat) (h4 : 4 ≤ n) (h : n % 2 = 0) :
    mr n k ans = .ok false ans := by
  rw [mr, if_neg (by omega), if_neg (by omega), if_pos h]

theorem mr_of_odd {n : Nat} (k : Nat) (ans : List Nat) (h5 : 5 ≤ n) (h : n % 2 = 1) :
    mr n k ans = mrRounds n (decompose n).1 (decompose n).2 k ans := by
  rw [mr, if_neg (by omega), if_neg (by omega), if_neg (by omega)]

theorem mrRounds_succ_cons (n r s k v : Nat) (ans : List Nat) :
    mrRounds n r s (k + 1) (v :: ans) =
      if roundPasses n r s ((DrawReq.range 2 (n - 2)).intoRange v) then mrRounds n r s k ans else .ok false ans :=
  rfl

/-- Rounds that every base of the range passes do not find n composite. -/
theorem mrRounds_ne_composite {n r s : Nat} (h4 : 4 ≤ n)
    (hpass : ∀ a, 2 ≤ a → a ≤ n - 2 → roundPasses n r s a = true) (k : Nat) (ans rest : List Nat) :
    mrRounds n r s k ans ≠ .ok false rest := by
  induction k generalizing ans with
  | zero => simp [mrRounds]
  | succ k ih =>
    cases ans with
    | nil => simp [mrRounds]
    | cons v ans =>
      obtain ⟨hlo, hhi⟩ := DrawReq.intoRange_range_mem (lo := 2) (hi := n - 2) v (by omega)
      rw [mrRounds_succ_cons, if_pos (hpass _ hlo hhi)]
      exact ih ans

theorem mr_ne_composite_of_prime {n : Nat} (hp : n.Prime) (k : Nat) (ans rest : List Nat) :
    mr n k ans ≠ .ok false rest := by
  have h2 := hp.two_le
  by_cases hsmall : n = 2 ∨ n = 3
  · simp [mr_of_two_or_three k ans hsmall]
  · have hn : n % 2 = 1 := hp.eq_two_or_odd.resolve_left fun h => hsmall (.inl h)
    rw [mr_of_odd k ans (by omega) hn]
    refine mrRounds_ne_composite (by omega) (fun a hlo hhi => ?_) k ans rest
    exact roundPasses_of_prime hp hn (Nat.not_dvd_of_pos_of_lt (by omega) (by omega))

end Sys2Proof.Machine
end

section
/-! O14, O15 and O16: how many answers the Miller-Rabin test takes, and MRTEST (43_prime.md R200 to R206). -/

namespace Sys2Proof.Machine

/-! ### How many answers a computation takes -/

/-- d, computed on the answers ans, takes the first at most n of them if it ends, and waits only where there are fewer
than n. -/
def Drawn.TakesAtMost {α : Type} (d : Drawn α) (n : Nat) (ans : List Nat) : Prop :=
  match d with
  | .ok _ rest | .err _ rest => ∃ j ≤ n, j ≤ ans.length ∧ rest = ans.drop j
  | .waits _ => ans.length < n

section
variable {α β : Type} {d : Drawn α} {n : Nat} {ans : List Nat}

theorem Drawn.takesAtMost_ok_self (a : α) (n : Nat) (ans : List Nat) : (Drawn.ok a ans).TakesAtMost n ans :=
  ⟨0, n.zero_le, ans.length.zero_le, rfl⟩

theorem Drawn.takesAtMost_err_self (e : Err) (n : Nat) (ans : List Nat) :
    (Drawn.err (α := α) e ans).TakesAtMost n ans :=
  ⟨0, n.zero_le, ans.length.zero_le, rfl⟩

theorem draw_takesAtMost (req : DrawReq) (ans : List Nat) : (draw req ans).TakesAtMost 1 ans := by
  cases ans with
  | nil => exact Nat.one_pos
  | cons v rest => exact ⟨1, le_rfl, by simp, rfl⟩

theorem Drawn.TakesAtMost.mono {m : Nat} (h : d.TakesAtMost m ans) (hmn : m ≤ n) : d.TakesAtMost n ans := by
  cases d with
  | ok a rest => exact h.imp fun j ⟨hj, hrest⟩ => ⟨hj.trans hmn, hrest⟩
  | err e rest => exact h.imp fun j ⟨hj, hrest⟩ => ⟨hj.trans hmn, hrest⟩
  | waits req => exact h.trans_le hmn

/-- What takes at most n of the answers left after at most m takes at most m + n in all. -/
theorem Drawn.TakesAtMost.of_drop {m j : Nat} (hj : j ≤ m) (hlen : j ≤ ans.length)
    (h : d.TakesAtMost n (ans.drop j)) : d.TakesAtMost (m + n) ans := by
  cases d with
  | ok a rest =>
    obtain ⟨i, hi, hilen, rfl⟩ := h
    rw [List.length_drop] at hilen
    exact ⟨j + i, by omega, by omega, List.drop_drop⟩
  | err e rest =>
    obtain ⟨i, hi, hilen, rfl⟩ := h
    rw [List.length_drop] at hilen
    exact ⟨j + i, by omega, by omega, List.drop_drop⟩
  | waits req =>
    have hshort : (ans.drop j).length < n := h
    rw [List.length_drop] at hshort
    show ans.length < m + n
    omega

/-- The bounds of a sequence's parts add up. -/
theorem Drawn.TakesAtMost.andThen {m : Nat} {k : α → List Nat → Drawn β} (hd : d.TakesAtMost m ans)
    (hk : ∀ a rest, (k a rest).TakesAtMost n rest) : (d.andThen k).TakesAtMost (m + n) ans := by
  cases d with
  | ok a rest =>
    obtain ⟨j, hj, hlen, rfl⟩ := hd
    exact (hk a _).of_drop hj hlen
  | err e rest =>
    have herr : (Drawn.err (α := β) e rest).TakesAtMost m ans := hd
    exact herr.mono (m.le_add_right n)
  | waits req =>
    have hwaits : (Drawn.waits (α := β) req).TakesAtMost m ans := hd
    exact hwaits.mono (m.le_add_right n)

theorem Drawn.TakesAtMost.of_ok {a : α} {rest : List Nat} (h : d.TakesAtMost n ans) (hd : d = .ok a rest) :
    ∃ j ≤ n, j ≤ ans.length ∧ rest = ans.drop j := by
  subst hd
  exact h

theorem Drawn.TakesAtMost.of_err {e : Err} {rest : List Nat} (h : d.TakesAtMost n ans) (hd : d = .err e rest) :
    ∃ j ≤ n, j ≤ ans.length ∧ rest = ans.drop j := by
  subst hd
  exact h

theorem Drawn.TakesAtMost.ne_waits (h : d.TakesAtMost n ans) (hlen : n ≤ ans.length) (req : DrawReq) :
    d ≠ .waits req := by
  rintro rfl
  exact absurd hlen (Nat.not_le.2 h)

end

/-! ### The Miller-Rabin test's draws (R204, R205) -/

theorem mrRounds_takesAtMost (n r s k : Nat) (ans : List Nat) : (mrRounds n r s k ans).TakesAtMost k ans := by
  induction k generalizing ans with
  | zero => exact Drawn.takesAtMost_ok_self true 0 ans
  | succ k ih =>
    refine ((draw_takesAtMost _ ans).andThen (n := k) fun a rest => ?_).mono (Nat.add_comm 1 k).le
    split
    · exact ih rest
    · exact Drawn.takesAtMost_ok_self false k rest

theorem mr_takesAtMost (n k : Nat) (ans : List Nat) : (mr n k ans).TakesAtMost k ans := by
  unfold mr
  split_ifs
  · exact Drawn.takesAtMost_ok_self false k ans
  · exact Drawn.takesAtMost_ok_self true k ans
  · exact Drawn.takesAtMost_ok_self false k ans
  · exact mrRounds_takesAtMost n _ _ k ans

/-- With an answer for each round the test ends with a verdict. -/
theorem mr_ends (n : Nat) {k : Nat} {ans : List Nat} (h : k ≤ ans.length) : ∃ v rest, mr n k ans = .ok v rest := by
  have hwaits := (mr_takesAtMost n k ans).ne_waits h
  cases hmr : mr n k ans with
  | ok v rest => exact ⟨v, rest, rfl⟩
  | err e rest => exact absurd hmr (mr_ne_err n k ans rest e)
  | waits req => exact absurd hmr (hwaits req)

/-- Settles O14: with enough answers the test ends, and a prime passes every round. -/
theorem primeAlwaysPasses : Obligations.PrimeAlwaysPasses := by
  intro n k ans hp hk
  obtain ⟨v, rest, h⟩ := mr_ends n hk
  cases v with
  | true => exact ⟨rest, h⟩
  | false => exact absurd h (mr_ne_composite_of_prime hp k ans rest)

/-- Rounds that end have each taken one answer: at least the first round was made, and for PRIME all of them. -/
theorem mrRounds_draws {n r s k : Nat} {ans rest : List Nat} {v : Bool} (h : mrRounds n r s k ans = .ok v rest) :
    ∃ j ≤ k, j ≤ ans.length ∧ rest = ans.drop j ∧ (1 ≤ k → 1 ≤ j) ∧ (v = true → j = k) := by
  induction k generalizing ans with
  | zero =>
    cases h
    exact ⟨0, le_rfl, Nat.zero_le _, rfl, id, fun _ => rfl⟩
  | succ k ih =>
    cases ans with
    | nil => cases h
    | cons a ans =>
      rw [mrRounds_succ_cons] at h
      split at h
      · obtain ⟨j, hj, hlen, hrest, -, hprime⟩ := ih h
        exact ⟨j + 1, by omega, by simpa using hlen, hrest, fun _ => by omega, fun hv => by rw [hprime hv]⟩
      · cases h
        exact ⟨1, by omega, by simp, rfl, fun _ => le_rfl, nofun⟩

/-- Settles O15: the cases without a draw, and one answer for each round that was made. -/
theorem millerRabinDraws : Obligations.MillerRabinDraws := by
  refine ⟨fun n k ans => ⟨mr_of_lt_two k ans, mr_of_two_or_three k ans, mr_of_even k ans⟩,
    fun n k ans v rest h5 hn hk h => ?_⟩
  rw [mr_of_odd k ans h5 hn] at h
  obtain ⟨j, hj, hlen, hrest, hfirst, hprime⟩ := mrRounds_draws h
  exact ⟨j, hfirst hk, hj, hlen, hrest, hprime⟩

/-! ### The ends of a command that draws (40_control.md R145, R146) -/

/-- A command that draws and finds an error ends with that error and the answers left, its wide registers as they were. -/
theorem exec_raises_drawn {α : Type} {i : Instr} {s : State} {res : Drawn α} {commit : α → State → State} {e : Err}
    {rest : List Nat} (hexec : exec i s = (s.accept i).settleDrawn i res commit) (hc : i.isCipher = false)
    (hd : i.draws = true) (hres : res = .err e rest) :
    ∃ t, exec i s = .next t ∧ t.FailedWith i e s ∧ t.wide = s.wide ∧ t.entropy = rest :=
  have hstart := (started_accept i s hc).withEntropy rest hd
  ⟨_, by rw [hexec, hres, State.settleDrawn], hstart.raise_failedWith e, hstart.raise_wide e, State.raise_entropy ..⟩

/-! ### MRTEST (43_prime.md R200, R201, R203) -/

theorem State.mrRounds_toNat_ne_zero {s : State} (hk : s.mrRounds ≠ 0) : s.mrRounds.toNat ≠ 0 :=
  fun h => hk (BitVec.eq_of_toNat_eq h)

theorem mrtestResult_of_zero {s : State} (hk : s.mrRounds = 0) : mrtestResult s = .err .badOperand s.stream := if_pos hk

/-- The verdict fits R, and its commit is that of a value to R but for RESULT. -/
theorem Started.commitVerdict {s u : State} (h : Started .mrtest s u) (hl : s.params.legal = true) (v : Bool) :
    (commitVerdict v u).finish.W .r = (if v then 1 else 0) ∧
      (commitVerdict v u).finish.status =
        { done := true, err := false, result := v, ovr := s.status.ovr, errcode := 0, lastop := 0x30 } ∧
      ∀ k, k ≠ .r → (commitVerdict v u).finish.wide.get k = s.wide.get k := by
  have hopw : s.params.opw ≠ 0 := by
    have := (Params.opw_le hl).1
    omega
  have hfits : (if v then 1 else 0) < 2 ^ s.params.opw := by
    have := Nat.one_lt_two_pow hopw
    split <;> omega
  obtain ⟨hR, -, hframe⟩ := h.commit_r hfits
  refine ⟨hR, ?_, hframe⟩
  rw [State.finish_status, Machine.commitVerdict, State.setW_status, h.status]
  rfl

/-- Settles O16: the check before any draw, and the verdict of the test wherever it ends. -/
theorem Prime.mrtestResult : Obligations.MrtestResult := by
  intro s hl
  refine ⟨fun hk => exec_raises_drawn (exec_mrtest_eq s) rfl rfl (mrtestResult_of_zero hk),
    fun hk => ⟨fun v rest hmr => ?verdict, mr_ends _⟩⟩
  case verdict =>
    have hres := (mrtestResult_of_legal (State.mrRounds_toNat_ne_zero hk)).trans hmr
    have hstart := (started_accept .mrtest s rfl).withEntropy rest rfl
    obtain ⟨hR, hstatus, hframe⟩ := hstart.commitVerdict hl v
    exact ⟨_, by rw [exec_mrtest_eq, hres, State.settleDrawn], hR, rfl, rfl, rfl, hstatus, hframe⟩

end Sys2Proof.Machine
end

section
/-! O17 and O18: the sampler and GENPRIME (43_prime.md R210 to R213). The sampler's loop is put in the words of `primeFound`
and `candidatesFail` once, by its turn; what the command does then follows from its result. -/

namespace Sys2Proof.Machine

/-! ### Candidates (R212) -/

theorem forcedCandidate_odd (bits v : Nat) : forcedCandidate bits v % 2 = 1 := by
  rw [forcedCandidate, Nat.mod_two_eq_one_iff_testBit_zero, Nat.testBit_or]
  simp

theorem forcedCandidate_lt {bits : Nat} (v : Nat) (hb : 1 ≤ bits) : forcedCandidate bits v < 2 ^ bits :=
  Nat.or_lt_two_pow (Nat.or_lt_two_pow (Nat.mod_lt v (Nat.two_pow_pos bits)) (Nat.pow_lt_pow_right (by omega) (by omega)))
    (Nat.one_lt_two_pow (by omega))

theorem two_pow_le_forcedCandidate (bits v : Nat) : 2 ^ (bits - 1) ≤ forcedCandidate bits v :=
  Nat.right_le_or.trans Nat.left_le_or

theorem bitlen_forcedCandidate {bits : Nat} (v : Nat) (hb : 1 ≤ bits) : bitlen (forcedCandidate bits v) = bits :=
  (bitlen_eq_iff _ bits hb).2 ⟨two_pow_le_forcedCandidate bits v, forcedCandidate_lt v hb⟩

/-! ### One turn of the sampler (R211) -/

section
variable {bits k limit p v : Nat} {ans tail mid rest : List Nat}

theorem genprime_succ_cons (bits k limit v : Nat) (tail : List Nat) :
    genprime bits k (limit + 1) (v :: tail) =
      (mr (forcedCandidate bits v) k tail).andThen fun prime rest =>
        if prime then .ok (forcedCandidate bits v) rest else genprime bits k limit rest := rfl

theorem genprime_of_candidate_passes (h : mr (forcedCandidate bits v) k tail = .ok true rest) :
    genprime bits k (limit + 1) (v :: tail) = .ok (forcedCandidate bits v) rest := by
  rw [genprime_succ_cons, h, Drawn.andThen_ok, if_pos rfl]

theorem genprime_of_candidate_fails (h : mr (forcedCandidate bits v) k tail = .ok false mid) :
    genprime bits k (limit + 1) (v :: tail) = genprime bits k limit mid := by
  rw [genprime_succ_cons, h, Drawn.andThen_ok, if_neg Bool.false_ne_true]

/-- A turn of the sampler that does not wait has drawn a candidate with a verdict. -/
theorem genprime_succ_cases {d : Drawn Nat} (h : genprime bits k (limit + 1) ans = d) (hd : ∀ req, d ≠ .waits req) :
    ∃ v tail, ans = v :: tail ∧ ∃ prime mid, mr (forcedCandidate bits v) k tail = .ok prime mid := by
  cases ans with
  | nil => exact absurd h.symm (hd _)
  | cons v tail =>
    refine ⟨v, tail, rfl, ?_⟩
    rw [genprime_succ_cons] at h
    cases hmr : mr (forcedCandidate bits v) k tail with
    | ok prime mid => exact ⟨prime, mid, rfl⟩
    | err e mid => exact absurd hmr (mr_ne_err _ k tail mid e)
    | waits req => exact absurd (by rw [← h, hmr, Drawn.andThen_waits]) (hd req)

theorem primeFound_of_candidate_passes (h : mr (forcedCandidate bits v) k tail = .ok true rest) :
    primeFound bits k (limit + 1) (v :: tail) (forcedCandidate bits v) rest :=
  ⟨0, limit.succ_pos, v, tail, rfl, rfl, h⟩

theorem primeFound_of_candidate_fails (h : mr (forcedCandidate bits v) k tail = .ok false mid)
    (hmid : primeFound bits k limit mid p rest) : primeFound bits k (limit + 1) (v :: tail) p rest := by
  obtain ⟨n, hn, w, more, hfail, hp⟩ := hmid
  exact ⟨n + 1, by omega, w, more, ⟨v, tail, mid, rfl, h, hfail⟩, hp⟩

/-! ### The sampler's results -/

/-- Candidates that fail are passed over. -/
theorem genprime_of_candidatesFail {n : Nat} (h : candidatesFail bits k n ans mid) :
    genprime bits k (n + limit) ans = genprime bits k limit mid := by
  induction n generalizing ans with
  | zero =>
    cases h
    rw [Nat.zero_add]
  | succ n ih =>
    obtain ⟨v, tail, next, rfl, hmr, hfail⟩ := h
    rw [Nat.succ_add, genprime_of_candidate_fails hmr, ih hfail]

theorem genprime_eq_ok_iff : genprime bits k limit ans = .ok p rest ↔ primeFound bits k limit ans p rest := by
  constructor
  · intro h
    induction limit generalizing ans with
    | zero => cases h
    | succ limit ih =>
      obtain ⟨v, tail, rfl, prime, mid, hmr⟩ := genprime_succ_cases h nofun
      cases prime with
      | true =>
        rw [genprime_of_candidate_passes hmr] at h
        cases h
        exact primeFound_of_candidate_passes hmr
      | false => exact primeFound_of_candidate_fails hmr (ih (genprime_of_candidate_fails hmr ▸ h))
  · rintro ⟨n, hn, v, tail, hfail, rfl, hmr⟩
    obtain ⟨m, rfl⟩ := Nat.exists_eq_add_of_lt hn
    rw [Nat.add_assoc, genprime_of_candidatesFail hfail, genprime_of_candidate_passes hmr]

theorem genprime_eq_err_iff {e : Err} :
    genprime bits k limit ans = .err e rest ↔ e = .iterationLimit ∧ candidatesFail bits k limit ans rest := by
  constructor
  · intro h
    refine ⟨genprime_err bits k limit ans h, ?_⟩
    induction limit generalizing ans with
    | zero =>
      cases h
      rfl
    | succ limit ih =>
      obtain ⟨v, tail, rfl, prime, mid, hmr⟩ := genprime_succ_cases h nofun
      cases prime with
      | true =>
        rw [genprime_of_candidate_passes hmr] at h
        cases h
      | false => exact ⟨v, tail, mid, rfl, hmr, ih (genprime_of_candidate_fails hmr ▸ h)⟩
  · rintro ⟨rfl, hfail⟩
    exact genprime_of_candidatesFail (limit := 0) hfail

theorem candidatesFail.genprime_eq (h : candidatesFail bits k limit ans rest) :
    genprime bits k limit ans = .err .iterationLimit rest :=
  genprime_eq_err_iff.2 ⟨rfl, h⟩

/-- What the sampler finds is a candidate that passed the test. -/
theorem primeFound.exists_candidate (h : primeFound bits k limit ans p rest) :
    ∃ v tail, p = forcedCandidate bits v ∧ mr p k tail = .ok true rest := by
  obtain ⟨-, -, v, tail, -, hp, hmr⟩ := h
  exact ⟨v, tail, hp, hmr⟩

end

/-! ### GENPRIME (R210) -/

/-- Settles O17: the sampler finds the first candidate that passes, a number of exactly PRIME_BITS bits, which fits R. -/
theorem Prime.genprimeResult : Obligations.GenprimeResult := by
  intro s p rest h2 hw hk
  refine ⟨genprime_eq_ok_iff, fun hfound => ?_⟩
  have hres := (genprimeResult_of_legal h2 hw (State.mrRounds_toNat_ne_zero hk)).trans (genprime_eq_ok_iff.2 hfound)
  obtain ⟨v, tail, hp, hmr⟩ := hfound.exists_candidate
  have hodd : p % 2 = 1 := hp ▸ forcedCandidate_odd _ v
  have hlen : bitlen p = s.primeBits.toNat := hp ▸ bitlen_forcedCandidate v (by omega)
  have hlt : p < 2 ^ s.primeBits.toNat := hp ▸ forcedCandidate_lt v (by omega)
  have hstart := (started_accept .genprime s rfl).withEntropy rest rfl
  obtain ⟨hR, hcompleted, hframe⟩ := hstart.commit_r (hlt.trans_le (Nat.pow_le_pow_right (by omega) hw))
  exact ⟨_, by rw [exec_genprime_eq, hres, State.settleDrawn], hR, hodd, hlen, ⟨tail, hmr⟩, rfl, hcompleted, hframe⟩

theorem genprimeResult_of_bits {s : State} (h : s.primeBits.toNat < 2 ∨ s.params.opw < s.primeBits.toNat) :
    genprimeResult s = .err .badOperand s.stream := if_pos h

theorem genprimeResult_of_zero {s : State} (h2 : 2 ≤ s.primeBits.toNat) (hw : s.primeBits.toNat ≤ s.params.opw)
    (hk : s.mrRounds = 0) : genprimeResult s = .err .badOperand s.stream := by
  rw [genprimeResult, if_neg (by omega), if_pos hk]

/-- GENPRIME's checks know E_BAD_OPERAND only; every other error is the sampler's. -/
theorem genprimeResult_eq_err {s : State} {e : Err} {rest : List Nat} (h : genprimeResult s = .err e rest) :
    e = .badOperand ∨ genprime s.primeBits.toNat s.mrRounds.toNat s.iterLimit.toNat s.stream = .err e rest := by
  unfold genprimeResult at h
  dsimp only at h
  split_ifs at h
  · cases h
    exact .inl rfl
  · cases h
    exact .inl rfl
  · exact .inr h

theorem Err.code_injective : Function.Injective Err.code := by
  intro e e' h
  cases e <;> cases e' <;> simp [Err.code] at h ⊢

/-- A drawing command that reports an error has that error as its result, with the answers left. -/
theorem exec_drawn_errcode {α : Type} {i : Instr} {s t : State} {res : Drawn α} {commit : α → State → State} {e : Err}
    (hexec : exec i s = (s.accept i).settleDrawn i res commit) (h : exec i s = .next t)
    (he : t.status.errcode = e.code) : res = .err e t.entropy := by
  rcases State.settleDrawn_cases (hexec ▸ h) with ⟨e', rest, hres, rfl⟩ | ⟨a, rest, hres, rfl⟩ | ⟨req, hres, rfl⟩
  · obtain rfl : e' = e := Err.code_injective (by simpa using he)
    simpa using hres
  · exact absurd he.symm (by simpa using e.code_ne_zero)
  · exact absurd he.symm (by simpa using e.code_ne_zero)

/-- Settles O18: the two checks, and the sampler's one error, which is that all its candidates fail. -/
theorem genprimeErrors : Obligations.GenprimeErrors := by
  intro s
  have raises {e : Err} {rest : List Nat} (hres : genprimeResult s = .err e rest) :
      ∃ t, exec .genprime s = .next t ∧ t.FailedWith .genprime e s ∧ t.wide = s.wide ∧ t.entropy = rest :=
    exec_raises_drawn (exec_genprime_eq s) rfl rfl hres
  refine ⟨fun hbits => ?_, fun h2 hw hk => ?_, fun h2 hw hk => ?_, fun t h he => ?_⟩
  · obtain ⟨t, hexec, hfailed, hwide, -⟩ := raises (genprimeResult_of_bits hbits)
    exact ⟨t, hexec, hfailed, hwide⟩
  · obtain ⟨t, hexec, hfailed, hwide, -⟩ := raises (genprimeResult_of_zero h2 hw hk)
    exact ⟨t, hexec, hfailed, hwide⟩
  · have hlegal := genprimeResult_of_legal h2 hw (State.mrRounds_toNat_ne_zero hk)
    refine ⟨fun rest hfail => raises (hlegal.trans hfail.genprime_eq), fun hlim => raises (hlegal.trans ?_)⟩
    rw [hlim]
    rfl
  · rcases genprimeResult_eq_err (exec_drawn_errcode (exec_genprime_eq s) h he) with he | he
    · cases he
    · exact (genprime_eq_err_iff.1 he).2

end Sys2Proof.Machine
end

section
/-! O19 and O23: how many answers GENPRIME and KEYGEN take, and KEYGEN's errors (43_prime.md R214; 44_keygen.md R230 to R236).
The first q and its re-draws are one loop here, since a re-draw is the sampler again. -/

namespace Sys2Proof.Machine

/-! ### The draws of q (44_keygen.md R232) -/

/-- q, drawn after p, and drawn again at most retry times while it is p. -/
def drawQ (bits k limit retry p : Nat) (ans : List Nat) : Drawn Nat :=
  (genprime bits k limit ans).andThen (redrawQ bits k limit p retry)

theorem Drawn.andThen_assoc {α β γ : Type} (d : Drawn α) (f : α → List Nat → Drawn β) (g : β → List Nat → Drawn γ) :
    (d.andThen f).andThen g = d.andThen fun a rest => (f a rest).andThen g := by
  cases d <;> rfl

/-- KEYGEN draws p, then q, then e. -/
theorem keygen_eq (bits k limit retry : Nat) (ans : List Nat) :
    keygen bits k limit retry ans =
      (genprime bits k limit ans).andThen fun p rest =>
        (drawQ bits k limit retry p rest).andThen fun q rest =>
          (chooseE ((p - 1) * (q - 1)) retry rest).andThen fun e rest => .ok (Key.of p q e) rest := by
  simp only [keygen, drawQ, Drawn.andThen_assoc]

theorem redrawQ_of_ne (bits k limit retry : Nat) {p q : Nat} (ans : List Nat) (h : q ≠ p) :
    redrawQ bits k limit p retry q ans = .ok q ans := by
  cases retry <;> exact if_neg h

theorem redrawQ_zero_self (bits k limit p : Nat) (ans : List Nat) :
    redrawQ bits k limit p 0 p ans = .err .degenerateKey ans := if_pos rfl

theorem redrawQ_succ_self (bits k limit retry p : Nat) (ans : List Nat) :
    redrawQ bits k limit p (retry + 1) p ans = drawQ bits k limit retry p ans := if_pos rfl

section
variable {bits k limit retry p q : Nat} {ans mid rest : List Nat}

theorem primeFound.drawQ_eq (h : primeFound bits k limit ans q rest) :
    drawQ bits k limit retry p ans = redrawQ bits k limit p retry q rest := by
  rw [drawQ, genprime_eq_ok_iff.2 h, Drawn.andThen_ok]

theorem candidatesFail.drawQ_eq (h : candidatesFail bits k limit ans rest) :
    drawQ bits k limit retry p ans = .err .iterationLimit rest := by
  rw [drawQ, h.genprime_eq, Drawn.andThen_err]

/-- Each draw that gives p costs one of the re-draws. -/
theorem primeRepeats.drawQ_eq {n : Nat} (h : primeRepeats bits k limit p n ans mid) :
    drawQ bits k limit (n + retry) p ans = drawQ bits k limit retry p mid := by
  induction n generalizing ans with
  | zero =>
    cases h
    rw [Nat.zero_add]
  | succ n ih =>
    obtain ⟨next, hfound, hrepeats⟩ := h
    rw [Nat.succ_add, hfound.drawQ_eq, redrawQ_succ_self, ih hrepeats]

/-- The draw and all its re-draws give p. -/
theorem primeRepeats.drawQ_degenerate (h : primeRepeats bits k limit p (retry + 1) ans rest) :
    drawQ bits k limit retry p ans = .err .degenerateKey rest := by
  induction retry generalizing ans with
  | zero =>
    obtain ⟨mid, hfound, rfl⟩ := h
    rw [hfound.drawQ_eq, redrawQ_zero_self]
  | succ retry ih =>
    obtain ⟨mid, hfound, hrepeats⟩ := h
    rw [hfound.drawQ_eq, redrawQ_succ_self, ih hrepeats]

/-! ### KEYGEN's result by its draws (44_keygen.md R230, R233) -/

theorem keygen_of_primeFound (h : primeFound bits k limit ans p mid) :
    keygen bits k limit retry ans =
      (drawQ bits k limit retry p mid).andThen fun q rest =>
        (chooseE ((p - 1) * (q - 1)) retry rest).andThen fun e rest => .ok (Key.of p q e) rest := by
  rw [keygen_eq, genprime_eq_ok_iff.2 h, Drawn.andThen_ok]

theorem keygen_of_primesFound (h : primesFound bits k limit retry ans p q mid) :
    keygen bits k limit retry ans =
      (chooseE ((p - 1) * (q - 1)) retry mid).andThen fun e rest => .ok (Key.of p q e) rest := by
  obtain ⟨r1, r2, n, hn, hp, hrepeats, hq, hne⟩ := h
  obtain ⟨m, rfl⟩ := Nat.exists_eq_add_of_le hn
  rw [keygen_of_primeFound hp, hrepeats.drawQ_eq, hq.drawQ_eq, redrawQ_of_ne _ _ _ _ _ hne, Drawn.andThen_ok]

theorem exponentsFail.chooseE_eq {phi : Nat} (h : exponentsFail phi retry ans rest) :
    chooseE phi retry ans = .err .degenerateKey rest := by
  induction retry generalizing ans with
  | zero =>
    cases h
    rfl
  | succ retry ih =>
    obtain ⟨v, tail, rfl, hgcd, hfail⟩ := h
    rw [chooseE, draw_cons, Drawn.andThen_ok, egcd_fst, if_neg hgcd, ih hfail]

theorem keygen_of_exponentsFail (hpq : primesFound bits k limit retry ans p q mid)
    (he : exponentsFail ((p - 1) * (q - 1)) retry mid rest) :
    keygen bits k limit retry ans = .err .degenerateKey rest := by
  rw [keygen_of_primesFound hpq, he.chooseE_eq, Drawn.andThen_err]

theorem keygen_of_no_p (h : candidatesFail bits k limit ans rest) :
    keygen bits k limit retry ans = .err .iterationLimit rest := by
  rw [keygen_eq, h.genprime_eq, Drawn.andThen_err]

theorem keygen_of_no_q {n : Nat} {r1 : List Nat} (hn : n ≤ retry) (hp : primeFound bits k limit ans p r1)
    (hrepeats : primeRepeats bits k limit p n r1 mid) (hfail : candidatesFail bits k limit mid rest) :
    keygen bits k limit retry ans = .err .iterationLimit rest := by
  obtain ⟨m, rfl⟩ := Nat.exists_eq_add_of_le hn
  rw [keygen_of_primeFound hp, hrepeats.drawQ_eq, hfail.drawQ_eq, Drawn.andThen_err]

theorem keygen_of_all_repeats {r1 : List Nat} (hp : primeFound bits k limit ans p r1)
    (hrepeats : primeRepeats bits k limit p (retry + 1) r1 rest) :
    keygen bits k limit retry ans = .err .degenerateKey rest := by
  rw [keygen_of_primeFound hp, hrepeats.drawQ_degenerate, Drawn.andThen_err]

end

/-! ### KEYGEN's only errors (R236) -/

theorem redrawQ_err {bits k limit p retry q : Nat} {ans rest : List Nat} {e : Err}
    (h : redrawQ bits k limit p retry q ans = .err e rest) : e = .iterationLimit ∨ e = .degenerateKey := by
  induction retry generalizing q ans with
  | zero =>
    rw [redrawQ] at h
    split at h
    · cases h
      exact .inr rfl
    · cases h
  | succ retry ih =>
    rw [redrawQ] at h
    split at h
    · rcases Drawn.andThen_eq_err h with hgen | ⟨q', mid, -, hredraw⟩
      · exact .inl (genprime_err bits k limit ans hgen)
      · exact ih hredraw
    · cases h

theorem chooseE_err {phi retry : Nat} {ans rest : List Nat} {e : Err} (h : chooseE phi retry ans = .err e rest) :
    e = .iterationLimit ∨ e = .degenerateKey := by
  induction retry generalizing ans with
  | zero =>
    cases h
    exact .inr rfl
  | succ retry ih =>
    rcases Drawn.andThen_eq_err h with hdraw | ⟨v, mid, -, hgcd⟩
    · exact absurd hdraw (draw_ne_err _ _ _ _)
    · split at hgcd
      · cases hgcd
      · exact ih hgcd

theorem keygen_err {bits k limit retry : Nat} {ans rest : List Nat} {e : Err}
    (h : keygen bits k limit retry ans = .err e rest) : e = .iterationLimit ∨ e = .degenerateKey := by
  rcases Drawn.andThen_eq_err h with hp | ⟨p, r1, -, h⟩
  · exact .inl (genprime_err bits k limit ans hp)
  rcases Drawn.andThen_eq_err h with hq0 | ⟨q0, r2, -, h⟩
  · exact .inl (genprime_err bits k limit r1 hq0)
  rcases Drawn.andThen_eq_err h with hq | ⟨q, r3, -, h⟩
  · exact redrawQ_err hq
  rcases Drawn.andThen_eq_err h with he | ⟨v, r4, -, h⟩
  · exact chooseE_err he
  · cases h

/-! ### The number of draws (43_prime.md R214; 44_keygen.md R236) -/

/-- Each candidate costs its own draw and at most k bases. -/
theorem genprime_takesAtMost (bits k limit : Nat) (ans : List Nat) :
    (genprime bits k limit ans).TakesAtMost (limit * (1 + k)) ans := by
  induction limit generalizing ans with
  | zero => exact Drawn.takesAtMost_err_self .iterationLimit _ ans
  | succ limit ih =>
    refine ((draw_takesAtMost _ ans).andThen (n := k + limit * (1 + k)) fun v rest =>
      (mr_takesAtMost _ k rest).andThen fun prime rest' => ?_).mono (by rw [Nat.succ_mul]; omega)
    split
    · exact Drawn.takesAtMost_ok_self _ _ rest'
    · exact ih rest'

theorem redrawQ_takesAtMost (bits k limit p retry q : Nat) (ans : List Nat) :
    (redrawQ bits k limit p retry q ans).TakesAtMost (retry * (limit * (1 + k))) ans := by
  induction retry generalizing q ans with
  | zero =>
    rw [redrawQ]
    split
    · exact Drawn.takesAtMost_err_self .degenerateKey _ ans
    · exact Drawn.takesAtMost_ok_self q _ ans
  | succ retry ih =>
    rw [redrawQ]
    split
    · exact ((genprime_takesAtMost bits k limit ans).andThen ih).mono (by rw [Nat.succ_mul]; omega)
    · exact Drawn.takesAtMost_ok_self q _ ans

theorem chooseE_takesAtMost (phi retry : Nat) (ans : List Nat) : (chooseE phi retry ans).TakesAtMost retry ans := by
  induction retry generalizing ans with
  | zero => exact Drawn.takesAtMost_err_self .degenerateKey 0 ans
  | succ retry ih =>
    refine ((draw_takesAtMost _ ans).andThen (n := retry) fun e rest => ?_).mono (Nat.add_comm 1 retry).le
    split
    · exact Drawn.takesAtMost_ok_self e retry rest
    · exact ih rest

theorem keygen_takesAtMost (bits k limit retry : Nat) (ans : List Nat) :
    (keygen bits k limit retry ans).TakesAtMost (limit * (2 + retry) * (1 + k) + retry) ans := by
  have hsum : limit * (1 + k) + (limit * (1 + k) + (retry * (limit * (1 + k)) + (retry + 0))) =
      limit * (2 + retry) * (1 + k) + retry := by ring
  rw [← hsum]
  exact (genprime_takesAtMost bits k limit ans).andThen fun p rest =>
    (genprime_takesAtMost bits k limit rest).andThen fun q0 rest =>
      (redrawQ_takesAtMost bits k limit p retry q0 rest).andThen fun q rest =>
        (chooseE_takesAtMost _ retry rest).andThen fun e rest => Drawn.takesAtMost_ok_self (Key.of p q e) 0 rest

/-- Settles O19: the bounds of the loops add up, and no loop has an error of its own but a spent limit. -/
theorem drawBounds : Obligations.DrawBounds := by
  refine ⟨fun bits k limit ans => ?_, fun bits k limit retry ans => ?_⟩
  · have htakes := genprime_takesAtMost bits k limit ans
    exact ⟨fun p rest => htakes.of_ok, fun e rest h => ⟨genprime_err bits k limit ans h, htakes.of_err h⟩,
      htakes.ne_waits⟩
  · have htakes := keygen_takesAtMost bits k limit retry ans
    exact ⟨fun key rest => htakes.of_ok, fun e rest h => ⟨keygen_err h, htakes.of_err h⟩, htakes.ne_waits⟩

/-! ### KEYGEN (44_keygen.md R230, R232, R233, R236) -/

theorem keygenResult_of_operands {s : State}
    (h : s.primeBits.toNat < 2 ∨ s.params.opw / 2 < s.primeBits.toNat ∨ s.mrRounds.toNat = 0) :
    keygenResult s = .err .badOperand s.stream := by
  rw [keygenResult]
  split_ifs with hbits hk
  · rfl
  · rfl
  · have := State.mrRounds_toNat_ne_zero hk
    omega

/-- KEYGEN ends with E_BAD_OPERAND by its checks, or as its draws do. -/
theorem keygenResult_cases (s : State) :
    keygenResult s = .err .badOperand s.stream ∨
      keygenResult s = keygen s.primeBits.toNat s.mrRounds.toNat s.iterLimit.toNat s.retryLimit.toNat s.stream := by
  rw [keygenResult]
  split_ifs
  · exact .inl rfl
  · exact .inl rfl
  · exact .inr rfl

theorem keygenResult_err {s : State} {e : Err} {rest : List Nat} (h : keygenResult s = .err e rest) :
    e = .badOperand ∨ e = .iterationLimit ∨ e = .degenerateKey := by
  rcases keygenResult_cases s with hbad | hdraws
  · rw [hbad] at h
    cases h
    exact .inl rfl
  · exact .inr (keygen_err (hdraws ▸ h))

/-- Without a try for e there is no key. -/
theorem keygen_zero_ne_ok {bits k limit : Nat} {ans rest : List Nat} {key : Key} :
    keygen bits k limit 0 ans ≠ .ok key rest := by
  intro h
  rw [keygen_eq] at h
  obtain ⟨p, r1, -, h⟩ := Drawn.andThen_eq_ok h
  obtain ⟨q, r2, -, h⟩ := Drawn.andThen_eq_ok h
  cases h

theorem keygenResult_ne_ok {s : State} (hretry : s.retryLimit.toNat = 0) (key : Key) (rest : List Nat) :
    keygenResult s ≠ .ok key rest := by
  rcases keygenResult_cases s with hbad | hdraws
  · simp [hbad]
  · rw [hdraws, hretry]
    exact keygen_zero_ne_ok

/-- Settles O23: the checks, then each way the draws of p, q and e can fail. -/
theorem keygenErrors : Obligations.KeygenErrors := by
  intro s bits k limit retry fails
  have raises {e : Err} {rest : List Nat} (hres : keygenResult s = .err e rest) : fails e rest :=
    exec_raises_drawn (exec_keygen_eq s) rfl rfl hres
  refine ⟨fun h => raises (keygenResult_of_operands h), fun h2 hw hk => ?draws, fun hretry => ⟨?noKey, ?ends⟩⟩
  case draws =>
    have hlegal := keygenResult_of_legal h2 hw hk
    exact ⟨fun rest hfail => raises (hlegal.trans (keygen_of_no_p hfail)),
      fun p r1 mid rest n hn hp hrepeats hfail => raises (hlegal.trans (keygen_of_no_q hn hp hrepeats hfail)),
      fun p r1 rest hp hrepeats => raises (hlegal.trans (keygen_of_all_repeats hp hrepeats)),
      fun p q mid rest hpq he => raises (hlegal.trans (keygen_of_exponentsFail hpq he))⟩
  case noKey =>
    intro h2 hw hk p q mid hpq
    have hnone : exponentsFail ((p - 1) * (q - 1)) retry mid mid := by rw [hretry]; rfl
    exact raises ((keygenResult_of_legal h2 hw hk).trans (keygen_of_exponentsFail hpq hnone))
  case ends =>
    intro t h hb
    rcases State.settleDrawn_cases (exec_keygen_eq s ▸ h) with ⟨e, rest, hres, rfl⟩ | ⟨key, rest, hres, -⟩ | ⟨req, -, rfl⟩
    · rw [State.raise_status]
      exact ⟨rfl, by rcases keygenResult_err hres with rfl | rfl | rfl <;> simp⟩
    · exact absurd hres (keygenResult_ne_ok hretry key rest)
    · simp at hb

end Sys2Proof.Machine
end

section
/-! O20, O21 and O22: the key of a successful KEYGEN (44_keygen.md R230 to R235). What its draws must be is put in the words
of `primesFound` and `exponentFound` once; the key of such draws is then a key pair of the spec's widths, which fits the six
registers. -/

namespace Sys2Proof.Machine

/-! ### Which draws give a key (R232, R233) -/

section
variable {bits k limit retry p q phi e v n : Nat} {ans tail mid rest : List Nat}

/-- A draw of q that ends with a value gave another number than p, or p and then a re-draw ended with that value. -/
theorem drawQ_eq_ok_cases (h : drawQ bits k limit retry p ans = .ok q rest) :
    (primeFound bits k limit ans q rest ∧ q ≠ p) ∨
      ∃ mid, primeFound bits k limit ans p mid ∧ redrawQ bits k limit p retry p mid = .ok q rest := by
  obtain ⟨q0, mid, hgen, hredraw⟩ := Drawn.andThen_eq_ok h
  by_cases hq : q0 = p
  · subst hq
    exact .inr ⟨mid, genprime_eq_ok_iff.1 hgen, hredraw⟩
  · rw [redrawQ_of_ne _ _ _ _ _ hq] at hredraw
    cases hredraw
    exact .inl ⟨genprime_eq_ok_iff.1 hgen, hq⟩

/-- q is the first draw that differs from p, after at most retry draws that gave p. -/
theorem drawQ_eq_ok_iff : drawQ bits k limit retry p ans = .ok q rest ↔
    ∃ mid, ∃ n ≤ retry, primeRepeats bits k limit p n ans mid ∧ primeFound bits k limit mid q rest ∧ q ≠ p := by
  constructor
  · intro h
    induction retry generalizing ans with
    | zero =>
      rcases drawQ_eq_ok_cases h with hfound | ⟨mid, -, hredraw⟩
      · exact ⟨ans, 0, le_rfl, rfl, hfound⟩
      · rw [redrawQ_zero_self] at hredraw
        cases hredraw
    | succ retry ih =>
      rcases drawQ_eq_ok_cases h with hfound | ⟨mid, hself, hredraw⟩
      · exact ⟨ans, 0, Nat.zero_le _, rfl, hfound⟩
      · rw [redrawQ_succ_self] at hredraw
        obtain ⟨next, n, hn, hrepeats, hfound⟩ := ih hredraw
        exact ⟨next, n + 1, by omega, ⟨mid, hself, hrepeats⟩, hfound⟩
  · rintro ⟨mid, n, hn, hrepeats, hq, hne⟩
    obtain ⟨m, rfl⟩ := Nat.exists_eq_add_of_le hn
    rw [hrepeats.drawQ_eq, hq.drawQ_eq, redrawQ_of_ne _ _ _ _ _ hne]

theorem chooseE_of_coprime (h : Nat.gcd ((DrawReq.range 2 (phi - 1)).intoRange v) phi = 1) :
    chooseE phi (retry + 1) (v :: tail) = .ok ((DrawReq.range 2 (phi - 1)).intoRange v) tail := by
  rw [chooseE, draw_cons, Drawn.andThen_ok, egcd_fst, if_pos h]

theorem chooseE_of_not_coprime (h : Nat.gcd ((DrawReq.range 2 (phi - 1)).intoRange v) phi ≠ 1) :
    chooseE phi (retry + 1) (v :: tail) = chooseE phi retry tail := by
  rw [chooseE, draw_cons, Drawn.andThen_ok, egcd_fst, if_neg h]

/-- Draws with a factor in common with phi are passed over. -/
theorem chooseE_of_exponentsFail (h : exponentsFail phi n ans mid) :
    chooseE phi (n + retry) ans = chooseE phi retry mid := by
  induction n generalizing ans with
  | zero =>
    cases h
    rw [Nat.zero_add]
  | succ n ih =>
    obtain ⟨v, tail, rfl, hgcd, hfail⟩ := h
    rw [Nat.succ_add, chooseE_of_not_coprime hgcd, ih hfail]

theorem chooseE_eq_ok_iff : chooseE phi retry ans = .ok e rest ↔ exponentFound phi retry ans e rest := by
  constructor
  · intro h
    induction retry generalizing ans with
    | zero => cases h
    | succ retry ih =>
      cases ans with
      | nil => cases h
      | cons v tail =>
        by_cases hgcd : Nat.gcd ((DrawReq.range 2 (phi - 1)).intoRange v) phi = 1
        · rw [chooseE_of_coprime hgcd] at h
          cases h
          exact ⟨0, retry.succ_pos, v, rfl, rfl, hgcd⟩
        · rw [chooseE_of_not_coprime hgcd] at h
          obtain ⟨n, hn, w, hfail, he⟩ := ih h
          exact ⟨n + 1, by omega, w, ⟨v, tail, rfl, hgcd, hfail⟩, he⟩
  · rintro ⟨n, hn, v, hfail, rfl, hgcd⟩
    obtain ⟨m, rfl⟩ := Nat.exists_eq_add_of_lt hn
    rw [Nat.add_assoc, chooseE_of_exponentsFail hfail, chooseE_of_coprime hgcd]

theorem keygen_of_found (hpq : primesFound bits k limit retry ans p q mid)
    (he : exponentFound ((p - 1) * (q - 1)) retry mid e rest) :
    keygen bits k limit retry ans = .ok (Key.of p q e) rest := by
  rw [keygen_of_primesFound hpq, chooseE_eq_ok_iff.2 he, Drawn.andThen_ok]

theorem keygen_eq_ok_iff {key : Key} : keygen bits k limit retry ans = .ok key rest ↔
    ∃ mid, primesFound bits k limit retry ans key.p key.q mid ∧
      exponentFound ((key.p - 1) * (key.q - 1)) retry mid key.e rest ∧ key = Key.of key.p key.q key.e := by
  constructor
  · intro h
    rw [keygen_eq] at h
    obtain ⟨p, r1, hp, h⟩ := Drawn.andThen_eq_ok h
    obtain ⟨q, r2, hq, h⟩ := Drawn.andThen_eq_ok h
    obtain ⟨e, r3, he, h⟩ := Drawn.andThen_eq_ok h
    cases h
    obtain ⟨mid, n, hn, hrepeats, hfound⟩ := drawQ_eq_ok_iff.1 hq
    exact ⟨r2, ⟨r1, mid, n, hn, genprime_eq_ok_iff.1 hp, hrepeats, hfound⟩, chooseE_eq_ok_iff.1 he, rfl⟩
  · rintro ⟨mid, hpq, he, hkey⟩
    rw [keygen_of_found hpq he, ← hkey]

end

/-! ### The key of such draws (R231, R235) -/

/-- p is odd and has exactly the given number of bits: what R212 makes of every candidate. -/
structure OddOfBits (bits p : Nat) : Prop where
  odd : p % 2 = 1
  ge : 2 ^ (bits - 1) ≤ p
  lt : p < 2 ^ bits

theorem primeFound.oddOfBits {bits k limit p : Nat} {ans rest : List Nat} (h : primeFound bits k limit ans p rest)
    (hb : 1 ≤ bits) : OddOfBits bits p := by
  obtain ⟨v, tail, rfl, -⟩ := h.exists_candidate
  exact ⟨forcedCandidate_odd bits v, two_pow_le_forcedCandidate bits v, forcedCandidate_lt v hb⟩

/-- Two different odd numbers of the same number of bits have at least three bits, so that they are at least 5 and 7. -/
theorem OddOfBits.phi_ge {bits p q : Nat} (hp : OddOfBits bits p) (hq : OddOfBits bits q) (hne : p ≠ q)
    (hb : 2 ≤ bits) : 24 ≤ (p - 1) * (q - 1) := by
  obtain ⟨hpodd, hpge, hplt⟩ := hp
  obtain ⟨hqodd, hqge, hqlt⟩ := hq
  have hbits : bits ≠ 2 := by
    rintro rfl
    omega
  have h4 : 2 ^ 2 ≤ 2 ^ (bits - 1) := Nat.pow_le_pow_right two_pos (by omega)
  rcases Nat.lt_or_gt_of_ne hne with hlt | hlt
  · exact Nat.mul_le_mul (show 4 ≤ p - 1 by omega) (show 6 ≤ q - 1 by omega)
  · exact Nat.mul_le_mul (show 6 ≤ p - 1 by omega) (show 4 ≤ q - 1 by omega)

theorem OddOfBits.mul_lt {bits p q : Nat} (hp : OddOfBits bits p) (hq : OddOfBits bits q) :
    p * q < 2 ^ (2 * bits) := by
  rw [two_mul, pow_add]
  exact Nat.mul_lt_mul'' hp.lt hq.lt

/-- A product of two numbers of the same number of bits has twice as many bits, or one less. -/
theorem OddOfBits.bitlen_mul {bits p q : Nat} (hp : OddOfBits bits p) (hq : OddOfBits bits q) (hb : 2 ≤ bits) :
    bitlen (p * q) = 2 * bits - 1 ∨ bitlen (p * q) = 2 * bits := by
  have hge : 2 ^ (2 * bits - 1 - 1) ≤ p * q := by
    rw [show 2 * bits - 1 - 1 = (bits - 1) + (bits - 1) by omega, pow_add]
    exact Nat.mul_le_mul hp.ge hq.ge
  rcases Nat.lt_or_ge (p * q) (2 ^ (2 * bits - 1)) with hlt | htop
  · exact .inl ((bitlen_eq_iff _ _ (by omega)).2 ⟨hge, hlt⟩)
  · exact .inr ((bitlen_eq_iff _ _ (by omega)).2 ⟨htop, hp.mul_lt hq⟩)

/-- A key pair as R231 has it, of primes of the given number of bits (R235). -/
structure Key.Valid (bits : Nat) (key : Key) : Prop where
  p_bits : OddOfBits bits key.p
  q_bits : OddOfBits bits key.q
  ne : key.p ≠ key.q
  n_eq : key.n = key.p * key.q
  phi_eq : key.phi = (key.p - 1) * (key.q - 1)
  one_lt_e : 1 < key.e
  e_lt : key.e < key.phi
  coprime : Nat.gcd key.e key.phi = 1
  d_lt : key.d < key.phi
  inverse : key.e * key.d % key.phi = 1

section
variable {bits k limit retry p q e : Nat} {ans mid rest : List Nat}

theorem primesFound.oddOfBits (h : primesFound bits k limit retry ans p q mid) (hb : 1 ≤ bits) :
    OddOfBits bits p ∧ OddOfBits bits q ∧ p ≠ q := by
  obtain ⟨_, _, _, _, hp, _, hq, hne⟩ := h
  exact ⟨hp.oddOfBits hb, hq.oddOfBits hb, hne.symm⟩

theorem primesFound.exists_mr (h : primesFound bits k limit retry ans p q mid) :
    (∃ ans left, mr p k ans = .ok true left) ∧ ∃ ans left, mr q k ans = .ok true left := by
  obtain ⟨_, _, _, _, hp, _, hq, _⟩ := h
  obtain ⟨_, ptail, _, hpmr⟩ := hp.exists_candidate
  obtain ⟨_, qtail, _, hqmr⟩ := hq.exists_candidate
  exact ⟨⟨ptail, _, hpmr⟩, ⟨qtail, _, hqmr⟩⟩

theorem exponentFound.spec {phi : Nat} (h : exponentFound phi retry ans e rest) (hphi : 3 ≤ phi) :
    1 < e ∧ e < phi ∧ Nat.gcd e phi = 1 := by
  obtain ⟨-, -, v, -, rfl, hgcd⟩ := h
  obtain ⟨hlo, hhi⟩ := DrawReq.intoRange_range_mem (lo := 2) (hi := phi - 1) v (by omega)
  exact ⟨hlo, by omega, hgcd⟩

/-- The key of the numbers that KEYGEN draws: d is the inverse of e, which is coprime to phi. -/
theorem Key.valid_of_found (hb : 2 ≤ bits) (hpq : primesFound bits k limit retry ans p q mid)
    (he : exponentFound ((p - 1) * (q - 1)) retry mid e rest) : (Key.of p q e).Valid bits := by
  obtain ⟨hp, hq, hne⟩ := hpq.oddOfBits (by omega)
  have hphi := hp.phi_ge hq hne hb
  obtain ⟨hlo, hhi, hgcd⟩ := he.spec (by omega)
  obtain ⟨hd, hinv⟩ := modinv_spec e ((p - 1) * (q - 1)) (by omega) hgcd
  exact ⟨hp, hq, hne, rfl, rfl, hlo, hhi, hgcd, hd, hinv.trans (Nat.mod_eq_of_lt (by omega))⟩

theorem Key.valid_of_keygen {key : Key} (hb : 2 ≤ bits) (h : keygen bits k limit retry ans = .ok key rest) :
    key.Valid bits := by
  obtain ⟨mid, hpq, he, hkey⟩ := keygen_eq_ok_iff.1 h
  rw [hkey]
  exact Key.valid_of_found hb hpq he

end

theorem Key.Valid.d_pos {bits : Nat} {key : Key} (h : key.Valid bits) : 0 < key.d := by
  refine Nat.pos_of_ne_zero fun hd => ?_
  have hinv := h.inverse
  rw [hd, Nat.mul_zero, Nat.zero_mod] at hinv
  omega

/-! ### The six key registers (R230) -/

/-- The six key registers hold the key, untruncated. -/
structure State.HoldsKey (t : State) (key : Key) : Prop where
  p : t.W .p = key.p
  q : t.W .q = key.q
  n : t.W .n = key.n
  phi : t.W .phi = key.phi
  e : t.W .e = key.e
  d : t.W .d = key.d

theorem State.HoldsKey.finish {t : State} {key : Key} (h : t.HoldsKey key) : t.finish.HoldsKey key :=
  ⟨h.p, h.q, h.n, h.phi, h.e, h.d⟩

/-- Every number of a key is at most its modulus or its phi, and both are below 2^(2·bits). -/
theorem Key.Valid.fits {bits w : Nat} {key : Key} (h : key.Valid bits) (hw : bits ≤ w / 2) :
    key.p < 2 ^ w ∧ key.q < 2 ^ w ∧ key.n < 2 ^ w ∧ key.phi < 2 ^ w ∧ key.e < 2 ^ w ∧ key.d < 2 ^ w := by
  have hpow : 2 ^ (2 * bits) ≤ 2 ^ w := Nat.pow_le_pow_right two_pos (by omega)
  have hprime : 2 ^ bits ≤ 2 ^ w := Nat.pow_le_pow_right two_pos (by omega)
  have hn : key.n < 2 ^ w := h.n_eq ▸ (h.p_bits.mul_lt h.q_bits).trans_le hpow
  have hphi : key.phi ≤ key.n := by
    rw [h.phi_eq, h.n_eq]
    exact Nat.mul_le_mul (Nat.sub_le _ 1) (Nat.sub_le _ 1)
  exact ⟨h.p_bits.lt.trans_le hprime, h.q_bits.lt.trans_le hprime, hn, hphi.trans_lt hn,
    h.e_lt.trans (hphi.trans_lt hn), h.d_lt.trans (hphi.trans_lt hn)⟩

theorem commitKey_holdsKey {bits : Nat} {u : State} {key : Key} (hkey : key.Valid bits)
    (hw : bits ≤ u.params.opw / 2) : (commitKey key u).HoldsKey key := by
  obtain ⟨hp, hq, hn, hphi, he, hd⟩ := hkey.fits hw
  constructor <;> simp [commitKey, State.W, Nat.mod_eq_of_lt, hp, hq, hn, hphi, he, hd]

theorem commitKey_get_other (key : Key) (u : State) {k : WideName} (hk : k ∈ [WideName.a, .b, .m, .x, .r]) :
    (commitKey key u).wide.get k = u.wide.get k := by
  simp only [List.mem_cons, List.not_mem_nil, or_false] at hk
  rcases hk with rfl | rfl | rfl | rfl | rfl <;> simp [commitKey]

@[simp] theorem commitKey_status (key : Key) (u : State) : (commitKey key u).status = u.status := by
  simp [commitKey]

@[simp] theorem commitKey_entropy (key : Key) (u : State) : (commitKey key u).entropy = u.entropy := by
  simp [commitKey]

/-- A KEYGEN whose draws give a valid key ends with a success: the six registers hold the key, the other five have not
moved. -/
theorem exec_keygen_of_ok {bits : Nat} {s : State} {key : Key} {rest : List Nat} (hres : keygenResult s = .ok key rest)
    (hkey : key.Valid bits) (hw : bits ≤ s.params.opw / 2) :
    ∃ t, exec .keygen s = .next t ∧ t.HoldsKey key ∧ t.entropy = rest ∧ t.Completed .keygen s ∧
      ∀ k ∈ [WideName.a, .b, .m, .x, .r], t.wide.get k = s.wide.get k := by
  have hstart := (started_accept .keygen s rfl).withEntropy rest rfl
  have hexec : exec .keygen s = .next (commitKey key ((s.accept .keygen).withEntropy rest)).finish := by
    rw [exec_keygen_eq, hres, State.settleDrawn]
  have hholds := commitKey_holdsKey hkey (u := (s.accept .keygen).withEntropy rest) hw
  refine ⟨_, hexec, hholds.finish, ?entropy, State.finish_completed ?status, fun k hk => ?frame⟩
  case entropy => rw [State.finish_entropy, commitKey_entropy, State.withEntropy_entropy]
  case status => rw [commitKey_status, hstart.status]
  case frame => rw [State.finish_wide, commitKey_get_other _ _ hk, hstart.wide]

/-! ### KEYGEN (R230, R231, R235) -/

/-- Settles O20: the draws that give a key, and the key's numbers, which all fit the registers. -/
theorem KeyGen.keygenResult : Obligations.KeygenResult := by
  intro s bits k limit retry h2 hw hk
  refine ⟨fun key rest => keygen_eq_ok_iff, fun p q e mid rest hpq he => ⟨?registers, hpq.exists_mr⟩⟩
  case registers =>
    have hres := (keygenResult_of_legal h2 hw hk).trans (keygen_of_found hpq he)
    have hvalid := Key.valid_of_found h2 hpq he
    obtain ⟨t, hexec, hholds, hrest, hcompleted, hframe⟩ := exec_keygen_of_ok hres hvalid hw
    exact ⟨t, hexec, hholds.p, hholds.q, hholds.n, hholds.phi, hholds.e, hholds.d, hholds.d ▸ hvalid.d_lt,
      hholds.d ▸ hvalid.inverse, hrest, hcompleted, hframe⟩

/-- KEYGEN has a key only where its checks pass. -/
theorem keygenResult_eq_ok {s : State} {key : Key} {rest : List Nat} (h : keygenResult s = .ok key rest) :
    2 ≤ s.primeBits.toNat ∧ s.primeBits.toNat ≤ s.params.opw / 2 ∧
      keygen s.primeBits.toNat s.mrRounds.toNat s.iterLimit.toNat s.retryLimit.toNat s.stream = .ok key rest := by
  by_cases hops : s.primeBits.toNat < 2 ∨ s.params.opw / 2 < s.primeBits.toNat ∨ s.mrRounds.toNat = 0
  · rw [keygenResult_of_operands hops] at h
    cases h
  · have h2 : 2 ≤ s.primeBits.toNat := by omega
    have hw : s.primeBits.toNat ≤ s.params.opw / 2 := by omega
    have hk : s.mrRounds.toNat ≠ 0 := by omega
    exact ⟨h2, hw, (keygenResult_of_legal h2 hw hk).symm.trans h⟩

/-- A KEYGEN that ends without an error has written a valid key, and its checks have passed. -/
theorem exec_keygen_holdsKey {s t : State} (h : exec .keygen s = .next t) (hb : t.busy = false)
    (he : t.status.err = false) :
    2 ≤ s.primeBits.toNat ∧ s.primeBits.toNat ≤ s.params.opw / 2 ∧
      ∃ key : Key, key.Valid s.primeBits.toNat ∧ t.HoldsKey key := by
  rcases State.settleDrawn_cases (exec_keygen_eq s ▸ h) with ⟨e, rest, -, rfl⟩ | ⟨key, rest, hres, -⟩ | ⟨req, -, rfl⟩
  · simp at he
  · obtain ⟨h2, hw, hdraws⟩ := keygenResult_eq_ok hres
    have hvalid := Key.valid_of_keygen h2 hdraws
    obtain ⟨t', hexec, hholds, -⟩ := exec_keygen_of_ok hres hvalid hw
    obtain rfl : t' = t := Host.Outcome.next.inj (hexec.symm.trans h)
    exact ⟨h2, hw, key, hvalid, hholds⟩
  · simp at hb

/-- Settles O21: the registers hold a valid key. -/
theorem keygenKeyPair : Obligations.KeygenKeyPair := by
  intro s t h hb he
  obtain ⟨-, -, key, hvalid, hholds⟩ := exec_keygen_holdsKey h hb he
  rw [hholds.p, hholds.q, hholds.n, hholds.phi, hholds.e, hholds.d]
  exact ⟨hvalid.n_eq, hvalid.ne, hvalid.phi_eq, hvalid.coprime, hvalid.inverse, hvalid.one_lt_e, hvalid.e_lt,
    hvalid.d_pos, hvalid.d_lt⟩

/-- Settles O22: both primes are candidates of PRIME_BITS bits, which bounds their product and phi. -/
theorem keygenRanges : Obligations.KeygenRanges := by
  intro s t h hb he
  obtain ⟨h2, hw, key, hvalid, hholds⟩ := exec_keygen_holdsKey h hb he
  have hp := hvalid.p_bits
  have hq := hvalid.q_bits
  rw [hholds.p, hholds.q, hholds.n, hholds.phi, hvalid.n_eq, hvalid.phi_eq]
  exact ⟨hp.odd, hq.odd, hvalid.ne, hp.ge, hp.lt, hq.ge, hq.lt, hp.mul_lt hq,
    Nat.pow_le_pow_right two_pos (by omega), hp.bitlen_mul hq h2, hp.phi_ge hq hvalid.ne h2⟩

end Sys2Proof.Machine
end

section
/-! O24, O25, O26 and O27: the byte strings of the block cipher (45_cipher.md R250 to R256). What a block's integer is, what
pad adds and unpad takes away, and which strings are text. -/

namespace Sys2Proof.Machine

/-! ### Blocks and their integers (45_cipher.md R251, R252) -/

/-- A string of at most k bytes has an integer below 256^k. -/
theorem beInt_lt_of_length_le {s : List Byte} {k : Nat} (h : s.length ≤ k) : beInt s < 256 ^ k :=
  (beInt_lt s).trans_le (Nat.pow_le_pow_right (by norm_num) h)

theorem beInt_beBytes_of_lt {v k : Nat} (h : v < 256 ^ k) : beInt (beBytes v k) = v := by
  rw [beInt_beBytes, Nat.mod_eq_of_lt h]

/-- Settles O24: N lies between 256^bs and 256^(bs+1). -/
theorem blocksFit : Obligations.BlocksFit := by
  intro n h9
  obtain ⟨-, hlo, hhi⟩ := blockSizeOf_spec n h9
  exact ⟨fun block hlen => (beInt_lt_of_length_le hlen.le).trans_le hlo,
    fun c hc => ⟨hc.trans hhi, beInt_beBytes_of_lt (hc.trans hhi)⟩⟩

/-! ### Padding (45_cipher.md R254, R255) -/

theorem padSize_pos (len : Nat) {bs : Nat} (h : 1 ≤ bs) : 1 ≤ padSize len bs := by
  have := Nat.mod_lt len (by omega : 0 < bs)
  unfold padSize
  omega

theorem padSize_le (len bs : Nat) : padSize len bs ≤ bs := Nat.sub_le _ _

@[simp] theorem pad_length (msg : List Byte) (bs : Nat) : (pad msg bs).length = msg.length + padSize msg.length bs := by
  simp [pad]

/-- A padded message fills whole blocks, one more than the message has. -/
theorem add_padSize_eq (len : Nat) {bs : Nat} (h : 1 ≤ bs) : len + padSize len bs = bs * (len / bs + 1) := by
  have hmod := Nat.mod_lt len (by omega : 0 < bs)
  have hdiv := Nat.div_add_mod len bs
  rw [padSize, Nat.mul_add, Nat.mul_one]
  omega

/-- Settles O26: the last byte decides (`unpad_concat`). -/
theorem unpadChecks : Obligations.UnpadChecks := by
  refine ⟨rfl, fun s b => ⟨fun hbad => ?bad, fun hpos hle => ?good⟩⟩
  case bad => rw [unpad_concat, if_pos hbad]
  case good => rw [unpad_concat, if_neg (by omega)]

/-- Where pad_size fits a byte, that byte ends the padded message, so unpad strips what pad added. -/
theorem unpad_pad (msg : List Byte) {bs : Nat} (h : 1 ≤ bs) (h255 : padSize msg.length bs ≤ 255) :
    unpad (pad msg bs) = .ok msg := by
  obtain ⟨k, hk⟩ := Nat.exists_eq_add_of_le' (padSize_pos msg.length h)
  have hb : (BitVec.ofNat 8 (k + 1)).toNat = k + 1 := by
    rw [BitVec.toNat_ofNat]
    omega
  rw [pad, hk, List.replicate_succ', ← List.append_assoc, unpad_concat, hb, if_neg (by simp)]
  simp

/-- Settles O25: pad appends pad_size bytes of that value. -/
theorem padThenUnpad : Obligations.PadThenUnpad := by
  intro msg bs hbs
  refine ⟨rfl, padSize_pos _ hbs, padSize_le _ _, pad_length msg bs, (pad_length msg bs).trans (add_padSize_eq _ hbs),
    fun j hj => List.getElem?_append_left hj, fun h255 => ⟨fun j hlo hhi => ?padByte, unpad_pad msg hbs h255⟩⟩
  case padByte =>
    refine ⟨BitVec.ofNat 8 (padSize msg.length bs), ?_, ?_⟩
    · rw [pad, List.getElem?_append_right hlo, List.getElem?_replicate_of_lt (by omega)]
    · rw [BitVec.toNat_ofNat]
      omega

/-! ### Text (45_cipher.md R256) -/

/-- What a first byte lets follow is what the row it lies in lets follow; a byte in no row starts nothing. -/
theorem utf8Lead_eq_some_iff {b : Byte} {ranges : List (Nat × Nat)} :
    utf8Lead b = some ranges ↔ ∃ row ∈ utf8Rows, byteIn b row.1 ∧ row.2 = ranges := by
  constructor
  · intro h
    unfold utf8Lead at h
    dsimp only at h
    split_ifs at h <;> cases h <;> simp [utf8Rows] <;> omega
  · rintro ⟨row, hrow, ⟨hlo, hhi⟩, rfl⟩
    simp only [utf8Rows, List.mem_cons, List.not_mem_nil, or_false] at hrow
    -- A row lies on one side of each bound that utf8Lead compares with.
    rcases hrow with rfl | rfl | rfl | rfl | rfl | rfl | rfl | rfl | rfl <;> dsimp only at hlo hhi <;>
      simp (disch := omega) only [utf8Lead, if_pos, if_neg]

/-- A concatenation of sequences of R256's table. -/
def Utf8Text (s : List Byte) : Prop := ∃ qs : List (List Byte), (∀ q ∈ qs, utf8Sequence q) ∧ s = qs.flatten

theorem Utf8Text.nil : Utf8Text [] := ⟨[], by simp, rfl⟩

theorem Utf8Text.append {q s : List Byte} (hq : utf8Sequence q) (hs : Utf8Text s) : Utf8Text (q ++ s) := by
  obtain ⟨qs, hqs, rfl⟩ := hs
  exact ⟨q :: qs, by simpa using ⟨hq, hqs⟩, rfl⟩

/-- A sequence is a first byte and the bytes that byte lets follow. -/
theorem utf8Sequence_iff {q : List Byte} :
    utf8Sequence q ↔ ∃ b rest ranges, q = b :: rest ∧ utf8Lead b = some ranges ∧ List.Forall₂ byteIn rest ranges := by
  simp only [utf8Sequence, utf8Lead_eq_some_iff]
  constructor
  · rintro ⟨row, hrow, b, rest, rfl, hb, hrest⟩
    exact ⟨b, rest, row.2, rfl, ⟨row, hrow, hb, rfl⟩, hrest⟩
  · rintro ⟨b, rest, ranges, rfl, ⟨row, hrow, hb, rfl⟩, hrest⟩
    exact ⟨row, hrow, b, rest, rfl, hb, hrest⟩

/-- Text is empty or starts with a first byte, the bytes it lets follow, and text again. -/
theorem utf8Text_cons_iff {b : Byte} {s : List Byte} :
    Utf8Text (b :: s) ↔
      ∃ ranges, utf8Lead b = some ranges ∧ ∃ q r, List.Forall₂ byteIn q ranges ∧ Utf8Text r ∧ s = q ++ r := by
  constructor
  · rintro ⟨qs, hqs, hs⟩
    cases qs with
    | nil => cases hs
    | cons q qs =>
      obtain ⟨hq, htail⟩ := List.forall_mem_cons.1 hqs
      obtain ⟨b', rest, ranges, rfl, hlead, hrest⟩ := utf8Sequence_iff.1 hq
      obtain ⟨rfl, rfl⟩ := List.cons.inj hs
      exact ⟨ranges, hlead, rest, qs.flatten, hrest, ⟨qs, htail, rfl⟩, rfl⟩
  · rintro ⟨ranges, hlead, q, r, hq, hr, rfl⟩
    exact Utf8Text.append (utf8Sequence_iff.2 ⟨b, q, ranges, rfl, hlead, hq⟩) hr

/-- The scan accepts the bytes still owed to the current sequence, followed by text. -/
theorem utf8Scan_iff {owed : List (Nat × Nat)} {s : List Byte} :
    utf8Scan owed s = true ↔ ∃ q r, List.Forall₂ byteIn q owed ∧ Utf8Text r ∧ s = q ++ r := by
  induction s generalizing owed with
  | nil =>
    rw [utf8Scan, List.isEmpty_iff]
    constructor
    · rintro rfl
      exact ⟨[], [], .nil, .nil, rfl⟩
    · rintro ⟨q, r, hq, -, hs⟩
      obtain ⟨rfl, -⟩ := List.append_eq_nil_iff.1 hs.symm
      exact List.forall₂_nil_left_iff.1 hq
  | cons b s ih =>
    cases owed with
    | nil =>
      have hnil : (∃ q r, List.Forall₂ byteIn q [] ∧ Utf8Text r ∧ b :: s = q ++ r) ↔ Utf8Text (b :: s) := by
        simp
      rw [hnil, utf8Text_cons_iff]
      cases hlead : utf8Lead b with
      | none => simp [utf8Scan, hlead]
      | some ranges => simp [utf8Scan, hlead, ih]
    | cons range owed =>
      rw [utf8Scan, Bool.and_eq_true, Bool.and_eq_true, decide_eq_true_eq, decide_eq_true_eq, ih]
      constructor
      · rintro ⟨hb, q, r, hq, hr, rfl⟩
        exact ⟨b :: q, r, .cons hb hq, hr, rfl⟩
      · rintro ⟨q, r, hq, hr, hs⟩
        cases hq with
        | cons hb hq =>
          obtain ⟨rfl, rfl⟩ := List.cons.inj hs
          exact ⟨hb, _, r, hq, hr, rfl⟩

/-- Settles O27: a string is scanned with nothing owed (`utf8Scan_iff`). -/
theorem textCheckIsTable : Obligations.TextCheckIsTable := by
  intro s
  rw [utf8WellFormed, utf8Scan_iff]
  simp [Utf8Text]

end Sys2Proof.Machine
end

section
/-! O28, O29, O30 and O35: how a cipher command ends, and the two encrypt commands (45_cipher.md R250 to R263, R270, R271, R274,
R275). Where the checks pass every block value is below N, so no block fails. -/

namespace Sys2Proof.Machine

/-! ### The ends of a cipher command (40_control.md R145, R146; 45_cipher.md R250, R257, R271) -/

/-- BLOCK_SIZE is written at the start, however the command ends. -/
theorem exec_cipher_blockSize {i : Instr} {s t : State} (hc : i.isCipher = true) (h : exec i s = .next t) :
    t.blockSize = BitVec.ofNat 32 (blockSizeOf (s.W .n)) := by
  obtain ⟨u, hstart, hend, -⟩ := exec_cases h
  rw [hend.keeps.blockSize, hstart.blockSize, if_pos hc]

theorem exec_cipher_blockSize_zero {i : Instr} {s t : State} (hc : i.isCipher = true) (h : exec i s = .next t)
    (h9 : bitlen (s.W .n) < 9) : t.blockSize = 0 := by
  have hbs : blockSizeOf (s.W .n) = 0 := if_pos h9
  exact (exec_cipher_blockSize hc h).trans (congrArg (BitVec.ofNat 32) hbs)

/-- Of the four ways a cipher command ends, only a failure sets ERR. -/
theorem exec_cipher_err {i : Instr} {s t : State} (hc : i.isCipher = true) (h : exec i s = .next t)
    (herr : t.status.err = true) : ∃ u e, Started i s u ∧ t = u.raise i e := by
  obtain ⟨u, hstart, hend, -⟩ := exec_cases h
  cases hend with
  | failed e h => exact ⟨u, e, hstart, h⟩
  | wrote w v hc' _ _ h => rw [hc] at hc'; cases hc'
  | output out _ h => simp [h] at herr
  | waiting req _ h => simp [h, hstart.status] at herr

/-- Settles O35: the error epilogue drops the output and nothing else a cipher command's start has left as it was. -/
theorem cipherErrorOutput : Obligations.CipherErrorOutput := by
  intro i s t hc h herr
  have hblock := exec_cipher_blockSize hc h
  obtain ⟨u, e, hstart, rfl⟩ := exec_cipher_err hc h herr
  have hwide := hstart.raise_wide e
  refine ⟨by rw [State.raise_outLen, if_pos hc], fun j hj => ?out, hblock, by rw [hwide], by rw [hwide], by rw [hwide],
    fun j hj => ?input, by rw [State.raise_msgLen, hstart.msgLen]⟩
  case out => rw [State.outByte, State.raise_read, if_pos ⟨hc, by omega, by omega⟩]
  case input =>
    simp only [bufWindow] at hj
    rw [State.raise_read, if_neg (by simp only [inBase, outBase]; omega), hstart.mem]

/-- An output no longer than OUT_BUF's window is held whole, and nothing beyond it. -/
theorem State.setOutput_holdsOutput (s : State) {out : List Byte} (h : out.length ≤ bufWindow) :
    (s.setOutput out).finish.HoldsOutput out := by
  refine ⟨?len, fun j hj => ?byte⟩
  case len =>
    rw [State.finish_outLen, State.setOutput_outLen, BitVec.toNat_ofNat]
    simp only [bufWindow] at h
    omega
  case byte =>
    rw [State.outByte, State.finish_mem, State.setOutput_read, Nat.add_sub_cancel_left]
    by_cases hlt : j < out.length
    · rw [if_pos (by omega)]
    · rw [if_neg (by omega), if_pos (by omega), List.getElem?_eq_none (by omega)]

/-- The success of a cipher command with an output and blocks that fit the buffer. -/
theorem Started.output_ends {i : Instr} {s u : State} {out : List Byte} (h : Started i s u) (hc : i.isCipher = true)
    (hl : s.params.legal = true) (hout : out.length ≤ s.params.bufBytes)
    (hbs : blockSizeOf (s.W .n) ≤ s.params.bufBytes) :
    (u.setOutput out).finish.Completed i s ∧ (u.setOutput out).finish.blockSize.toNat = blockSizeOf (s.W .n) ∧
      (u.setOutput out).finish.HoldsOutput out := by
  have hbuf := (Params.buf_le hl).1
  refine ⟨State.finish_completed (u := u.setOutput out) h.status, ?_, u.setOutput_holdsOutput (hout.trans hbuf)⟩
  rw [State.finish_blockSize, State.setOutput_blockSize, h.blockSize, if_pos hc, BitVec.toNat_ofNat]
  omega

section
variable {i : Instr} {s : State} {res : Except Err (List Byte)}
  (hexec : exec i s = (s.startCipher i).settle i res (fun out t => t.setOutput out)) (hc : i.isCipher = true)
include hexec hc

/-- A cipher command that draws nothing ends with its output. -/
theorem exec_outputs {out : List Byte} (hres : res = .ok out) (hl : s.params.legal = true)
    (hout : out.length ≤ s.params.bufBytes) (hbs : blockSizeOf (s.W .n) ≤ s.params.bufBytes) :
    ∃ t, exec i s = .next t ∧ t.Completed i s ∧ t.blockSize.toNat = blockSizeOf (s.W .n) ∧ t.HoldsOutput out :=
  ⟨_, by rw [hexec, hres, State.settle], (started_cipher i s hc).output_ends hc hl hout hbs⟩

/-- A cipher command that draws nothing ends with its error. -/
theorem exec_cipher_raises {e : Err} (hres : res = .error e) : ∃ t, exec i s = .next t ∧ t.FailedWith i e s :=
  ⟨_, by rw [hexec, hres, State.settle], (started_cipher i s hc).raise_failedWith e⟩

end

/-! ### The checks before any block (45_cipher.md R250, R258) -/

section
variable {buf n len outLen : Nat}

theorem encryptError_of_bitlen (h9 : bitlen n < 9) : encryptError buf n len outLen = some .badOperand := if_pos h9

theorem encryptError_of_len (h9 : 9 ≤ bitlen n) (hlen : buf < len) :
    encryptError buf n len outLen = some .bufferOverflow := by
  rw [encryptError, if_neg (by omega), if_pos hlen]

theorem encryptError_of_pad (h9 : 9 ≤ bitlen n) (hlen : len ≤ buf) (hpad : 255 < padSize len (blockSizeOf n)) :
    encryptError buf n len outLen = some .badOperand := by
  rw [encryptError, if_neg (by omega), if_neg (by omega), if_pos hpad]

theorem encryptError_of_outLen (h9 : 9 ≤ bitlen n) (hlen : len ≤ buf) (hpad : padSize len (blockSizeOf n) ≤ 255)
    (hout : buf < outLen) : encryptError buf n len outLen = some .bufferOverflow := by
  rw [encryptError, if_neg (by omega), if_neg (by omega), if_neg (by omega), if_pos hout]

end

/-- ENC_ECB's checks (45_cipher.md R270). -/
def State.ecbError (s : State) : Option Err :=
  encryptError s.params.bufBytes (s.W .n) s.inputLen (ecbOutLen s.inputLen (blockSizeOf (s.W .n)))

/-- ENC_CBC's checks (45_cipher.md R274). -/
def State.cbcError (s : State) : Option Err :=
  encryptError s.params.bufBytes (s.W .n) s.inputLen (cbcOutLen s.inputLen (blockSizeOf (s.W .n)))

theorem exec_encEcb_fails {s : State} {e : Err} (h : s.ecbError = some e) :
    ∃ t, exec .encEcb s = .next t ∧ t.FailedWith .encEcb e s := by
  refine exec_cipher_raises (exec_encEcb_eq s) rfl ?_
  rw [State.ecbError] at h
  simp only [encEcbResult, h]

/-- An ENC_CBC whose checks fail draws no iv. -/
theorem exec_encCbc_fails {s : State} {e : Err} (h : s.cbcError = some e) :
    ∃ t, exec .encCbc s = .next t ∧ t.FailedWith .encCbc e s ∧ t.entropy = s.stream := by
  have hres : encCbcResult s = .err e s.stream := by
    rw [State.cbcError] at h
    simp only [encCbcResult, h]
  have hstart := (started_cipher .encCbc s rfl).withEntropy s.stream rfl
  exact ⟨_, by rw [exec_encCbc_eq, hres, State.settleDrawn], hstart.raise_failedWith e, State.raise_entropy ..⟩

/-- Settles O30: the checks come before any block and any draw, and BLOCK_SIZE is written before them. -/
theorem encryptChecks : Obligations.EncryptChecks := by
  intro s
  refine ⟨fun h9 => ⟨?ecbBlockSize, ?cbcBlockSize⟩, fun h9 hlen => ?len, fun h9 hlen hpad => ?pad,
    fun h9 hlen hpad => ⟨fun hout => ?ecbOut, fun hout => ?cbcOut⟩⟩
  case ecbBlockSize =>
    obtain ⟨t, hexec, hfail⟩ := exec_encEcb_fails (s := s) (encryptError_of_bitlen h9)
    exact ⟨t, hexec, hfail, exec_cipher_blockSize_zero rfl hexec h9⟩
  case cbcBlockSize =>
    obtain ⟨t, hexec, hfail, hentropy⟩ := exec_encCbc_fails (s := s) (encryptError_of_bitlen h9)
    exact ⟨t, hexec, hfail, exec_cipher_blockSize_zero rfl hexec h9, hentropy⟩
  case len => exact ⟨exec_encEcb_fails (encryptError_of_len h9 hlen), exec_encCbc_fails (encryptError_of_len h9 hlen)⟩
  case pad =>
    exact ⟨exec_encEcb_fails (encryptError_of_pad h9 hlen hpad), exec_encCbc_fails (encryptError_of_pad h9 hlen hpad)⟩
  case ecbOut => exact exec_encEcb_fails (encryptError_of_outLen h9 hlen hpad hout)
  case cbcOut => exact exec_encCbc_fails (encryptError_of_outLen h9 hlen hpad hout)

/-! ### The blocks (45_cipher.md R251, R252, R259, R270, R274) -/

theorem blockInt_lt (s : List Byte) (size i : Nat) : blockInt s size i < 2 ^ (8 * size) := by
  rw [two_pow_eight_mul]
  exact beInt_lt_of_length_le (List.length_take_le _ _)

/-- Under an N with blocks of bs bytes, what bs bytes can hold is below N (45_cipher.md R251). -/
theorem two_pow_le_of_bitlen {n : Nat} (h9 : 9 ≤ bitlen n) : 2 ^ (8 * blockSizeOf n) ≤ n := by
  obtain ⟨-, hlo, -⟩ := blockSizeOf_spec n h9
  rwa [two_pow_eight_mul]

theorem mask_lt (bs : Nat) (prev : List Byte) : mask bs prev < 2 ^ (8 * bs) := by
  rw [mask_eq]
  exact Nat.mod_lt _ (Nat.two_pow_pos _)

/-- The mask of a serialized block is its integer's low bs bytes; of an iv, the iv. -/
theorem mask_beBytes {bs k : Nat} (c : Nat) (h : bs ≤ k) : mask bs (beBytes c k) = c % 2 ^ (8 * bs) := by
  rw [mask_eq, beInt_beBytes, two_pow_eight_mul, Nat.mod_mod_of_dvd _ (pow_dvd_pow 256 h)]

section
variable {n e bs : Nat}

theorem encryptBlock_of_lt {x : Nat} (hx : x < n) : encryptBlock n e bs x = .ok (beBytes (x ^ e % n) (bs + 1)) := by
  rw [encryptBlock, if_neg (by omega), modexp_eq _ _ _ (by omega)]

theorem ecbCipher_zero (pm : List Byte) : ecbCipher n e bs pm 0 = beInt (pm.take bs) ^ e % n := by
  rw [ecbCipher, blockInt_zero]

theorem ecbCipher_succ (pm : List Byte) (i : Nat) : ecbCipher n e bs pm (i + 1) = ecbCipher n e bs (pm.drop bs) i := by
  rw [ecbCipher, blockInt_succ, ecbCipher]

theorem encEcbBlocks_eq (hn : 2 ^ (8 * bs) ≤ n) (nb : Nat) (pm : List Byte) :
    encEcbBlocks n e bs nb pm = .ok (serialized bs nb (ecbCipher n e bs pm)) := by
  induction nb generalizing pm with
  | zero => rfl
  | succ nb ih =>
    have hx := (blockInt_lt pm bs 0).trans_le hn
    rw [blockInt_zero] at hx
    simp only [encEcbBlocks, encryptBlock_of_lt hx, ih, prepend, serialized_succ, ecbCipher_zero, ecbCipher_succ]

theorem cbcCipher_zero (iv : Nat) (pm : List Byte) :
    cbcCipher n e bs iv pm 0 = (beInt (pm.take bs) ^^^ iv) ^ e % n := by
  rw [cbcCipher, blockInt_zero]

/-- The blocks after the first are those of the rest of the message, with the first block as the mask's source. -/
theorem cbcCipher_succ (iv : Nat) (pm : List Byte) (i : Nat) :
    cbcCipher n e bs iv pm (i + 1) =
      cbcCipher n e bs (cbcCipher n e bs iv pm 0 % 2 ^ (8 * bs)) (pm.drop bs) i := by
  induction i with
  | zero => simp only [cbcCipher, blockInt_succ]
  | succ i ih =>
    change (blockInt pm bs (i + 1 + 1) ^^^ (cbcCipher n e bs iv pm (i + 1) % 2 ^ (8 * bs))) ^ e % n = _
    rw [ih, blockInt_succ, ← cbcCipher]

theorem encCbcBlocks_eq (hn : 2 ^ (8 * bs) ≤ n) (nb : Nat) (prev pm : List Byte) :
    encCbcBlocks n e bs nb prev pm = .ok (serialized bs nb (cbcCipher n e bs (mask bs prev) pm)) := by
  induction nb generalizing prev pm with
  | zero => rfl
  | succ nb ih =>
    have hx := (Nat.xor_lt_two_pow (blockInt_lt pm bs 0) (mask_lt bs prev)).trans_le hn
    rw [blockInt_zero] at hx
    simp only [encCbcBlocks, encryptBlock_of_lt hx, ih, prepend, serialized_succ, mask_beBytes _ (Nat.le_succ bs),
      cbcCipher_zero, cbcCipher_succ]

end

/-! ### The two commands (45_cipher.md R270, R271, R274, R275) -/

/-- ENC_ECB's output, in the words of the claims. -/
def State.ecbOutput (s : State) : List Byte :=
  serialized (blockSizeOf (s.W .n)) (blockCount s.inputLen (blockSizeOf (s.W .n)))
    (ecbCipher (s.W .n) (s.W .e) (blockSizeOf (s.W .n)) (pad s.input (blockSizeOf (s.W .n))))

/-- ENC_CBC's output for an iv, in the words of the claims. -/
def State.cbcOutput (s : State) (iv : Nat) : List Byte :=
  beBytes iv (blockSizeOf (s.W .n)) ++
    serialized (blockSizeOf (s.W .n)) (blockCount s.inputLen (blockSizeOf (s.W .n)))
      (cbcCipher (s.W .n) (s.W .e) (blockSizeOf (s.W .n)) iv (pad s.input (blockSizeOf (s.W .n))))

theorem encEcbResult_of_checks {s : State} (h : s.ecbError = none) : encEcbResult s = .ok s.ecbOutput := by
  obtain ⟨h9, -⟩ := encryptError_eq_none_iff.1 h
  rw [State.ecbError] at h
  simp only [encEcbResult, h, encEcbBlocks_eq (two_pow_le_of_bitlen h9), State.ecbOutput]

/-- The iv is the port's answer, folded into bs bytes (log 9). -/
theorem encCbcResult_of_checks {s : State} {answer : Nat} {rest : List Nat} (h : s.cbcError = none)
    (hstream : s.stream = answer :: rest) :
    encCbcResult s = .ok (s.cbcOutput (answer % 2 ^ (8 * blockSizeOf (s.W .n)))) rest := by
  obtain ⟨h9, -⟩ := encryptError_eq_none_iff.1 h
  rw [State.cbcError] at h
  simp only [encCbcResult, h, hstream, draw_cons, Drawn.andThen_ok, DrawReq.intoRange, encCbcOutput,
    encCbcBlocks_eq (two_pow_le_of_bitlen h9), mask_beBytes _ le_rfl, Nat.mod_mod, prepend, Drawn.ofExcept,
    State.cbcOutput]

theorem le_ecbOutLen (len bs : Nat) : bs ≤ ecbOutLen len bs :=
  (Nat.le_succ bs).trans (Nat.le_mul_of_pos_left _ (Nat.succ_pos _))

theorem exec_encEcb_outputs {s : State} (hl : s.params.legal = true) (h : s.ecbError = none) :
    ∃ t, exec .encEcb s = .next t ∧ t.Completed .encEcb s ∧ t.blockSize.toNat = blockSizeOf (s.W .n) ∧
      t.HoldsOutput s.ecbOutput := by
  have hres := encEcbResult_of_checks h
  obtain ⟨-, -, -, hout⟩ := encryptError_eq_none_iff.1 h
  exact exec_outputs (exec_encEcb_eq s) rfl hres hl (encEcbResult_length_le hres) ((le_ecbOutLen _ _).trans hout)

theorem exec_encCbc_outputs {s : State} {answer : Nat} {rest : List Nat} (hl : s.params.legal = true)
    (h : s.cbcError = none) (hstream : s.stream = answer :: rest) :
    ∃ t, exec .encCbc s = .next t ∧ t.Completed .encCbc s ∧ t.blockSize.toNat = blockSizeOf (s.W .n) ∧
      t.entropy = rest ∧ t.HoldsOutput (s.cbcOutput (answer % 2 ^ (8 * blockSizeOf (s.W .n)))) := by
  have hres := encCbcResult_of_checks h hstream
  obtain ⟨-, -, -, hout⟩ := encryptError_eq_none_iff.1 h
  have hstart := (started_cipher .encCbc s rfl).withEntropy rest rfl
  obtain ⟨hdone, hblock, hholds⟩ :=
    hstart.output_ends rfl hl (encCbcResult_length_le hres) ((Nat.le_add_right _ _).trans hout)
  exact ⟨_, by rw [exec_encCbc_eq, hres, State.settleDrawn], hdone, hblock, rfl, hholds⟩

/-- Settles O28: no block fails, as every block value is below N. -/
theorem Cipher.encEcbResult : Obligations.EncEcbResult :=
  fun _ hl h9 hlen hpad hout => exec_encEcb_outputs hl (encryptError_eq_none_iff.2 ⟨h9, hlen, hpad, hout⟩)

/-- Settles O29: an answer in range is the iv itself, and no block fails. -/
theorem Cipher.encCbcResult : Obligations.EncCbcResult := by
  intro s answer rest hl h9 hlen hpad hout hstream hrange
  have h := exec_encCbc_outputs hl (encryptError_eq_none_iff.2 ⟨h9, hlen, hpad, hout⟩) hstream
  rwa [Nat.mod_eq_of_lt hrange] at h

end Sys2Proof.Machine
end

section
/-! O31, O32, O33 and O34: the two decrypt commands (45_cipher.md R272, R273, R276, R277). The blocks decrypt to the claims'
integers as long as each passes check 4, and the first that does not decides the error. -/

namespace Sys2Proof.Machine

/-! ### The blocks (45_cipher.md R259, R272, R276; R273 and R277 check 4) -/

section
variable {n d bs : Nat}

theorem decryptBlock_of_good {cb : List Byte} (hc : beInt cb < n) (hy : beInt cb ^ d % n < 2 ^ (8 * bs)) :
    decryptBlock n d bs cb = .ok (beInt cb ^ d % n) := by
  rw [decryptBlock, modexp_eq _ _ _ (by omega), if_neg (by omega), if_neg (by omega)]

theorem decryptBlock_of_large {cb : List Byte} (hc : n ≤ beInt cb) : decryptBlock n d bs cb = .error .blockOverflow :=
  if_pos hc

theorem decryptBlock_of_wide {cb : List Byte} (hc : beInt cb < n) (hy : 2 ^ (8 * bs) ≤ beInt cb ^ d % n) :
    decryptBlock n d bs cb = .error .decoding := by
  rw [decryptBlock, modexp_eq _ _ _ (by omega), if_neg (by omega), if_pos hy]

theorem decryptedInt_zero (ct : List Byte) : decryptedInt n d bs ct 0 = beInt (ct.take (bs + 1)) ^ d % n := by
  rw [decryptedInt, blockInt_zero]

theorem decryptedInt_succ (ct : List Byte) (i : Nat) :
    decryptedInt n d bs ct (i + 1) = decryptedInt n d bs (ct.drop (bs + 1)) i := by
  rw [decryptedInt, blockInt_succ, decryptedInt]

theorem unmaskedInt_zero (iv : Nat) (ct : List Byte) :
    unmaskedInt n d bs iv ct 0 = beInt (ct.take (bs + 1)) ^ d % n ^^^ iv := by
  rw [unmaskedInt, decryptedInt_zero]

/-- The blocks after the first are those of the rest of the ciphertext, with the first block as the mask's source. -/
theorem unmaskedInt_succ (iv : Nat) (ct : List Byte) (i : Nat) :
    unmaskedInt n d bs iv ct (i + 1) =
      unmaskedInt n d bs (mask bs (ct.take (bs + 1))) (ct.drop (bs + 1)) i := by
  rw [mask_eq]
  cases i with
  | zero => simp only [unmaskedInt, decryptedInt_succ, blockInt_zero]
  | succ i => rw [unmaskedInt, decryptedInt_succ, blockInt_succ, unmaskedInt]

theorem decryptBlock_of_blockGood {ct : List Byte} (h : blockGood n d bs ct 0) :
    decryptBlock n d bs (ct.take (bs + 1)) = .ok (beInt (ct.take (bs + 1)) ^ d % n) := by
  rw [blockGood, blockInt_zero, decryptedInt_zero] at h
  exact decryptBlock_of_good h.1 h.2

theorem blockGood_succ {ct : List Byte} {i : Nat} :
    blockGood n d bs ct (i + 1) ↔ blockGood n d bs (ct.drop (bs + 1)) i := by
  rw [blockGood, blockInt_succ, decryptedInt_succ]

theorem decEcbBlocks_of_good {nb : Nat} {ct : List Byte} (h : ∀ i < nb, blockGood n d bs ct i) :
    decEcbBlocks n d bs nb ct = .ok (joined bs nb (decryptedInt n d bs ct)) := by
  induction nb generalizing ct with
  | zero => rfl
  | succ nb ih =>
    have htail := ih fun i hi => blockGood_succ.1 (h (i + 1) (by omega))
    simp only [decEcbBlocks, decryptBlock_of_blockGood (h 0 (by omega)), htail, prepend, joined_succ,
      decryptedInt_zero, decryptedInt_succ]

theorem decCbcBlocks_of_good {nb : Nat} {prev ct : List Byte} (h : ∀ i < nb, blockGood n d bs ct i) :
    decCbcBlocks n d bs nb prev ct = .ok (joined bs nb (unmaskedInt n d bs (mask bs prev) ct)) := by
  induction nb generalizing prev ct with
  | zero => rfl
  | succ nb ih =>
    have htail := ih (prev := ct.take (bs + 1)) fun i hi => blockGood_succ.1 (h (i + 1) (by omega))
    simp only [decCbcBlocks, decryptBlock_of_blockGood (h 0 (by omega)), htail, prepend, joined_succ,
      unmaskedInt_zero, unmaskedInt_succ]

/-- The first block that fails decides the error. -/
theorem decEcbBlocks_of_bad {nb i : Nat} {ct : List Byte} {e : Err} (hi : i < nb)
    (hgood : ∀ j < i, blockGood n d bs ct j)
    (hbad : decryptBlock n d bs ((ct.drop (i * (bs + 1))).take (bs + 1)) = .error e) :
    decEcbBlocks n d bs nb ct = .error e := by
  induction i generalizing nb ct with
  | zero =>
    obtain ⟨nb, rfl⟩ := Nat.exists_eq_add_of_lt hi
    rw [Nat.zero_mul, List.drop_zero] at hbad
    simp only [decEcbBlocks, hbad]
  | succ i ih =>
    obtain ⟨nb, rfl⟩ := Nat.exists_eq_succ_of_ne_zero (Nat.ne_zero_of_lt hi)
    have hdrop : ct.drop ((i + 1) * (bs + 1)) = (ct.drop (bs + 1)).drop (i * (bs + 1)) := by
      rw [List.drop_drop, Nat.succ_mul, Nat.add_comm]
    have htail := ih (Nat.lt_of_succ_lt_succ hi) (fun j hj => blockGood_succ.1 (hgood (j + 1) (by omega))) (hdrop ▸ hbad)
    simp only [decEcbBlocks, decryptBlock_of_blockGood (hgood 0 (by omega)), htail, prepend]

theorem prepend_eq_error_iff {out : List Byte} {r : Except Err (List Byte)} {e : Err} :
    prepend out r = .error e ↔ r = .error e := by
  cases r <;> simp [prepend]

/-- The masks decide no error. -/
theorem decCbcBlocks_eq_error_iff {nb : Nat} {prev ct : List Byte} {e : Err} :
    decCbcBlocks n d bs nb prev ct = .error e ↔ decEcbBlocks n d bs nb ct = .error e := by
  induction nb generalizing prev ct with
  | zero => simp [decCbcBlocks, decEcbBlocks]
  | succ nb ih =>
    rw [decCbcBlocks, decEcbBlocks]
    cases decryptBlock n d bs (ct.take (bs + 1)) with
    | error e' => rfl
    | ok y => exact prepend_eq_error_iff.trans (ih.trans prepend_eq_error_iff.symm)

end

/-! ### The end of a decryption (45_cipher.md R255, R256) -/

theorem unpad_eq_error {s : List Byte} {e : Err} (h : unpad s = .error e) : e = .invalidPadding := by
  unfold unpad at h
  split at h
  · cases h; rfl
  · split at h <;> cases h
    rfl

section
variable {txt : Bool} {padded : List Byte}

theorem finishText_of_unpad_error {e : Err} (h : unpad padded = .error e) :
    finishText txt padded = .error .invalidPadding := by
  rw [finishText, h, unpad_eq_error h]

theorem finishText_of_not_text {msg : List Byte} (h : unpad padded = .ok msg) (htxt : txt = true)
    (hmsg : utf8WellFormed msg = false) : finishText txt padded = .error .decoding := by
  simp [finishText, h, checkText, htxt, hmsg]

theorem finishText_of_text {msg : List Byte} (h : unpad padded = .ok msg)
    (hmsg : txt = true → utf8WellFormed msg = true) : finishText txt padded = .ok msg := by
  simpa [finishText, h, checkText] using hmsg

end

/-- Checks 4 to 6 of R273 and R277, of a command whose result is the first bad block's error, or else what unpad and the text
check make of the blocks. -/
theorem decrypt_fails {n d bs nb : Nat} {ct : List Byte} {m : Nat → Nat} {txt : Bool} {res : Except Err (List Byte)}
    {fails : Err → Prop} (raises : ∀ {e}, res = .error e → fails e)
    (hbad : ∀ {e}, decEcbBlocks n d bs nb ct = .error e → res = .error e)
    (hgood : (∀ i < nb, blockGood n d bs ct i) → res = finishText txt (joined bs nb m)) :
    (∀ i < nb, (∀ j < i, blockGood n d bs ct j) →
      (n ≤ blockInt ct (bs + 1) i → fails .blockOverflow) ∧
      (blockInt ct (bs + 1) i < n → 2 ^ (8 * bs) ≤ decryptedInt n d bs ct i → fails .decoding)) ∧
    ((∀ i < nb, blockGood n d bs ct i) →
      (∀ e, unpad (joined bs nb m) = .error e → fails .invalidPadding) ∧
      ∀ msg, unpad (joined bs nb m) = .ok msg → txt = true → utf8WellFormed msg = false → fails .decoding) := by
  refine ⟨fun i hi hfirst => ⟨fun hlarge => ?large, fun hc hwide => ?wide⟩,
    fun hall => ⟨fun e hunpad => ?unpad, fun msg hunpad htxt hmsg => ?text⟩⟩
  case large => exact raises (hbad (decEcbBlocks_of_bad hi hfirst (decryptBlock_of_large hlarge)))
  case wide => exact raises (hbad (decEcbBlocks_of_bad hi hfirst (decryptBlock_of_wide hc hwide)))
  case unpad => exact raises ((hgood hall).trans (finishText_of_unpad_error hunpad))
  case text => exact raises ((hgood hall).trans (finishText_of_not_text hunpad htxt hmsg))

/-! ### The checks before any block (45_cipher.md R273, R277 checks 1 to 3) -/

section
variable {buf n len : Nat}

theorem decEcbError_of_bitlen (h9 : bitlen n < 9) : decEcbError buf n len = some .badOperand := if_pos h9

theorem decEcbError_of_len (h9 : 9 ≤ bitlen n) (hlen : buf < len) : decEcbError buf n len = some .bufferOverflow := by
  rw [decEcbError, if_neg (by omega), if_pos hlen]

theorem decEcbError_of_blocks (h9 : 9 ≤ bitlen n) (hlen : len ≤ buf) (hmod : len % (blockSizeOf n + 1) ≠ 0) :
    decEcbError buf n len = some .decoding := by
  rw [decEcbError, if_neg (by omega), if_neg (by omega), if_pos hmod]

theorem decEcbError_of_pass (h9 : 9 ≤ bitlen n) (hlen : len ≤ buf) (hmod : len % (blockSizeOf n + 1) = 0) :
    decEcbError buf n len = none := by
  rw [decEcbError, if_neg (by omega), if_neg (by omega), if_neg (by omega)]

theorem decCbcError_of_bitlen (h9 : bitlen n < 9) : decCbcError buf n len = some .badOperand := if_pos h9

theorem decCbcError_of_len (h9 : 9 ≤ bitlen n) (hlen : buf < len) : decCbcError buf n len = some .bufferOverflow := by
  rw [decCbcError, if_neg (by omega), if_pos hlen]

theorem decCbcError_of_blocks (h9 : 9 ≤ bitlen n) (hlen : len ≤ buf)
    (hmod : len < blockSizeOf n ∨ (len - blockSizeOf n) % (blockSizeOf n + 1) ≠ 0) :
    decCbcError buf n len = some .decoding := by
  rw [decCbcError, if_neg (by omega), if_neg (by omega), if_pos hmod]

theorem decCbcError_of_pass (h9 : 9 ≤ bitlen n) (hlen : len ≤ buf) (hbs : blockSizeOf n ≤ len)
    (hmod : (len - blockSizeOf n) % (blockSizeOf n + 1) = 0) : decCbcError buf n len = none := by
  rw [decCbcError, if_neg (by omega), if_neg (by omega), if_neg (by omega)]

end

/-! ### DEC_ECB (45_cipher.md R272, R273) -/

section
variable {s : State}

theorem decEcbResult_of_error {e : Err} (h : decEcbError s.params.bufBytes (s.W .n) s.inputLen = some e) :
    decEcbResult s = .error e := by
  simp only [decEcbResult, h]

theorem decEcbResult_of_bad {e : Err} (h : decEcbError s.params.bufBytes (s.W .n) s.inputLen = none)
    (hbad : decEcbBlocks (s.W .n) (s.W .d) (blockSizeOf (s.W .n)) (s.inputLen / (blockSizeOf (s.W .n) + 1)) s.input =
      .error e) : decEcbResult s = .error e := by
  simp only [decEcbResult, h, hbad]

theorem decEcbResult_of_good (h : decEcbError s.params.bufBytes (s.W .n) s.inputLen = none)
    (hgood : ∀ i < s.inputLen / (blockSizeOf (s.W .n) + 1),
      blockGood (s.W .n) (s.W .d) (blockSizeOf (s.W .n)) s.input i) :
    decEcbResult s = finishText s.txtSnapshot
      (joined (blockSizeOf (s.W .n)) (s.inputLen / (blockSizeOf (s.W .n) + 1))
        (decryptedInt (s.W .n) (s.W .d) (blockSizeOf (s.W .n)) s.input)) := by
  simp only [decEcbResult, h, decEcbBlocks_of_good hgood]

end

/-- A padded message that unpad accepts has a block, so a ciphertext that gave it holds a whole block. -/
theorem lt_of_unpad_joined {len bs : Nat} {m : Nat → Nat} {msg : List Byte}
    (h : unpad (joined bs (len / (bs + 1)) m) = .ok msg) : bs < len := by
  by_contra hlen
  rw [Nat.div_eq_of_lt (by omega)] at h
  cases h

/-- Settles O31: every block is good, so the blocks give the claim's integers. -/
theorem Cipher.decEcbResult : Obligations.DecEcbResult := by
  intro s msg hl h9 hlen hmod hgood hunpad htxt
  have hres := (decEcbResult_of_good (decEcbError_of_pass h9 hlen hmod) hgood).trans (finishText_of_text hunpad htxt)
  exact exec_outputs (exec_decEcb_eq s) rfl hres hl (decEcbResult_length_le hres)
    ((lt_of_unpad_joined hunpad).le.trans hlen)

/-- Settles O32: the checks in the order of `decEcbError`, `decEcbBlocks` and `finishText`. -/
theorem decEcbChecks : Obligations.DecEcbChecks := by
  intro s n bs nb fails
  have raises : ∀ {e : Err}, Machine.decEcbResult s = .error e → fails e := exec_cipher_raises (exec_decEcb_eq s) rfl
  refine ⟨fun h9 => raises (decEcbResult_of_error (decEcbError_of_bitlen h9)),
    fun h9 hlen => raises (decEcbResult_of_error (decEcbError_of_len h9 hlen)),
    fun h9 hlen hmod => raises (decEcbResult_of_error (decEcbError_of_blocks h9 hlen hmod)),
    fun h9 hlen hmod => ?blocks⟩
  case blocks =>
    have hpass := decEcbError_of_pass h9 hlen hmod
    exact decrypt_fails raises (decEcbResult_of_bad hpass) (decEcbResult_of_good hpass)

/-! ### DEC_CBC (45_cipher.md R276, R277) -/

/-- A leading iv of at most bs bytes is its own mask. -/
theorem mask_take (bs : Nat) (s : List Byte) : mask bs (s.take bs) = beInt (s.take bs) := by
  rw [mask_eq, two_pow_eight_mul, Nat.mod_eq_of_lt (beInt_lt_of_length_le (List.length_take_le _ _))]

section
variable {s : State}

theorem decCbcResult_of_error {e : Err} (h : decCbcError s.params.bufBytes (s.W .n) s.inputLen = some e) :
    decCbcResult s = .error e := by
  simp only [decCbcResult, h]

theorem decCbcResult_of_bad {e : Err} (h : decCbcError s.params.bufBytes (s.W .n) s.inputLen = none)
    (hbad : decEcbBlocks (s.W .n) (s.W .d) (blockSizeOf (s.W .n))
      ((s.inputLen - blockSizeOf (s.W .n)) / (blockSizeOf (s.W .n) + 1)) (s.input.drop (blockSizeOf (s.W .n))) =
        .error e) : decCbcResult s = .error e := by
  simp only [decCbcResult, h, decCbcBlocks_eq_error_iff.2 hbad]

theorem decCbcResult_of_good (h : decCbcError s.params.bufBytes (s.W .n) s.inputLen = none)
    (hgood : ∀ i < (s.inputLen - blockSizeOf (s.W .n)) / (blockSizeOf (s.W .n) + 1),
      blockGood (s.W .n) (s.W .d) (blockSizeOf (s.W .n)) (s.input.drop (blockSizeOf (s.W .n))) i) :
    decCbcResult s = finishText s.txtSnapshot
      (joined (blockSizeOf (s.W .n)) ((s.inputLen - blockSizeOf (s.W .n)) / (blockSizeOf (s.W .n) + 1))
        (unmaskedInt (s.W .n) (s.W .d) (blockSizeOf (s.W .n)) (beInt (s.input.take (blockSizeOf (s.W .n))))
          (s.input.drop (blockSizeOf (s.W .n))))) := by
  simp only [decCbcResult, h, decCbcBlocks_of_good hgood, mask_take]

end

/-- Settles O33: every block is good, so the blocks give the claim's integers. -/
theorem Cipher.decCbcResult : Obligations.DecCbcResult := by
  intro s msg n bs nb iv ct hl h9 hlen hbs hmod hgood hunpad htxt
  have hres := (decCbcResult_of_good (decCbcError_of_pass h9 hlen hbs hmod) hgood).trans (finishText_of_text hunpad htxt)
  exact exec_outputs (exec_decCbc_eq s) rfl hres hl (decCbcResult_length_le hres) (hbs.trans hlen)

/-- Settles O34: the checks in the order of `decCbcError`, `decCbcBlocks` and `finishText`. -/
theorem decCbcChecks : Obligations.DecCbcChecks := by
  intro s n bs nb iv ct fails
  have raises : ∀ {e : Err}, Machine.decCbcResult s = .error e → fails e := exec_cipher_raises (exec_decCbc_eq s) rfl
  refine ⟨fun h9 => raises (decCbcResult_of_error (decCbcError_of_bitlen h9)),
    fun h9 hlen => raises (decCbcResult_of_error (decCbcError_of_len h9 hlen)),
    fun h9 hlen hmod => raises (decCbcResult_of_error (decCbcError_of_blocks h9 hlen hmod)),
    fun h9 hlen hbs hmod => ?blocks⟩
  case blocks =>
    have hpass := decCbcError_of_pass h9 hlen hbs hmod
    exact decrypt_fails raises (decCbcResult_of_bad hpass) (decCbcResult_of_good hpass)

end Sys2Proof.Machine
end

section
/-! O37 and O38: decryption under D undoes encryption under E (45_cipher.md R278). The encrypted integers are read back from the
ciphertext, RSA gives the block values back, the masks cancel, and unpad undoes pad. -/

namespace Sys2Proof.Machine

/-! ### Reading blocks back -/

/-- The integers of a serialization, read block by block. -/
theorem blockInt_serialized {bs nb i : Nat} {c : Nat → Nat} (hi : i < nb) (hc : c i < 256 ^ (bs + 1)) :
    blockInt (serialized bs nb c) (bs + 1) i = c i := by
  induction i generalizing nb c with
  | zero =>
    obtain ⟨nb, rfl⟩ := Nat.exists_eq_succ_of_ne_zero (Nat.ne_zero_of_lt hi)
    rw [blockInt_zero, serialized_succ, List.take_left' (beBytes_length _ _), beInt_beBytes_of_lt hc]
  | succ i ih =>
    obtain ⟨nb, rfl⟩ := Nat.exists_eq_succ_of_ne_zero (Nat.ne_zero_of_lt hi)
    rw [blockInt_succ, serialized_succ, List.drop_left' (beBytes_length _ _)]
    exact ih (Nat.lt_of_succ_lt_succ hi) hc

/-- A string of whole blocks is its block values, joined. -/
theorem joined_blockInt {bs nb : Nat} {s : List Byte} (h : s.length = nb * bs) : joined bs nb (blockInt s bs) = s := by
  induction nb generalizing s with
  | zero =>
    rw [Nat.zero_mul, List.length_eq_zero_iff] at h
    subst h
    rfl
  | succ nb ih =>
    rw [Nat.succ_mul] at h
    have hhead : (s.take bs).length = bs := by
      rw [List.length_take]
      omega
    have htail := ih (s := s.drop bs) (by rw [List.length_drop]; omega)
    have hfirst := beBytes_beInt (s.take bs)
    rw [hhead] at hfirst
    simp only [joined_succ, blockInt_zero, blockInt_succ, htail, hfirst, List.take_append_drop]

theorem joined_congr {bs nb : Nat} {m m' : Nat → Nat} (h : ∀ i < nb, m i = m' i) : joined bs nb m = joined bs nb m' := by
  induction nb generalizing m m' with
  | zero => rfl
  | succ nb ih => rw [joined_succ, joined_succ, h 0 (by omega), ih fun i hi => h (i + 1) (by omega)]

/-- The padded message is whole blocks, so joining its block values and unpadding gives the message. -/
theorem unpad_joined {msg : List Byte} {bs : Nat} {m : Nat → Nat} (hbs : 1 ≤ bs) (hpad : padSize msg.length bs ≤ 255)
    (hm : ∀ i < blockCount msg.length bs, m i = blockInt (pad msg bs) bs i) :
    unpad (joined bs (blockCount msg.length bs) m) = .ok msg := by
  have hlen : (pad msg bs).length = blockCount msg.length bs * bs := by
    rw [pad_length, add_padSize_eq _ hbs, Nat.mul_comm, blockCount]
  rw [joined_congr hm, joined_blockInt hlen, unpad_pad msg hbs hpad]

/-! ### RSA on serialized blocks (41_modarith.md R167) -/

section
variable {n e d bs nb : Nat} {x c : Nat → Nat} (hlo : 256 ^ bs ≤ n) (hhi : n < 256 ^ (bs + 1))
  (hrsa : ∀ v < n, (v ^ e % n) ^ d % n = v) (hx : ∀ i, x i < 2 ^ (8 * bs)) (hc : ∀ i, c i = x i ^ e % n)
include hlo hhi hrsa hx hc

/-- Encrypted integers are below N, so they are read back, and decrypt to what was encrypted. -/
theorem serialized_decrypts {i : Nat} (hi : i < nb) :
    blockInt (serialized bs nb c) (bs + 1) i = c i ∧ c i < n ∧ decryptedInt n d bs (serialized bs nb c) i = x i := by
  have hxn : x i < n := (hx i).trans_le (by rwa [two_pow_eight_mul])
  have hcn : c i < n := hc i ▸ Nat.mod_lt _ (by omega)
  have hread := blockInt_serialized hi (hcn.trans hhi)
  exact ⟨hread, hcn, by rw [decryptedInt, hread, hc, hrsa _ hxn]⟩

theorem blockGood_serialized {i : Nat} (hi : i < nb) : blockGood n d bs (serialized bs nb c) i := by
  obtain ⟨hread, hcn, hdec⟩ := serialized_decrypts hlo hhi hrsa hx hc hi
  exact ⟨hread ▸ hcn, hdec ▸ hx i⟩

end

/-- Decryption under an inverse exponent, for the powers of the claims (`rsaCorrect`). -/
theorem pow_pow_mod_eq {p q e d : Nat} (hp : p.Prime) (hq : q.Prime) (hpq : p ≠ q)
    (hed : e * d % ((p - 1) * (q - 1)) = 1) : ∀ v < p * q, (v ^ e % (p * q)) ^ d % (p * q) = v := by
  intro v hv
  have hn : p * q ≠ 0 := Nat.mul_ne_zero hp.ne_zero hq.ne_zero
  rw [← modexp_eq v e _ hn, ← modexp_eq _ d _ hn]
  exact rsaCorrect p q e d v hp hq hpq hed hv

/-! ### The masks of CBC (45_cipher.md R259) -/

/-- What block i is masked with: the iv, or the low bs bytes of the block before it. -/
def cbcMask (n e bs iv : Nat) (pm : List Byte) : Nat → Nat
  | 0 => iv
  | i + 1 => cbcCipher n e bs iv pm i % 2 ^ (8 * bs)

section
variable {n e d bs iv : Nat} {pm : List Byte}

theorem cbcCipher_eq (i : Nat) :
    cbcCipher n e bs iv pm i = (blockInt pm bs i ^^^ cbcMask n e bs iv pm i) ^ e % n := by
  cases i <;> rfl

theorem cbcMask_lt (hiv : iv < 2 ^ (8 * bs)) (i : Nat) : cbcMask n e bs iv pm i < 2 ^ (8 * bs) := by
  cases i with
  | zero => exact hiv
  | succ i => exact Nat.mod_lt _ (Nat.two_pow_pos _)

/-- Decryption takes off the mask that encryption put on, where the blocks are read back. -/
theorem unmaskedInt_eq {nb : Nat} {ct : List Byte}
    (hread : ∀ i < nb, blockInt ct (bs + 1) i = cbcCipher n e bs iv pm i)
    (hdec : ∀ i < nb, decryptedInt n d bs ct i = blockInt pm bs i ^^^ cbcMask n e bs iv pm i) {i : Nat} (hi : i < nb) :
    unmaskedInt n d bs iv ct i = blockInt pm bs i := by
  cases i with
  | zero => rw [unmaskedInt, hdec 0 hi, cbcMask, Nat.xor_xor_cancel_right]
  | succ i => rw [unmaskedInt, hdec _ hi, hread i (by omega), cbcMask, Nat.xor_xor_cancel_right]

end

/-! ### Decryption of the two outputs -/

section
variable {n e d len : Nat} {msg : List Byte} (h9 : 9 ≤ bitlen n) (hrsa : ∀ v < n, (v ^ e % n) ^ d % n = v)
include h9 hrsa

/-- ECB: the block values are those of the padded message. -/
theorem ecb_decrypts (hlen : msg.length = len) (hpad : padSize len (blockSizeOf n) ≤ 255) :
    let bs := blockSizeOf n
    let nb := blockCount len bs
    let ct := serialized bs nb (ecbCipher n e bs (pad msg bs))
    (∀ i < nb, blockGood n d bs ct i) ∧ unpad (joined bs nb (decryptedInt n d bs ct)) = .ok msg := by
  subst hlen
  obtain ⟨hbs, hlo, hhi⟩ := blockSizeOf_spec n h9
  have hx := blockInt_lt (pad msg (blockSizeOf n)) (blockSizeOf n)
  refine ⟨fun i hi => blockGood_serialized hlo hhi hrsa hx (fun _ => rfl) hi,
    unpad_joined hbs hpad fun i hi => ?_⟩
  obtain ⟨-, -, hdec⟩ := serialized_decrypts hlo hhi hrsa hx (c := ecbCipher n e _ _) (fun _ => rfl) hi
  exact hdec

/-- CBC: the block values, their masks taken off, are those of the padded message. -/
theorem cbc_decrypts {iv : Nat} (hiv : iv < 2 ^ (8 * blockSizeOf n)) (hlen : msg.length = len)
    (hpad : padSize len (blockSizeOf n) ≤ 255) :
    let bs := blockSizeOf n
    let nb := blockCount len bs
    let ct := serialized bs nb (cbcCipher n e bs iv (pad msg bs))
    (∀ i < nb, blockGood n d bs ct i) ∧ unpad (joined bs nb (unmaskedInt n d bs iv ct)) = .ok msg := by
  subst hlen
  obtain ⟨hbs, hlo, hhi⟩ := blockSizeOf_spec n h9
  have hx : ∀ i, blockInt (pad msg (blockSizeOf n)) (blockSizeOf n) i ^^^
      cbcMask n e (blockSizeOf n) iv (pad msg (blockSizeOf n)) i < 2 ^ (8 * blockSizeOf n) :=
    fun i => Nat.xor_lt_two_pow (blockInt_lt _ _ i) (cbcMask_lt hiv i)
  refine ⟨fun i hi => blockGood_serialized hlo hhi hrsa hx cbcCipher_eq hi,
    unpad_joined hbs hpad fun i hi => unmaskedInt_eq (e := e) (fun j hj => ?read) (fun j hj => ?dec) hi⟩
  case read =>
    obtain ⟨hread, -, -⟩ := serialized_decrypts hlo hhi hrsa hx cbcCipher_eq hj
    exact hread
  case dec =>
    obtain ⟨-, -, hdec⟩ := serialized_decrypts hlo hhi hrsa hx cbcCipher_eq hj
    exact hdec

end

/-! ### The output as the next input -/

/-- An output of at most BUF_BYTES bytes that stands in another block's IN_BUF, with its length, is that block's message. -/
theorem State.HoldsOutput.input_eq {t u : State} {out : List Byte} (h : t.HoldsOutput out)
    (hl : u.params.legal = true) (hlen : out.length ≤ u.params.bufBytes) (hmsg : u.msgLen = t.outLen)
    (hbytes : ∀ j < t.outLen.toNat, Memory.read u.mem (inBase + j) = t.outByte j) :
    u.inputLen = out.length ∧ u.input = out := by
  obtain ⟨houtLen, hholds⟩ := h
  have hinputLen : u.inputLen = out.length := by rw [State.inputLen, hmsg, houtLen]
  have hbuf : u.params.bufBytes ≤ bufWindow := (Params.buf_le hl).1
  refine ⟨hinputLen, List.ext_getElem? fun j => ?_⟩
  rw [State.input, hinputLen, Nat.min_eq_left hlen]
  by_cases hj : j < out.length
  · rw [Memory.bytes_getElem? _ _ _ _ _ hj, hbytes j (by omega), hholds j (by omega), List.getElem?_eq_getElem hj,
      Option.getD_some]
  · rw [List.getElem?_eq_none (by rw [Memory.bytes_length]; omega), List.getElem?_eq_none (by omega)]

/-! ### The round trips (45_cipher.md R278) -/

/-- A command that fails sets ERR. -/
theorem err_of_failedWith {i : Instr} {e : Err} {s t t' : State} (h : exec i s = .next t) (h' : exec i s = .next t')
    (hfail : t'.FailedWith i e s) : t.status.err = true := by
  obtain rfl : t' = t := Host.Outcome.next.inj (h'.symm.trans h)
  obtain ⟨-, -, hstatus⟩ := hfail
  rw [hstatus]

theorem ecbError_eq_none_of_exec {s t : State} (h : exec .encEcb s = .next t) (herr : t.status.err = false) :
    s.ecbError = none := by
  cases hchecks : s.ecbError with
  | none => rfl
  | some e =>
    obtain ⟨t', h', hfail⟩ := exec_encEcb_fails hchecks
    exact absurd (err_of_failedWith h h' hfail) (by simp [herr])

theorem cbcError_eq_none_of_exec {s t : State} (h : exec .encCbc s = .next t) (herr : t.status.err = false) :
    s.cbcError = none := by
  cases hchecks : s.cbcError with
  | none => rfl
  | some e =>
    obtain ⟨t', h', hfail, -⟩ := exec_encCbc_fails hchecks
    exact absurd (err_of_failedWith h h' hfail) (by simp [herr])

/-- An ENC_CBC that has ended without an error has drawn its iv. -/
theorem exists_stream_of_exec_encCbc {s t : State} (h : exec .encCbc s = .next t) (hb : t.busy = false)
    (hchecks : s.cbcError = none) : ∃ answer rest, s.stream = answer :: rest := by
  cases hstream : s.stream with
  | cons answer rest => exact ⟨answer, rest, rfl⟩
  | nil =>
    have hawaits : s.Awaits .encCbc _ := encCbcResult_eq_waits_iff.2 ⟨hchecks, hstream, rfl⟩
    obtain ⟨t', h', hbusy, -⟩ := hawaits.exec_waits
    obtain rfl : t' = t := Host.Outcome.next.inj (h'.symm.trans h)
    rw [hb] at hbusy
    cases hbusy

theorem State.input_length_of_le {s : State} (h : s.inputLen ≤ s.params.bufBytes) : s.input.length = s.inputLen := by
  rw [State.input_length, Nat.min_eq_left h]

/-- A serialization of nb blocks is nb blocks long. -/
theorem serialized_blocks (bs nb : Nat) (c : Nat → Nat) :
    (serialized bs nb c).length % (bs + 1) = 0 ∧ (serialized bs nb c).length / (bs + 1) = nb := by
  rw [serialized_length]
  exact ⟨Nat.mul_mod_left _ _, Nat.mul_div_cancel _ (Nat.succ_pos bs)⟩

/-- ENC_CBC's output is its iv and then whole blocks. -/
theorem State.cbcOutput_parts {s : State} {iv : Nat} (hiv : iv < 2 ^ (8 * blockSizeOf (s.W .n))) :
    let bs := blockSizeOf (s.W .n)
    let nb := blockCount s.inputLen bs
    bs ≤ (s.cbcOutput iv).length ∧ beInt ((s.cbcOutput iv).take bs) = iv ∧
      (s.cbcOutput iv).drop bs = serialized bs nb (cbcCipher (s.W .n) (s.W .e) bs iv (pad s.input bs)) ∧
      ((s.cbcOutput iv).length - bs) % (bs + 1) = 0 ∧ ((s.cbcOutput iv).length - bs) / (bs + 1) = nb := by
  intro bs nb
  have htake : (s.cbcOutput iv).take bs = beBytes iv bs := List.take_left' (beBytes_length _ _)
  have hdrop : (s.cbcOutput iv).drop bs = serialized bs nb (cbcCipher (s.W .n) (s.W .e) bs iv (pad s.input bs)) :=
    List.drop_left' (beBytes_length _ _)
  rw [two_pow_eight_mul] at hiv
  rw [← List.length_drop, hdrop, htake]
  exact ⟨by simp [State.cbcOutput, bs], beInt_beBytes_of_lt hiv, rfl, serialized_blocks _ _ _⟩

/-- Settles O37: ENC_ECB's output passes DEC_ECB's checks, and decrypts to the padded message (`ecb_decrypts`). -/
theorem ecbRoundTrip : Obligations.EcbRoundTrip := by
  intro s t u p q hl hp hq hpq hn hed hexec herr hparams hN hmsg hbytes htxt
  have hchecks := ecbError_eq_none_of_exec hexec herr
  obtain ⟨h9, hlen, hpad, -⟩ := encryptError_eq_none_iff.1 hchecks
  obtain ⟨t', hexec', -, -, hholds⟩ := exec_encEcb_outputs hl hchecks
  obtain rfl : t' = t := Host.Outcome.next.inj (hexec'.symm.trans hexec)
  have hout : s.ecbOutput.length ≤ s.params.bufBytes := encEcbResult_length_le (encEcbResult_of_checks hchecks)
  obtain ⟨huLen, huInput⟩ := hholds.input_eq (hparams ▸ hl) (hparams ▸ hout) hmsg hbytes
  obtain ⟨hmod, hdiv⟩ : s.ecbOutput.length % (blockSizeOf (s.W .n) + 1) = 0 ∧
      s.ecbOutput.length / (blockSizeOf (s.W .n) + 1) = blockCount s.inputLen (blockSizeOf (s.W .n)) :=
    serialized_blocks _ _ _
  obtain ⟨hgood, hunpad⟩ := ecb_decrypts h9 (hn ▸ pow_pow_mod_eq hp hq hpq hed) (State.input_length_of_le hlen) hpad
  have hdec := Cipher.decEcbResult u s.input
  rw [hparams, hN, huLen, huInput, hdiv] at hdec
  obtain ⟨v, hv, hdone, -, hholds'⟩ := hdec hl h9 hout hmod hgood hunpad htxt
  exact ⟨v, hv, hdone, hholds'⟩

/-- Settles O38: ENC_CBC's output passes DEC_CBC's checks, and behind its iv decrypts to the padded message
(`cbc_decrypts`). -/
theorem cbcRoundTrip : Obligations.CbcRoundTrip := by
  intro s t u p q hl hp hq hpq hn hed hexec hb herr hparams hN hmsg hbytes htxt
  have hchecks := cbcError_eq_none_of_exec hexec herr
  obtain ⟨h9, hlen, hpad, -⟩ := encryptError_eq_none_iff.1 hchecks
  obtain ⟨answer, rest, hstream⟩ := exists_stream_of_exec_encCbc hexec hb hchecks
  obtain ⟨t', hexec', -, -, -, hholds⟩ := exec_encCbc_outputs hl hchecks hstream
  obtain rfl : t' = t := Host.Outcome.next.inj (hexec'.symm.trans hexec)
  have hiv : answer % 2 ^ (8 * blockSizeOf (s.W .n)) < 2 ^ (8 * blockSizeOf (s.W .n)) :=
    Nat.mod_lt _ (Nat.two_pow_pos _)
  have hout := encCbcResult_length_le (encCbcResult_of_checks hchecks hstream)
  generalize answer % 2 ^ (8 * blockSizeOf (s.W .n)) = iv at hiv hholds hout
  obtain ⟨huLen, huInput⟩ := hholds.input_eq (hparams ▸ hl) (hparams ▸ hout) hmsg hbytes
  obtain ⟨hle, hivInt, hdrop, hmod, hdiv⟩ := State.cbcOutput_parts hiv
  obtain ⟨hgood, hunpad⟩ := cbc_decrypts h9 (hn ▸ pow_pow_mod_eq hp hq hpq hed) hiv (State.input_length_of_le hlen) hpad
  have hdec := Cipher.decCbcResult u s.input
  dsimp only at hdec
  rw [hparams, hN, huLen, huInput, hdiv, hivInt, hdrop] at hdec
  obtain ⟨v, hv, hdone, -, hholds'⟩ := hdec hl h9 hout hle hmod hgood hunpad htxt
  exact ⟨v, hv, hdone, hholds'⟩

end Sys2Proof.Machine
end

section
/-! O8 and O40: no command and no event stops the block (60_exceptions.md R302, R303), and a command reports only the errors R301
lists for it. Each command ends by `settle` or `settleDrawn`, so ERR tells that its result is an error, and the result's checks and
loops tell which. -/

namespace Sys2Proof.Machine

/-! ### Every outcome is a next state (R302, R303) -/

theorem State.settle_next {α : Type} (s : State) (i : Instr) (res : Except Err α) (commit : α → State → State) :
    ∃ t, s.settle i res commit = .next t := by
  cases res with
  | error e => exact ⟨s.raise i e, rfl⟩
  | ok a => exact ⟨(commit a s).finish, rfl⟩

theorem State.settleDrawn_next {α : Type} (s : State) (i : Instr) (res : Drawn α) (commit : α → State → State) :
    ∃ t, s.settleDrawn i res commit = .next t := by
  cases res with
  | err e rest => exact ⟨(s.withEntropy rest).raise i e, rfl⟩
  | ok a rest => exact ⟨(commit a (s.withEntropy rest)).finish, rfl⟩
  | waits req => exact ⟨s.waitFor i req, rfl⟩

theorem exec_next (i : Instr) (s : State) : ∃ t, exec i s = .next t := by
  cases i with
  | nop => exact ⟨_, exec_nop_eq s⟩
  | modmul => exact exec_modmul_eq s ▸ State.settle_next ..
  | modexp => exact exec_modexp_eq s ▸ State.settle_next ..
  | gcd => exact exec_gcd_eq s ▸ State.settle_next ..
  | modinv => exact exec_modinv_eq s ▸ State.settle_next ..
  | mrtest => exact exec_mrtest_eq s ▸ State.settleDrawn_next ..
  | genprime => exact exec_genprime_eq s ▸ State.settleDrawn_next ..
  | keygen => exact exec_keygen_eq s ▸ State.settleDrawn_next ..
  | encEcb => exact exec_encEcb_eq s ▸ State.settle_next ..
  | decEcb => exact exec_decEcb_eq s ▸ State.settle_next ..
  | encCbc => exact exec_encCbc_eq s ▸ State.settleDrawn_next ..
  | decCbc => exact exec_decCbc_eq s ▸ State.settle_next ..

theorem State.coreMove_next (s : State) : ∃ t, s.coreMove = .next t := by
  rw [State.coreMove]
  split
  · exact ⟨s, rfl⟩
  · split
    · exact ⟨s, rfl⟩
    · split
      · exact exec_next _ s
      · exact ⟨_, rfl⟩

theorem State.startCommand_next (s : State) (v : Word) : ∃ t, s.startCommand v = .next t := by
  rw [State.startCommand]
  split
  · exact ⟨_, rfl⟩
  · exact exec_next .nop s
  · exact ⟨_, rfl⟩

/-- Of the accepted writes only one to CMD runs anything. -/
theorem State.storeLoc_next (s : State) (l : Loc) (v : Word) : ∃ t, s.storeLoc l v = .next t := by
  rw [State.storeLoc.eq_def]
  split
  · exact s.startCommand_next v
  all_goals exact ⟨_, rfl⟩

theorem State.memWrite_next (s : State) (off size : Nat) (v : Word) : ∃ t, s.memWrite off size v = .next t := by
  rw [State.memWrite]
  split
  · split
    · split
      · exact ⟨_, rfl⟩
      · exact State.storeLoc_next ..
    · exact ⟨_, rfl⟩
  · exact ⟨_, rfl⟩

theorem State.transact_next (s : State) (x : Txn) : ∃ t, s.transact x = .next t := by
  cases x with
  | read addr size =>
    rw [State.transact]
    split
    · exact ⟨_, rfl⟩
    · split <;> exact ⟨_, rfl⟩
  | write addr size v =>
    rw [State.transact]
    split
    · exact ⟨_, rfl⟩
    · split
      · exact ⟨_, rfl⟩
      · exact State.memWrite_next ..

theorem State.handle_next (s : State) (e : Event) : ∃ t, s.handle e = .next t := by
  cases e with
  | bus x => exact s.transact_next x
  | rst asserted => cases asserted <;> exact ⟨_, rfl⟩
  | core => exact s.coreMove_next
  | entropy answer => exact ⟨_, rfl⟩

/-- Settles O8: an error is a next state too, and the one stop of a step is at illegal parameters. -/
theorem nothingStops : Obligations.NothingStops := by
  refine ⟨exec_next, fun s hl => ?_⟩
  cases hin : s.inputs with
  | nil => exact step_eq_coreMove hl hin ▸ s.coreMove_next
  | cons e rest => exact step_eq_handle hl hin ▸ State.handle_next _ e

/-! ### The errors of each command's result (R301) -/

theorem modmulResult_canReport {s : State} {e : Err} (h : modmulResult s = .error e) : Instr.modmul.canReport e = true := by
  rw [modmulResult] at h
  split at h <;> cases h
  rfl

theorem modexpResult_canReport {s : State} {e : Err} (h : modexpResult s = .error e) : Instr.modexp.canReport e = true := by
  rw [modexpResult] at h
  split at h <;> cases h
  rfl

theorem modinvResult_canReport {s : State} {e : Err} (h : modinvResult s = .error e) : Instr.modinv.canReport e = true := by
  rw [modinvResult] at h
  split_ifs at h <;> cases h <;> rfl

/-- The test itself never fails, so MRTEST fails by its check of MR_ROUNDS only. -/
theorem mrtestResult_canReport {s : State} {e : Err} {rest : List Nat} (h : mrtestResult s = .err e rest) :
    Instr.mrtest.canReport e = true := by
  rw [mrtestResult] at h
  split at h
  · cases h
    rfl
  · exact absurd h (mr_ne_err _ _ _ _ _)

theorem genprimeResult_canReport {s : State} {e : Err} {rest : List Nat} (h : genprimeResult s = .err e rest) :
    Instr.genprime.canReport e = true := by
  rcases genprimeResult_eq_err h with rfl | hgen
  · rfl
  · obtain rfl := genprime_err _ _ _ _ hgen
    rfl

/-- KEYGEN has no E_NO_INVERSE: e is drawn until it has an inverse (44_keygen.md R234). -/
theorem keygenResult_canReport {s : State} {e : Err} {rest : List Nat} (h : keygenResult s = .err e rest) :
    Instr.keygen.canReport e = true := by
  rcases keygenResult_err h with rfl | rfl | rfl <;> rfl

/-! ### The errors of a cipher command's result (R301; 45_cipher.md R258, R263, R273, R277) -/

theorem encryptError_eq_some {buf n len outLen : Nat} {e : Err} (h : encryptError buf n len outLen = some e) :
    e = .badOperand ∨ e = .bufferOverflow := by
  rw [encryptError] at h
  split_ifs at h <;> cases h <;> simp

/-- Where the checks pass no block fails, so an error of ENC_ECB is a check's (45_cipher.md R263). -/
theorem encEcbResult_eq_error {s : State} {e : Err} (h : encEcbResult s = .error e) : s.ecbError = some e := by
  cases hchecks : s.ecbError with
  | none => simp [encEcbResult_of_checks hchecks] at h
  | some e' =>
    rw [State.ecbError] at hchecks
    simpa [encEcbResult, hchecks] using h

/-- Where the checks pass ENC_CBC waits for its iv or ends with its output, so an error is a check's. -/
theorem encCbcResult_eq_err {s : State} {e : Err} {rest : List Nat} (h : encCbcResult s = .err e rest) :
    s.cbcError = some e := by
  cases hchecks : s.cbcError with
  | none =>
    cases hstream : s.stream with
    | nil => simp [encCbcResult_eq_waits_iff.2 ⟨hchecks, hstream, rfl⟩] at h
    | cons answer tail => simp [encCbcResult_of_checks hchecks hstream] at h
  | some e' =>
    rw [State.cbcError] at hchecks
    simp only [encCbcResult, hchecks, Drawn.err.injEq] at h
    obtain ⟨rfl, -⟩ := h
    rfl

theorem encEcbResult_canReport {s : State} {e : Err} (h : encEcbResult s = .error e) : Instr.encEcb.canReport e = true := by
  rcases encryptError_eq_some (encEcbResult_eq_error h) with rfl | rfl <;> rfl

theorem encCbcResult_canReport {s : State} {e : Err} {rest : List Nat} (h : encCbcResult s = .err e rest) :
    Instr.encCbc.canReport e = true := by
  rcases encryptError_eq_some (encCbcResult_eq_err h) with rfl | rfl <;> rfl

/-- The two decrypt commands have the same Y entries. -/
theorem decCbc_canReport (e : Err) : Instr.decCbc.canReport e = Instr.decEcb.canReport e := by cases e <;> rfl

section
variable {buf n len d bs nb : Nat} {e : Err}

theorem decEcbError_canReport (h : decEcbError buf n len = some e) : Instr.decEcb.canReport e = true := by
  rw [decEcbError] at h
  split_ifs at h <;> cases h <;> rfl

theorem decCbcError_canReport (h : decCbcError buf n len = some e) : Instr.decEcb.canReport e = true := by
  rw [decCbcError] at h
  split_ifs at h <;> cases h <;> rfl

theorem decryptBlock_eq_error {cb : List Byte} (h : decryptBlock n d bs cb = .error e) :
    e = .blockOverflow ∨ e = .decoding := by
  rw [decryptBlock] at h
  split_ifs at h <;> cases h
  · exact .inl rfl
  · exact .inr rfl

theorem decEcbBlocks_canReport {ct : List Byte} (h : decEcbBlocks n d bs nb ct = .error e) :
    Instr.decEcb.canReport e = true := by
  induction nb generalizing ct with
  | zero => cases h
  | succ nb ih =>
    rw [decEcbBlocks] at h
    split at h
    next e' hblock =>
      cases h
      rcases decryptBlock_eq_error hblock with rfl | rfl <;> rfl
    next y _ => exact ih (prepend_eq_error_iff.1 h)

theorem finishText_canReport {txt : Bool} {padded : List Byte} (h : finishText txt padded = .error e) :
    Instr.decEcb.canReport e = true := by
  rw [finishText] at h
  split at h
  next e' hunpad =>
    cases h
    rw [unpad_eq_error hunpad]
    rfl
  next msg _ =>
    rw [checkText] at h
    split at h <;> cases h
    rfl

end

theorem decEcbResult_canReport {s : State} {e : Err} (h : decEcbResult s = .error e) : Instr.decEcb.canReport e = true := by
  rw [decEcbResult] at h
  split at h
  next e' hchecks =>
    cases h
    exact decEcbError_canReport hchecks
  next =>
    split at h
    next e' hblocks =>
      cases h
      exact decEcbBlocks_canReport hblocks
    next => exact finishText_canReport h

theorem decCbcResult_canReport {s : State} {e : Err} (h : decCbcResult s = .error e) : Instr.decCbc.canReport e = true := by
  rw [decCbcResult] at h
  rw [decCbc_canReport]
  split at h
  next e' hchecks =>
    cases h
    exact decCbcError_canReport hchecks
  next =>
    split at h
    next e' hblocks =>
      cases h
      exact decEcbBlocks_canReport (decCbcBlocks_eq_error_iff.1 hblocks)
    next => exact finishText_canReport h

/-! ### What a command reports is an error of its result (40_control.md R145, R146) -/

section
variable {α : Type} {i : Instr} {s t : State} {commit : α → State → State}

/-- Of the two ends of a command that draws nothing only the error epilogue sets ERR. -/
theorem State.settle_reports {res : Except Err α} (h : s.settle i res commit = .next t) (herr : t.status.err = true)
    (hres : ∀ {e}, res = .error e → i.canReport e = true) : ∃ e, i.canReport e = true ∧ t.status.errcode = e.code := by
  rcases State.settle_cases h with ⟨e, he, rfl⟩ | ⟨a, -, rfl⟩
  · exact ⟨e, hres he, by simp⟩
  · simp at herr

/-- Of the three ends of a command that draws only the error epilogue sets ERR, which its start has cleared. -/
theorem State.settleDrawn_reports {res : Drawn α} (h : s.settleDrawn i res commit = .next t) (hs : s.status.err = false)
    (herr : t.status.err = true) (hres : ∀ {e rest}, res = .err e rest → i.canReport e = true) :
    ∃ e, i.canReport e = true ∧ t.status.errcode = e.code := by
  rcases State.settleDrawn_cases h with ⟨e, rest, he, rfl⟩ | ⟨a, rest, -, rfl⟩ | ⟨req, -, rfl⟩
  · exact ⟨e, hres he, by simp⟩
  · simp at herr
  · simp [hs] at herr

end

/-- Settles O40: the reported error is an error of the command's result. -/
theorem errorsAsListed : Obligations.ErrorsAsListed := by
  intro i s t h herr
  cases i with
  | nop =>
    cases h
    cases herr
  | modmul => exact State.settle_reports (exec_modmul_eq s ▸ h) herr modmulResult_canReport
  | modexp => exact State.settle_reports (exec_modexp_eq s ▸ h) herr modexpResult_canReport
  | gcd => exact State.settle_reports (exec_gcd_eq s ▸ h) herr fun he => by cases he
  | modinv => exact State.settle_reports (exec_modinv_eq s ▸ h) herr modinvResult_canReport
  | mrtest => exact State.settleDrawn_reports (exec_mrtest_eq s ▸ h) rfl herr mrtestResult_canReport
  | genprime => exact State.settleDrawn_reports (exec_genprime_eq s ▸ h) rfl herr genprimeResult_canReport
  | keygen => exact State.settleDrawn_reports (exec_keygen_eq s ▸ h) rfl herr keygenResult_canReport
  | encEcb => exact State.settle_reports (exec_encEcb_eq s ▸ h) herr encEcbResult_canReport
  | decEcb => exact State.settle_reports (exec_decEcb_eq s ▸ h) herr decEcbResult_canReport
  | encCbc => exact State.settleDrawn_reports (exec_encCbc_eq s ▸ h) rfl herr encCbcResult_canReport
  | decCbc => exact State.settle_reports (exec_decCbc_eq s ▸ h) herr decCbcResult_canReport

end Sys2Proof.Machine
end

section
/-! O55: what an asserted `rst` does to the block (70_reset_and_hazards.md R340, R341). The reset itself is `resetWith` (O54);
here stand the two ways the block could still act while the pin is asserted, the core's move and the host's transactions. -/

namespace Sys2Proof.Machine

/-- A core held in reset does nothing, whatever `run` holds. -/
theorem State.coreMove_inReset {s : State} (hrst : s.rst = true) : s.coreMove = .next s := by
  rw [State.coreMove, if_pos hrst]

/-- In reset a write of the window is refused before its offset and size are looked at. -/
theorem State.transact_write_inReset {s : State} {addr off : Nat} (size : Nat) (v : Word) (hrst : s.rst = true)
    (hoff : offsetOf s.params addr = some off) : s.transact (.write addr size v) = .next (s.respond .writeError) := by
  simp only [State.transact, hoff, hrst, if_true]

theorem State.transact_read_inReset {s : State} {addr off : Nat} (size : Nat) (hrst : s.rst = true)
    (hoff : offsetOf s.params addr = some off) :
    s.transact (.read addr size) = .next (s.respondRead (.readError (Config.freeWord s.free))) := by
  simp only [State.transact, hoff, hrst, if_true]

/-- Settles O55: a step on `rst` is `assertReset`, whose wide registers are those of `resetWith`, or `releaseReset`; in between
the core's move and the window's transactions are answered by the level of the pin alone. -/
theorem resetAborts : Obligations.ResetAborts := by
  refine ⟨?asserts, ?rests, ?releases, ?refuses⟩
  case asserts =>
    intro s rest hl hin
    refine ⟨(State.resetWith s.params).wide, fun k i => ?_, step_eq_handle hl hin⟩
    rw [State.resetWith_get, WideReg.reset_word]
  case rests =>
    intro s hl hrst
    exact ⟨fun hin => (step_eq_coreMove hl hin).trans (State.coreMove_inReset hrst),
      fun rest hin => (step_eq_handle hl hin).trans (State.coreMove_inReset hrst)⟩
  case releases => exact fun s rest hl hin => step_eq_handle hl hin
  case refuses =>
    intro s addr size v hrst hlo hhi
    have hoff := offsetOf_inside hlo hhi
    exact ⟨State.transact_write_inReset size v hrst hoff, State.transact_read_inReset size hrst hoff⟩

end Sys2Proof.Machine
end
